-- ==== Sys2Proof/Word.lean ====
section
/-! DEFINITION. The word types of the block: bytes of system memory, 32-bit registers and output words
(00_scope.md R7, R8). -/

namespace Sys2Proof

/-- One byte of system memory (R70). -/
abbrev Byte := BitVec 8

/-- One 32-bit register, bus word or output sample word (R7, R28, R111). -/
abbrev Word := BitVec 32

end Sys2Proof
end

