-- ==== Sys2Proof/Config.lean ====
section
/-! DEFINITION. What an implementation fixes: the parameters of 00_scope.md R7, the platform's answer to a bus access
(60_exceptions.md R271), and the free values, which the spec leaves open. -/

namespace Sys2Proof

/-- The two kinds of system-memory access of the block, MemRead8 and MemWrite32 (R9, R71). -/
inductive AccessKind
  | read
  | write
  deriving DecidableEq, Repr

/-- Addresses at which the platform answers one kind of access with an error (R271). -/
structure BusErrRegion where
  base : Nat
  size : Nat
  kind : AccessKind
  deriving DecidableEq, Repr

/-- The OPEN parameters (R7; 93_implementation_defined.md part 3): arguments of the model, held as plain data in the
state and changed by no step, so that a statement about every state is about every choice of them. `busErrors` lists
where `BusOK` is false. -/
structure Params where
  maxChannels : Nat
  regBase     : Nat
  irqRoute    : Nat
  busErrors   : List BusErrRegion
  deriving DecidableEq, Repr

/-- The reference configuration: MAX_CHANNELS = 8 and every access answered OK (R7, D6, D33).
DESIGN CHOICE: REG_BASE and IRQ_ROUTE have no reference value and are 0 here (log 1). -/
def Params.reference : Params := { maxChannels := 8, regBase := 0, irqRoute := 0, busErrors := [] }

/-- The ranges R7 gives the parameters: 1 ≤ MAX_CHANNELS ≤ 65535, and REG_BASE 128-byte aligned. -/
abbrev Params.wf (p : Params) : Prop :=
  1 ≤ p.maxChannels ∧ p.maxChannels ≤ 65535 ∧ p.regBase % 128 = 0

/-- W_MAX, the number of worker datapaths (R7, D5). -/
def Config.wMax : Nat := 4

/-- Free value: which of several enabled agent steps is taken when the state's list of moves does not say
(R193, R197; log 5). -/
opaque Config.freeChoice : Nat → Nat

/-- Free value: which of the memories it may still see the host access of a number sees an aligned word of (R83 (c);
log 14). The word's number is its address over 4. -/
opaque Config.freeSeen : Nat → Nat → Nat

/-- Free value: the word at an address that is an output word of a command for which the host has broken its duty, after
the host store of a number (R82; log 37). -/
opaque Config.freeOutput : Nat → Nat → Word

/-- Free value: what ERR_INFO then holds as the error that command recorded (R82; log 37). DESIGN CHOICE: any 32 bits, as
U6 gives any value, the codes and subcodes that U17 says are never produced among them. -/
opaque Config.freeErrInfo : Nat → Word

/-- Free value: what ERR_BLOCK then holds as the error that command recorded, any 32 bits (R82, U6; log 37). -/
opaque Config.freeErrBlock : Nat → Word

/-- Free value: what StepTable gives for an index outside 0..88, which no rule reads (R21, R24; log 10). -/
opaque Config.freeStep : Nat → BitVec 15

/-- Free value: what the SPB register reads when the number SPB needs more than 32 bits (R46; log 11). -/
opaque Config.freeSpb : Nat → Word

end Sys2Proof
end

