-- ==== Sys2Proof/Syntax.lean ====
section
/-! DEFINITION. The instructions of the block: the six command words and the sixteen nibble codes of
spec/opcode_table.json (30_encoding.md R103, R110), the registers by name (10_state.md R28), and the lines of a host
program (R113, R114). -/

namespace Sys2Proof

/-- One constructor per row of the opcode table. `decode` carries the word's WORKERS field (R101). -/
inductive Instr
  | nop
  | decode (workers : BitVec 3)
  | decodeBlock
  | abort
  | clear
  | softReset
  | nib0
  | nib1
  | nib2
  | nib3
  | nib4
  | nib5
  | nib6
  | nib7
  | nib8
  | nib9
  | nibA
  | nibB
  | nibC
  | nibD
  | nibE
  | nibF
  deriving DecidableEq, Repr

/-- The two kinds of encoded instruction: a 32-bit command word (R100) and a 4-bit nibble code (R110). -/
inductive Code
  | cmd (w : Word)
  | nibble (n : BitVec 4)
  deriving DecidableEq, Repr

/-- The registers of the window, by the names of R28. -/
inductive Reg
  | id
  | param
  | cmd
  | status
  | irqEn
  | chCount
  | blockSize
  | inBase
  | inLen
  | outBase
  | outStride
  | outLen
  | blkIndex
  | outOffset
  | nextOffset
  | blockCount
  | spb
  | totalSamples
  | errInfo
  | errBlock
  | runInfo
  deriving DecidableEq, Repr

/-- One line of a host program (R113, R114). `wait` names a register and the bit that has to read 1. -/
inductive HostLine
  | mem (addr : Nat) (bytes : List Byte)
  | wr (r : Reg) (imm : Word)
  | rd (r : Reg)
  | instr (i : Instr)
  | wait (r : Reg) (bit : Nat)
  deriving DecidableEq, Repr

end Sys2Proof
end

