-- ==== Sys2Proof/WellFormed.lean ====
section
/-! DEFINITION. Which terms of Instr an encoding exists for: every one, but that DECODE's WORKERS field is at most
W_MAX (30_encoding.md R102, R104 subcode 3). -/

namespace Sys2Proof

/-- `wellFormed i`: some legal command word or nibble code stands for `i`. -/
def Instr.wellFormed : Instr → Bool
  | .decode workers => decide (workers.toNat ≤ Config.wMax)
  | .nop => true
  | .decodeBlock => true
  | .abort => true
  | .clear => true
  | .softReset => true
  | .nib0 => true
  | .nib1 => true
  | .nib2 => true
  | .nib3 => true
  | .nib4 => true
  | .nib5 => true
  | .nib6 => true
  | .nib7 => true
  | .nib8 => true
  | .nib9 => true
  | .nibA => true
  | .nibB => true
  | .nibC => true
  | .nibD => true
  | .nibE => true
  | .nibF => true

/-- Whether `i` is one of the six commands; the others are the nibble codes. -/
def Instr.isCommand : Instr → Bool
  | .nop | .decode _ | .decodeBlock | .abort | .clear | .softReset => true
  | .nib0 | .nib1 | .nib2 | .nib3 | .nib4 | .nib5 | .nib6 | .nib7 => false
  | .nib8 | .nib9 | .nibA | .nibB | .nibC | .nibD | .nibE | .nibF => false

end Sys2Proof
end

