-- ==== Sys2Proof/Decode.lean ====
section
/-! DEFINITION. Decoding and encoding of command words (30_encoding.md R100 to R104) and nibble codes (R109, R110),
total, an illegal word refused by the name of its subcode. -/

namespace Sys2Proof

/-- Why a command word is illegal, one name per subcode of R104. -/
inductive IllegalWord
  /-- subcode 1: OPCODE in 0x5..0xE -/
  | reservedOpcode
  /-- subcode 2: a reserved bit is not 0 -/
  | reservedBits
  /-- subcode 3: DECODE with WORKERS > W_MAX -/
  | tooManyWorkers
  deriving DecidableEq, Repr

/-- What decoding answers: one instruction, or the reason the word is illegal. -/
inductive Decoded
  | instr (i : Instr)
  | illegal (e : IllegalWord)
  deriving DecidableEq, Repr

/-- The subcode ERR_SUB reports for an illegal word (R104, R251). -/
def IllegalWord.sub : IllegalWord → BitVec 4
  | .reservedOpcode => 1
  | .reservedBits => 2
  | .tooManyWorkers => 3

/-- OPCODE, bits 3:0 (R101). -/
def cmdOpcode (cw : Word) : BitVec 4 := cw.extractLsb' 0 4

/-- WORKERS, bits 6:4 (R101). -/
def cmdWorkers (cw : Word) : BitVec 3 := cw.extractLsb' 4 3

/-- The reserved bits 31:7 (R101). -/
def cmdReserved (cw : Word) : BitVec 25 := cw.extractLsb' 7 25

/-- The command word decoder: the legality tests of R104 in their order, then the opcode map of R103. -/
def decodeCmd (cw : Word) : Decoded :=
  if 5 ≤ (cmdOpcode cw).toNat ∧ (cmdOpcode cw).toNat ≤ 14 then .illegal .reservedOpcode
  else if cmdReserved cw ≠ 0 ∨ (cmdOpcode cw ≠ 1 ∧ cmdWorkers cw ≠ 0) then .illegal .reservedBits
  else if cmdOpcode cw = 1 ∧ Config.wMax < (cmdWorkers cw).toNat then .illegal .tooManyWorkers
  else if cmdOpcode cw = 0 then .instr .nop
  else if cmdOpcode cw = 1 then .instr (.decode (cmdWorkers cw))
  else if cmdOpcode cw = 2 then .instr .decodeBlock
  else if cmdOpcode cw = 3 then .instr .abort
  else if cmdOpcode cw = 4 then .instr .clear
  else .instr .softReset

/-- The nibble code decoder: all sixteen values are valid (R110). -/
def decodeNibble (n : BitVec 4) : Instr :=
  if n = 0 then .nib0
  else if n = 1 then .nib1
  else if n = 2 then .nib2
  else if n = 3 then .nib3
  else if n = 4 then .nib4
  else if n = 5 then .nib5
  else if n = 6 then .nib6
  else if n = 7 then .nib7
  else if n = 8 then .nib8
  else if n = 9 then .nib9
  else if n = 10 then .nibA
  else if n = 11 then .nibB
  else if n = 12 then .nibC
  else if n = 13 then .nibD
  else if n = 14 then .nibE
  else .nibF

/-- Decoding of either kind of code. -/
def decode : Code → Decoded
  | .cmd w => decodeCmd w
  | .nibble n => .instr (decodeNibble n)

/-- The two nibbles of a body byte: `h = 0` is bits 3:0, decoded first, `h = 1` is bits 7:4 (R109). -/
def nibbleOf (x : Byte) (h : Nat) : BitVec 4 :=
  if h = 0 then x.extractLsb' 0 4 else x.extractLsb' 4 4

/-- The code that stands first in a list of bytes: one byte is a body byte, whose low nibble is decoded first (R109);
four bytes are the lanes of a command word, lane 0 carrying bits 7:0 (R72 (c), R100). No other length is a code. -/
def codeOfBytes : List Byte → Option Code
  | [x] => some (.nibble (nibbleOf x 0))
  | [b0, b1, b2, b3] => some (.cmd (b3 ++ b2 ++ b1 ++ b0))
  | _ => none

/-- Decoding of bytes; `none` where their number is no code's. -/
def decodeBytes (bs : List Byte) : Option Decoded := (codeOfBytes bs).map decode

/-- The encoder, from the word patterns of R103 and the codes of R110. -/
def encode : Instr → Code
  | .nop => .cmd 0x00000000#32
  | .decode workers => .cmd (0#25 ++ workers ++ 0x1#4)
  | .decodeBlock => .cmd 0x00000002#32
  | .abort => .cmd 0x00000003#32
  | .clear => .cmd 0x00000004#32
  | .softReset => .cmd 0x0000000F#32
  | .nib0 => .nibble 0x0#4
  | .nib1 => .nibble 0x1#4
  | .nib2 => .nibble 0x2#4
  | .nib3 => .nibble 0x3#4
  | .nib4 => .nibble 0x4#4
  | .nib5 => .nibble 0x5#4
  | .nib6 => .nibble 0x6#4
  | .nib7 => .nibble 0x7#4
  | .nib8 => .nibble 0x8#4
  | .nib9 => .nibble 0x9#4
  | .nibA => .nibble 0xA#4
  | .nibB => .nibble 0xB#4
  | .nibC => .nibble 0xC#4
  | .nibD => .nibble 0xD#4
  | .nibE => .nibble 0xE#4
  | .nibF => .nibble 0xF#4

/-- The bytes of a number, the least significant first (R72). -/
def leBytes : Nat → Nat → List Byte
  | 0, _ => []
  | n + 1, v => BitVec.ofNat 8 v :: leBytes n (v / 256)

/-- What the decoder reads from an instruction of the opcode table whose bits are `w`: a nibble row is at most one
byte, a command row is one 32-bit word; an illegal word answers `none`. -/
def decodeTableWord (nbits w : Nat) : Option Instr :=
  match decodeBytes (leBytes (if nbits ≤ 8 then 1 else 4) w) with
  | some (.instr i) => some i
  | some (.illegal _) => none
  | none => none

end Sys2Proof
end

