-- ==== Sys2Proof/Machine/State.lean ====
section
/-! DEFINITION. Everything the spec gives the machine (10_state.md), as plain data, with the model's own bookkeeping
fields last; the reasons a step can stop; the state after reset (70_reset_and_hazards.md R281). -/

namespace Sys2Proof.Machine

/-- The command being run, or where a worker's output slots come from (R26, R27): STREAM for DECODE, SINGLE for
DECODE_BLOCK. -/
inductive Kind
  | stream
  | single
  deriving DecidableEq, Repr

/-- The orchestrator's phase (R27, R190). -/
inductive OrchPhase
  | idle
  | fill
  | run
  | drain
  deriving DecidableEq, Repr

/-- A worker's phase, the block's equivalent of a program counter (R26): about to check the header of channel `ch`,
to write its header sample, or to decode nibble `h` of byte `b` of channel `ch` in group `g`. -/
inductive CursorPhase
  | hchk (ch : Nat)
  | hwr (ch : Nat)
  | body (g ch b h : Nat)
  deriving DecidableEq, Repr

/-- ChannelState (R24): the 16-bit signed predictor and the 7-bit step index. -/
structure Chan where
  pred : BitVec 16
  idx  : BitVec 7
  deriving DecidableEq, Repr

/-- One worker: its cursor (R26) and its array `cs` of ChannelStates (R24). `stop` is the cursor's `end`, 33 bits, one
past the last block of the range. -/
structure Worker where
  active : Bool
  blk    : BitVec 32
  stop   : BitVec 33
  kind   : Kind
  obase  : BitVec 32
  phase  : CursorPhase
  cs     : List Chan
  deriving DecidableEq, Repr

/-- The names of the workers W_0 .. W_3 (R20, R268). -/
inductive WorkerId
  | w0
  | w1
  | w2
  | w3
  deriving DecidableEq, Repr

/-- The four workers, W_MAX = 4 (R7). -/
structure Workers where
  w0 : Worker
  w1 : Worker
  w2 : Worker
  w3 : Worker
  deriving DecidableEq, Repr

/-- The orchestrator (R27). `w` is W, the number of workers used; the fill cursor is `(fillCh, fillI)`. -/
structure Orch where
  phase   : OrchPhase
  kind    : Kind
  w       : BitVec 3
  fillCh  : Nat
  fillI   : Nat
  latched : Bool
  deriving DecidableEq, Repr

/-- The six STATUS bits (R33). -/
structure Status where
  busy  : Bool
  done  : Bool
  err   : Bool
  ovr   : Bool
  trail : Bool
  drain : Bool
  deriving DecidableEq, Repr

/-- The host-visible registers that have storage (R33 to R44, R48 to R50), at the widths of their fields; a reserved bit
has none (R29). -/
structure Regs where
  status     : Status
  irqEn      : BitVec 2
  chCount    : BitVec 16
  blockSize  : Word
  inBase     : Word
  inLen      : Word
  outBase    : Word
  outStride  : Word
  outLen     : Word
  blkIndex   : Word
  outOffset  : Word
  nextOffset : Word
  errInfo    : Word
  errBlock   : Word
  runInfo    : BitVec 3
  deriving DecidableEq, Repr

/-- A duty of the host (R82): the command it was accepted with and the configuration of that command, whose regions the
host must not write. -/
structure Duty where
  kind : Kind
  regs : Regs
  deriving DecidableEq, Repr

/-- The error codes of R250. -/
inductive ErrCode
  | none
  | malformedBlockHeader
  | bufferSizeMismatch
  | illegalCommand
  | configError
  | aborted
  | busError
  deriving DecidableEq, Repr

/-- What a raised error carries (R253): `(code, sub, byte, ch, blk)`. -/
structure ErrRec where
  code : ErrCode
  sub  : BitVec 4
  byte : Byte
  ch   : BitVec 16
  blk  : Word
  deriving DecidableEq, Repr

/-- Why an acceptance check fails (R256): code and subcode. -/
structure ErrCause where
  code : ErrCode
  sub  : BitVec 4
  deriving DecidableEq, Repr

/-- The width of a host access to the register window (R77). -/
inductive AccSize
  | byte
  | half
  | word
  deriving DecidableEq, Repr

/-- One step of an agent of the block (R10): the orchestrator's enabled step, a worker's next micro-operation, or a
worker's halt step in DRAIN (R197). -/
inductive AgentMove
  | orch
  | micro (w : WorkerId)
  | halt (w : WorkerId)
  deriving DecidableEq, Repr

/-- One move of an execution: a step of an agent of the block, or one of the outside world: a host access to the
register window (R77), a host store to or load from system memory (R20, R82, R83), the host's polling loop (R114), the
power-on reset (R280). Addresses of the window are host-bus addresses. DESIGN CHOICE: the spec gives no widths of the
host's accesses to system memory; it stores single bytes, and loads a single byte or the aligned word of a number, which
is its address over 4 (log 34). -/
inductive Move
  | agent (a : AgentMove)
  | busWrite (addr : Nat) (size : AccSize) (data : Word)
  | busRead (addr : Nat) (size : AccSize)
  | store (addr : BitVec 32) (b : Byte)
  | load (addr : BitVec 32)
  | loadWord (n : BitVec 30)
  | wait (addr : Nat) (bit : Nat)
  | powerOn
  deriving DecidableEq, Repr

/-- System memory (R70): the bytes that differ from what an unlisted address reads as, by rising address. -/
abbrev Memory := List Host.Cell

/-- The state of the machine. `params` are the OPEN parameters (R7). `earlier` is system memory as it stood at each
acceptance of a command since the last DONE, the latest first: until a DONE makes the block's writes visible, a host load
sees each word as memory has it or as one of these does (R83). `duties` are the commands accepted since the host last read
DONE = 1 with BUSY = 0, the latest first: until then the host must not write their regions (R82). The last four fields are
the model's own: `turn`, the worker whose micro-operation is executed; `moves`, the execution's moves still to come, first
one first; `tick`, how many free values were taken; `rdata`, the word the last host read returned. -/
structure State where
  params  : Params
  regs    : Regs
  orch    : Orch
  workers : Workers
  mem     : Memory
  earlier : List Memory
  duties  : List Duty
  turn    : WorkerId
  moves   : List Move
  tick    : Nat
  rdata   : Word
  deriving DecidableEq, Repr

/-- Why the machine stops with a fault. -/
inductive Fault
  /-- A micro-operation or a fill write computes an address of 2^32 or more, which system memory does not have (R70, R75,
  R76). Raised by memRead8 and memWrite32. Safe: no accepted configuration does it (R256), so no run does (log 15). -/
  | outsideMemory
  /-- A nibble code is executed while worker `turn` is not active in a BODY phase. Raised by bodySample. Safe: `step`
  executes a nibble code at a BODY cursor only, so no run does (R26, R138; log 12). -/
  | nibbleOutsideBody
  deriving DecidableEq, Repr

/-- Why the machine refuses a step. -/
inductive Refusal
  /-- An instruction with no meaning in exec yet; used by Machine/Dispatch.lean alone. Safe. -/
  | notModelled (mnemonic : String)
  /-- A host store, while a command runs, into the input region or the output span of that command or of one whose DONE
  the host has not read, which the host must not do (R82) and for which it has no move while BUSY (R204, U6). Raised by
  hostStore. Safe (log 13). -/
  | hostWritesRegionWhileBusy
  deriving DecidableEq, Repr

/-- A ChannelState at reset. DESIGN CHOICE: the spec gives none (R25; log 3). -/
def Chan.reset : Chan := { pred := 0, idx := 0 }

/-- A worker at reset: not active (R26, R281). DESIGN CHOICE: every other field, which the spec leaves unspecified (log 3). -/
def Worker.reset (p : Params) : Worker :=
  { active := false, blk := 0, stop := 0, kind := .stream, obase := 0, phase := .hchk 0,
    cs := List.replicate p.maxChannels Chan.reset }

/-- STATUS at reset (R281). -/
def Status.reset : Status :=
  { busy := false, done := false, err := false, ovr := false, trail := false, drain := false }

/-- The registers at reset, all 0 (R281). -/
def Regs.reset : Regs :=
  { status := Status.reset, irqEn := 0, chCount := 0, blockSize := 0, inBase := 0, inLen := 0, outBase := 0,
    outStride := 0, outLen := 0, blkIndex := 0, outOffset := 0, nextOffset := 0, errInfo := 0, errBlock := 0,
    runInfo := 0 }

/-- The orchestrator at reset: IDLE, nothing latched (R281). DESIGN CHOICE: kind, W and the fill cursor (log 4). -/
def Orch.reset : Orch :=
  { phase := .idle, kind := .stream, w := 0, fillCh := 0, fillI := 0, latched := false }

/-- The machine right after the power-on reset, for any parameters. DESIGN CHOICE: memory holds 0, and no write of
the block is pending (logs 2, 14); the model's own fields (logs 5, 6, 22). -/
def State.resetWith (p : Params) : State :=
  { params := p, regs := Regs.reset, orch := Orch.reset,
    workers := { w0 := Worker.reset p, w1 := Worker.reset p, w2 := Worker.reset p, w3 := Worker.reset p },
    mem := [], earlier := [], duties := [], turn := .w0, moves := [], tick := 0, rdata := 0 }

/-- The machine right after reset in the reference configuration (R7, R281). -/
def State.reset : State := State.resetWith Params.reference

end Sys2Proof.Machine
end

