-- ==== Sys2Proof/Machine/Tables.lean ====
section
/-! DEFINITION. The two constant tables (10_state.md R21 to R23). PRESUMED: the spec marks their contents as general
knowledge, not in the source (logs 7, 8). -/

namespace Sys2Proof

/-- StepTable, 89 entries, indexed 0..88 (R21). -/
def Config.stepTable : List Nat :=
  [7, 8, 9, 10, 11, 12, 13, 14, 16, 17] ++
  [19, 21, 23, 25, 28, 31, 34, 37, 41, 45] ++
  [50, 55, 60, 66, 73, 80, 88, 97, 107, 118] ++
  [130, 143, 157, 173, 190, 209, 230, 253, 279, 307] ++
  [337, 371, 408, 449, 494, 544, 598, 658, 724, 796] ++
  [876, 963, 1060, 1166, 1282, 1411, 1552, 1707, 1878, 2066] ++
  [2272, 2499, 2749, 3024, 3327, 3660, 4026, 4428, 4871, 5358] ++
  [5894, 6484, 7132, 7845, 8630, 9493, 10442, 11487, 12635, 13899] ++
  [15289, 16818, 18500, 20350, 22385, 24623, 27086, 29794, 32767]

/-- IndexTable, 16 entries, indexed 0..15 (R22). -/
def Config.indexTable : List Int :=
  [-1, -1, -1, -1, 2, 4, 6, 8] ++
  [-1, -1, -1, -1, 2, 4, 6, 8]

/-- StepTable[i] (R9). Outside 0..88, which no rule reads, a free value (log 10). -/
def Config.stepAt (i : Nat) : Nat :=
  match Config.stepTable[i]? with
  | some v => v
  | none => (Config.freeStep i).toNat

/-- IndexTable[n & 7], the one read of the table (R133, R136). -/
def Config.indexAt (n : BitVec 4) : Int := Config.indexTable.getD (n.toNat % 8) 0

end Sys2Proof
end

