-- ==== Sys2Proof/Machine/Operands.lean ====
section
/-! DEFINITION. The operands of commands and micro-operations: block shape and partition (30_encoding.md R105,
42_partitioner.md), addresses (20_memory.md R75, R76), the order of one block's micro-operations (41_block_decoder.md
R130), and the acceptance check (60_exceptions.md R256). All on exact numbers (R8). -/

namespace Sys2Proof.Machine

/-! ### The configuration as numbers -/

/-- `C` (R35). -/
def Regs.c (r : Regs) : Nat := r.chCount.toNat

/-- `BS` (R36). -/
def Regs.bs (r : Regs) : Nat := r.blockSize.toNat

/-- `L = IN_LEN` (R38). -/
def Regs.len (r : Regs) : Nat := r.inLen.toNat

/-- W, the worker count a DECODE word asks for: WORKERS, and 0 means W_MAX (R102). -/
def workerCount (workers : BitVec 3) : Nat :=
  if workers = 0 then Config.wMax else workers.toNat

/-- ShapeOK (R105). -/
def shapeOK (p : Params) (r : Regs) : Bool :=
  decide (1 ≤ r.c ∧ r.c ≤ p.maxChannels ∧ 0 < r.bs ∧ r.bs % (4 * r.c) = 0)

/-- chunkCount, the number of groups in a block (R105). -/
def chunkCount (r : Regs) : Nat := (r.bs - 4 * r.c) / (4 * r.c)

/-- SPB, samples per block per channel (R173). -/
def spb (r : Regs) : Nat := 1 + 8 * chunkCount r

/-- BlockCount (R170). -/
def blockCount (r : Regs) : Nat := r.len / r.bs

/-- TotalSamples, the length every channel buffer has for DECODE (R174). -/
def totalSamples (r : Regs) : Nat := 2 * r.len / r.c

/-- `q = ceil(BlockCount / W)` (R175). -/
def rangeSize (blocks w : Nat) : Nat := (blocks + w - 1) / w

/-- `s_i`, the first block of worker `i`'s range (R175). -/
def rangeStart (blocks w i : Nat) : Nat := i * rangeSize blocks w

/-- `e_i`, one past the last block of worker `i`'s range (R175). -/
def rangeEnd (blocks w i : Nat) : Nat := min ((i + 1) * rangeSize blocks w) blocks

/-! ### Addresses and slots -/

/-- Address of byte `j` of block `k` of the input stream, exact (R76). -/
def inAddr (r : Regs) (k j : Nat) : Nat := r.inBase.toNat + k * r.bs + j

/-- `Addr_out(ch, i)`, address of output slot `i` of channel `ch`, exact (R75). -/
def outAddr (r : Regs) (ch i : Nat) : Nat := r.outBase.toNat + 4 * (ch * r.outStride.toNat + i)

/-- OutSpan in samples (R80). -/
def outSpan (r : Regs) : Nat := (r.c - 1) * r.outStride.toNat + r.outLen.toNat

/-- Whether an address lies in the input region InRgn (R80). -/
def inInRgn (r : Regs) (a : Nat) : Bool := decide (r.inBase.toNat ≤ a ∧ a < r.inBase.toNat + r.len)

/-- Whether an address lies in the output span OutRgn (R80). -/
def inOutRgn (r : Regs) (a : Nat) : Bool :=
  decide (r.outBase.toNat ≤ a ∧ a < r.outBase.toNat + 4 * outSpan r)

/-- Whether an address lies in a region the host must not write while it has the duty (R82). -/
def Duty.covers (d : Duty) (a : Nat) : Bool := inInRgn d.regs a || inOutRgn d.regs a

/-- The first output slot of a command in each channel buffer, and how many it has there: all OUT_LEN of a DECODE, and
the SPB of its block for a DECODE_BLOCK (R75, R143, R201). -/
def Duty.slotRange (d : Duty) : Nat × Nat :=
  match d.kind with
  | .stream => (0, d.regs.outLen.toNat)
  | .single => (d.regs.outOffset.toNat, spb d.regs)

/-- The addresses of the output words of a command (R75, R82). -/
def Duty.outputs (d : Duty) : List Nat :=
  (List.range d.regs.c).flatMap fun ch =>
    (List.range d.slotRange.2).map fun i => outAddr d.regs ch (d.slotRange.1 + i)

/-- Block byte `j` of header byte `j` of channel `ch` (R106). -/
def headerByte (ch j : Nat) : Nat := 4 * ch + j

/-- BodyByte(g, ch, b), the block byte of byte `b` of channel `ch` in group `g` (R108). -/
def bodyByte (r : Regs) (g ch b : Nat) : Nat := 4 * r.c + 4 * r.c * g + 4 * ch + b

/-- The output slot of nibble `(g, b, h)` in a block with output base `obase` (R139). -/
def bodySlot (obase g b h : Nat) : Nat := obase + 1 + 8 * g + 2 * b + h

/-! ### The order of micro-operations -/

/-- The phase after a micro-operation of a block with `c` channels and `chunks` groups; `none` when that was the last
micro-operation of the block (R130). -/
def nextPhase (c chunks : Nat) : CursorPhase → Option CursorPhase
  | .hchk ch => some (if ch + 1 < c then .hchk (ch + 1) else .hwr 0)
  | .hwr ch =>
    if ch + 1 < c then some (.hwr (ch + 1))
    else if 0 < chunks then some (.body 0 0 0 0)
    else none
  | .body g ch b h =>
    if h = 0 then some (.body g ch b 1)
    else if b + 1 < 4 then some (.body g ch (b + 1) 0)
    else if ch + 1 < c then some (.body g (ch + 1) 0 0)
    else if g + 1 < chunks then some (.body (g + 1) 0 0 0)
    else none

/-! ### Acceptance -/

/-- CheckConfig (R256): the first test that fails, in the order of the rule, or `none`. -/
def checkConfig (p : Params) (r : Regs) (kind : Kind) : Option ErrCause :=
  if ¬ (1 ≤ r.c ∧ r.c ≤ p.maxChannels) then some ⟨.configError, 1⟩
  else if ¬ (0 < r.bs ∧ r.bs % (4 * r.c) = 0) then some ⟨.configError, 2⟩
  else if ¬ (r.outBase.toNat % 4 = 0) then some ⟨.configError, 3⟩
  else if ¬ (r.c = 1 ∨ r.outLen.toNat ≤ r.outStride.toNat) then some ⟨.configError, 4⟩
  else if kind = .single ∧ ¬ ((r.blkIndex.toNat + 1) * r.bs ≤ r.len) then some ⟨.configError, 5⟩
  else if kind = .stream ∧ ¬ (r.outLen.toNat = totalSamples r) then some ⟨.bufferSizeMismatch, 1⟩
  else if kind = .single ∧ ¬ (r.outOffset.toNat + spb r ≤ r.outLen.toNat) then some ⟨.bufferSizeMismatch, 2⟩
  else if ¬ (r.inBase.toNat + r.len ≤ 2 ^ 32 ∧ r.outBase.toNat + 4 * outSpan r ≤ 2 ^ 32) then
    some ⟨.configError, 6⟩
  else if ¬ (r.len = 0 ∨ outSpan r = 0 ∨ r.inBase.toNat + r.len ≤ r.outBase.toNat ∨
      r.outBase.toNat + 4 * outSpan r ≤ r.inBase.toNat) then some ⟨.configError, 7⟩
  else none

end Sys2Proof.Machine
end

