-- ==== Sys2Proof/Machine/Flags.lean ====
section
/-! DEFINITION. STATUS, ERR_INFO and the interrupt line: the packing of the flag and error registers (10_state.md R33,
R48, R54) and the operations that write flags (44_commands.md R220, R225; 60_exceptions.md R250 to R253, R262). -/

namespace Sys2Proof.Machine

/-- The STATUS word: BUSY 0, DONE 1, ERR 2, OVR 3, TRAIL 4, DRAIN 5 (R33). -/
def Status.toWord (st : Status) : Word :=
  0#26 ++ BitVec.ofBool st.drain ++ BitVec.ofBool st.trail ++ BitVec.ofBool st.ovr ++ BitVec.ofBool st.err ++
    BitVec.ofBool st.done ++ BitVec.ofBool st.busy

/-- ERR_CODE values (R250). -/
def ErrCode.bits : ErrCode → BitVec 4
  | .none => 0x0
  | .malformedBlockHeader => 0x1
  | .bufferSizeMismatch => 0x2
  | .illegalCommand => 0x3
  | .configError => 0x4
  | .aborted => 0x5
  | .busError => 0x6

/-- ERR_INFO of a raised error: `ch << 16 | byte << 8 | sub << 4 | code` (R48, R253). -/
def ErrRec.info (e : ErrRec) : Word := e.ch ++ e.byte ++ e.sub ++ e.code.bits

/-- The DONE_IE enable, IRQ_EN bit 0 (R34). -/
def Regs.doneIe (r : Regs) : Bool := r.irqEn.getLsbD 0

/-- The ERR_IE enable, IRQ_EN bit 1 (R34). -/
def Regs.errIe (r : Regs) : Bool := r.irqEn.getLsbD 1

/-- The interrupt line (R54, R262). -/
def State.irq (s : State) : Bool :=
  (s.regs.status.done && s.regs.doneIe) || (s.regs.status.err && s.regs.errIe)

/-- Input `n` of the platform's interrupt controller, as far as the block drives it: the line goes to IRQ_ROUTE (R262). -/
def State.irqInput (s : State) (n : Nat) : Bool := decide (n = s.params.irqRoute) && s.irq

/-- ClearForStart (R220). -/
def Regs.clearForStart (r : Regs) : Regs :=
  { r with status := { r.status with done := false, err := false, trail := false }, errInfo := 0, errBlock := 0 }

/-- The flags CLEAR writes: DONE, ERR, OVR, TRAIL, ERR_INFO, ERR_BLOCK to 0 (R225). -/
def Regs.clearAll (r : Regs) : Regs :=
  { r with status := { r.status with done := false, err := false, ovr := false, trail := false },
           errInfo := 0, errBlock := 0 }

/-- OVR, set when a word is dropped (R220). -/
def Regs.setOvr (r : Regs) : Regs := { r with status := { r.status with ovr := true } }

/-- An error recorded in ERR_INFO and ERR_BLOCK (R253). -/
def Regs.recordError (r : Regs) (e : ErrRec) : Regs := { r with errInfo := e.info, errBlock := e.blk }

/-- Whether the input stream is not block-aligned: TRAIL of an accepted DECODE (R172, R222). -/
def Regs.hasTrail (r : Regs) : Bool := decide (r.len % r.bs ≠ 0)

end Sys2Proof.Machine
end

