-- ==== Sys2Proof/Machine/Ops.lean ====
section
/-! DEFINITION. The named operations over memory, registers, workers and errors that the meanings share: MemRead8 and
MemWrite32 (20_memory.md R70 to R76, 60_exceptions.md R271), the register window (R28, R29, R51, R77), raising an error
and completing one (43_orchestrator.md R195 to R199, 44_commands.md R229), and reset (70_reset_and_hazards.md R280). -/

namespace Sys2Proof.Machine

/-! ### System memory -/

/-- What an address that memory does not list reads as. DESIGN CHOICE: 0; the spec gives no contents (R281; log 2). -/
def Memory.unlisted : Byte := 0

/-- The size of system memory, 2^32 bytes (R70). -/
def Memory.size : Nat := 4294967296

/-- The byte at an address. -/
def Memory.read : Memory → Nat → Byte
  | [], _ => Memory.unlisted
  | (k, v) :: m, a => if a = k then v else Memory.read m a

/-- Listing a byte at an address, in the place its address has; one that reads as an unlisted byte is not listed. -/
def Memory.cons (a : Nat) (b : Byte) (m : Memory) : Memory :=
  if b = Memory.unlisted then m else (a, b) :: m

/-- Memory with the byte at `a` replaced by `b`, in canonical form. -/
def Memory.write : Memory → Nat → Byte → Memory
  | [], a, b => Memory.cons a b []
  | (k, v) :: m, a, b =>
    if a < k then Memory.cons a b ((k, v) :: m)
    else if a = k then Memory.cons a b m
    else (k, v) :: Memory.write m a b

/-- The canonical form above an address: addresses rising from `lo` on and below 2^32, no byte that reads as unlisted. -/
def Memory.wfFrom : Nat → Memory → Bool
  | _, [] => true
  | lo, (k, v) :: m => decide (lo ≤ k ∧ k < Memory.size ∧ v ≠ Memory.unlisted) && Memory.wfFrom (k + 1) m

/-- The canonical form of memory. -/
def Memory.wf (m : Memory) : Bool := Memory.wfFrom 0 m

/-- MemWrite32 on memory: `w[7:0]` to `a`, up to `w[31:24]` to `a + 3` (R72 (b)). -/
def Memory.write32 (m : Memory) (a : Nat) (w : Word) : Memory :=
  (((m.write a (w.extractLsb' 0 8)).write (a + 1) (w.extractLsb' 8 8)).write (a + 2)
    (w.extractLsb' 16 8)).write (a + 3) (w.extractLsb' 24 8)

/-- The little-endian word at an address (R72 (b)), as the host reads an output slot. -/
def Memory.read32 (m : Memory) (a : Nat) : Word :=
  m.read (a + 3) ++ m.read (a + 2) ++ m.read (a + 1) ++ m.read a

/-- The host's bytes at rising addresses from `a` on, the `MEM` line of a program (R113). -/
def Memory.writeBytes (m : Memory) (a : Nat) : List Byte → Memory
  | [] => m
  | b :: bs => Memory.writeBytes (m.write a b) (a + 1) bs

/-- BusOK(addr, kind): whether the platform answers the access OK (R271). -/
def busOk (p : Params) (a : Nat) (kind : AccessKind) : Bool :=
  !p.busErrors.any fun e => decide (e.kind = kind ∧ e.base ≤ a ∧ a < e.base + e.size)

/-- How a block access to system memory ends: with a value, with the platform's error response, or at an address that
does not exist. -/
inductive Access (α : Type)
  | ok (a : α)
  | busError
  | outside
  deriving Repr

/-- MemRead8 (R9, R271). -/
def memRead8 (s : State) (a : Nat) : Access Byte :=
  if Memory.size ≤ a then .outside
  else if busOk s.params a .read then .ok (s.mem.read a)
  else .busError

/-- MemWrite32 (R9, R72, R74, R271): the four bytes in one step, or none of them. -/
def memWrite32 (s : State) (a : Nat) (w : Word) : Access State :=
  if Memory.size < a + 4 then .outside
  else if busOk s.params a .write then .ok { s with mem := s.mem.write32 a w }
  else .busError

/-- Every write of the block made visible to the host, as the setting of DONE does (R83 (a), (b); log 14). -/
def State.settle (s : State) : State := { s with earlier := [] }

/-- What an acceptance keeps beside the command's own state: memory, as the host may still see it while the command, or one
after it, has not set DONE (R83 (b), (c); log 14), and the host's duty, which starts here (R82; log 37). -/
def State.remember (kind : Kind) (s : State) : State :=
  { s with earlier := s.mem :: s.earlier, duties := { kind := kind, regs := s.regs } :: s.duties }

/-- The memory in which the host's next access sees the aligned word of number `n` (R74, R83): the present one, or, until
a DONE, freely the one of an earlier acceptance. -/
def hostView (s : State) (n : Nat) : Memory :=
  match s.earlier with
  | [] => s.mem
  | m :: ms => (s.mem :: m :: ms).getD (Config.freeSeen s.tick n % (ms.length + 2)) s.mem

/-- The byte at an address as the host's next access sees it (R83). -/
def hostByte (s : State) (a : Nat) : Byte := (hostView s (a / 4)).read a

/-- The aligned word of number `n`, little-endian, as the host's next access sees it (R72 (b), R74, R83). -/
def hostWord (s : State) (n : Nat) : Word := (hostView s n).read32 (4 * n)

/-- Memory in which the words at some addresses are any words (R82; log 37); `k` numbers the choice. -/
def Memory.freeWords (k : Nat) (as : List Nat) (m : Memory) : Memory :=
  as.foldl (fun m a => m.write32 a (Config.freeOutput k a)) m

/-- Whether ERR_INFO and ERR_BLOCK hold the error that the command accepted last recorded: a failed completion, whose code
is none of those an acceptance error has (R250, R256; log 37). -/
def Regs.hasRunError (r : Regs) : Bool :=
  r.status.done && r.status.err && !([0x2#4, 0x3#4, 0x4#4].contains (r.errInfo.extractLsb' 0 4))

/-- Whether a store to an address breaks the duty for the command accepted last. -/
def State.breaksLatest (s : State) (a : Nat) : Bool := (s.duties.take 1).any (·.covers a)

/-- A byte of system memory stored by the host, which the host and the block see at once, whatever earlier memory the host
may see otherwise (R83). -/
def State.storeByte (a : Nat) (b : Byte) (s : State) : State :=
  { s with mem := s.mem.write a b, earlier := s.earlier.map (·.write a b) }

/-- What a host store to an address does to the commands whose duty it breaks (R82; log 37): their output words, and the
error that the latest of them recorded, are any values. DESIGN CHOICE: ERR_INFO is any 32-bit word then (U6), its codes
0x7..0xF and the subcodes R251 does not list not excepted, which the block's own errors never have (R250, U17). -/
def State.breakDuties (a : Nat) (s : State) : State :=
  match s.duties.filter (·.covers a) with
  | [] => s
  | d :: ds =>
    let free := Memory.freeWords s.tick ((d :: ds).flatMap Duty.outputs)
    { s with
      mem := free s.mem
      earlier := s.earlier.map free
      regs :=
        if s.breaksLatest a && s.regs.hasRunError then
          { s.regs with errInfo := Config.freeErrInfo s.tick, errBlock := Config.freeErrBlock s.tick }
        else s.regs
      tick := s.tick + 1 }

/-! ### Workers -/

/-- The number of a worker, 0..3 (R268). -/
def WorkerId.num : WorkerId → Nat
  | .w0 => 0
  | .w1 => 1
  | .w2 => 2
  | .w3 => 3

/-- The workers in order. -/
def WorkerId.all : List WorkerId := [.w0, .w1, .w2, .w3]

/-- One of the four workers. -/
def Workers.get (ws : Workers) : WorkerId → Worker
  | .w0 => ws.w0
  | .w1 => ws.w1
  | .w2 => ws.w2
  | .w3 => ws.w3

/-- The four workers with one replaced. -/
def Workers.set (ws : Workers) (w : WorkerId) (x : Worker) : Workers :=
  match w with
  | .w0 => { ws with w0 := x }
  | .w1 => { ws with w1 := x }
  | .w2 => { ws with w2 := x }
  | .w3 => { ws with w3 := x }

/-- The four workers, each changed by `f`. -/
def Workers.map (ws : Workers) (f : WorkerId → Worker → Worker) : Workers :=
  { w0 := f .w0 ws.w0, w1 := f .w1 ws.w1, w2 := f .w2 ws.w2, w3 := f .w3 ws.w3 }

/-- Worker `w` of the state. -/
def State.worker (s : State) (w : WorkerId) : Worker := s.workers.get w

/-- The state with worker `w` replaced. -/
def State.setWorker (s : State) (w : WorkerId) (x : Worker) : State := { s with workers := s.workers.set w x }

/-- The state with worker `w` not active: a halted or finished worker (R194, R196, R197). -/
def State.haltWorker (s : State) (w : WorkerId) : State := s.setWorker w { s.worker w with active := false }

/-- Whether no worker is active (R195, R198). -/
def State.noneActive (s : State) : Bool :=
  !s.workers.w0.active && !s.workers.w1.active && !s.workers.w2.active && !s.workers.w3.active

/-- `cs[ch]` (R24). -/
def Worker.chan (wk : Worker) (ch : Nat) : Chan := wk.cs.getD ch Chan.reset

/-- `cs[ch] <- x` (R24); the array has MAX_CHANNELS entries and keeps them. -/
def Worker.setChan (wk : Worker) (ch : Nat) (x : Chan) : Worker := { wk with cs := wk.cs.set ch x }

/-- StartBlock(w, k, obase) (R130), on the worker. DESIGN CHOICE: ChannelState, whose value between blocks is unspecified
(R25, U10), keeps what the block before left until the headers load it (log 36). -/
def Worker.startBlock (wk : Worker) (k obase : Nat) : Worker :=
  { wk with blk := BitVec.ofNat 32 k, obase := BitVec.ofNat 32 obase, phase := .hchk 0 }

/-! ### The register window -/

/-- Offset of a register in the window (R28). -/
def regOffset : Reg → Nat
  | .id => 0x00
  | .param => 0x04
  | .cmd => 0x08
  | .status => 0x0C
  | .irqEn => 0x10
  | .chCount => 0x14
  | .blockSize => 0x18
  | .inBase => 0x1C
  | .inLen => 0x20
  | .outBase => 0x24
  | .outStride => 0x28
  | .outLen => 0x2C
  | .blkIndex => 0x30
  | .outOffset => 0x34
  | .nextOffset => 0x38
  | .blockCount => 0x3C
  | .spb => 0x40
  | .totalSamples => 0x44
  | .errInfo => 0x48
  | .errBlock => 0x4C
  | .runInfo => 0x50

/-- The registers in the order of the map (R28). -/
def regAll : List Reg :=
  [.id, .param, .cmd, .status, .irqEn, .chCount, .blockSize, .inBase, .inLen, .outBase, .outStride] ++
  [.outLen, .blkIndex, .outOffset, .nextOffset, .blockCount, .spb, .totalSamples, .errInfo, .errBlock, .runInfo]

/-- The register at an offset of the window; `none` at a reserved or misaligned offset (R28, R77). -/
def regAtOffset (off : Nat) : Option Reg := regAll.find? fun r => decide (regOffset r = off)

/-- The ID constant (R30). -/
def idWord : Word := 0x494D4101

/-- PARAM: MAX_CHANNELS in bits 31:16, OUT_FMT = 1 in bits 7:4, W_MAX in bits 3:0 (R31). -/
def paramWord (p : Params) : Word := BitVec.ofNat 16 p.maxChannels ++ 0#8 ++ 1#4 ++ BitVec.ofNat 4 Config.wMax

/-- The SPB register: the number SPB when ShapeOK holds, else 0 (R46). A number that does not fit the register reads a
free value (log 11). -/
def spbWord (p : Params) (r : Regs) : Word :=
  if shapeOK p r then (if spb r < 2 ^ 32 then BitVec.ofNat 32 (spb r) else Config.freeSpb (spb r)) else 0

/-- What a register reads as (R29 to R50). -/
def readReg (s : State) : Reg → Word
  | .id => idWord
  | .param => paramWord s.params
  | .cmd => 0
  | .status => s.regs.status.toWord
  | .irqEn => s.regs.irqEn.setWidth 32
  | .chCount => s.regs.chCount.setWidth 32
  | .blockSize => s.regs.blockSize
  | .inBase => s.regs.inBase
  | .inLen => s.regs.inLen
  | .outBase => s.regs.outBase
  | .outStride => s.regs.outStride
  | .outLen => s.regs.outLen
  | .blkIndex => s.regs.blkIndex
  | .outOffset => s.regs.outOffset
  | .nextOffset => s.regs.nextOffset
  | .blockCount => if shapeOK s.params s.regs then BitVec.ofNat 32 (blockCount s.regs) else 0
  | .spb => spbWord s.params s.regs
  | .totalSamples => if shapeOK s.params s.regs then BitVec.ofNat 32 (totalSamples s.regs) else 0
  | .errInfo => s.regs.errInfo
  | .errBlock => s.regs.errBlock
  | .runInfo => s.regs.runInfo.setWidth 32

/-- A register that has a configuration lock (R51). -/
def regIsConfig : Reg → Bool
  | .chCount | .blockSize | .inBase | .inLen | .outBase | .outStride | .outLen | .blkIndex | .outOffset => true
  | .id | .param | .cmd | .status | .irqEn | .nextOffset | .blockCount | .spb | .totalSamples => false
  | .errInfo | .errBlock | .runInfo => false

/-- A host write of a register other than CMD, with no lock: RW registers take the bits they have, RO registers ignore it
(R29, R34 to R43). -/
def Regs.write (r : Regs) (v : Word) : Reg → Regs
  | .irqEn => { r with irqEn := v.setWidth 2 }
  | .chCount => { r with chCount := v.setWidth 16 }
  | .blockSize => { r with blockSize := v }
  | .inBase => { r with inBase := v }
  | .inLen => { r with inLen := v }
  | .outBase => { r with outBase := v }
  | .outStride => { r with outStride := v }
  | .outLen => { r with outLen := v }
  | .blkIndex => { r with blkIndex := v }
  | .outOffset => { r with outOffset := v }
  | .id | .param | .cmd | .status | .nextOffset | .blockCount | .spb | .totalSamples => r
  | .errInfo | .errBlock | .runInfo => r

/-- A host write of a register other than CMD: configuration registers keep their value while BUSY (R51). -/
def writeReg (s : State) (reg : Reg) (v : Word) : State :=
  if s.regs.status.busy ∧ regIsConfig reg = true then s else { s with regs := s.regs.write v reg }

/-! ### Errors: taking one, and the completion that ends it -/

/-- A raised run-time error, or an ABORT (R196, R199, R259): the raising worker halts; the first one of a command is
latched and recorded and starts DRAIN; a later one is not recorded. -/
def raiseError (who : Option WorkerId) (e : ErrRec) (s : State) : State :=
  let s := match who with
    | some w => s.haltWorker w
    | none => s
  if s.orch.latched then s
  else
    { s with
      orch := { s.orch with latched := true, phase := .drain }
      regs := { s.regs.recordError e with status := { s.regs.status with drain := true } } }

/-- BUS_ERROR of an input read (subcode 1) or an output or fill write (subcode 2) (R251, R253, R271). -/
def busErrorRec (sub : BitVec 4) (ch : Nat) (blk : Word) : ErrRec :=
  { code := .busError, sub := sub, byte := 0, ch := BitVec.ofNat 16 ch, blk := blk }

/-- MALFORMED_BLOCK_HEADER with the failing header's raw byte, channel and block (R131, R253). -/
def malformedRec (sub : BitVec 4) (byte : Byte) (ch : Nat) (blk : Word) : ErrRec :=
  { code := .malformedBlockHeader, sub := sub, byte := byte, ch := BitVec.ofNat 16 ch, blk := blk }

/-- ABORTED (R199). -/
def abortedRec : ErrRec := { code := .aborted, sub := 0, byte := 0, ch := 0, blk := 0 }

/-- An acceptance error's record: byte, channel and block are 0 (R229, R253). -/
def ErrCause.toRec (c : ErrCause) : ErrRec := { code := c.code, sub := c.sub, byte := 0, ch := 0, blk := 0 }

/-- CompleteErr(code, sub), the completion at acceptance (R229). It sets DONE (R83; log 35). -/
def completeErr (c : ErrCause) (s : State) : State :=
  { s.settle with regs := { s.regs.recordError c.toRec with status := { s.regs.status with done := true, err := true } } }

/-- Completion after an error or abort, the end of DRAIN (R198, R260). It sets DONE (R83). -/
def completeFailed (s : State) : State :=
  { s.settle with
    orch := { s.orch with latched := false, phase := .idle }
    regs := { s.regs with
      status := { s.regs.status with busy := false, drain := false, done := true, err := true } } }

/-- NEXT_OFFSET of a successful completion (R44, R195). -/
def nextOffsetValue (s : State) : Nat :=
  match s.orch.kind with
  | .stream => blockCount s.regs * spb s.regs
  | .single => s.regs.outOffset.toNat + spb s.regs

/-- Successful completion, the join (R195). It sets DONE (R83). -/
def completeOk (s : State) : State :=
  { s.settle with
    orch := { s.orch with phase := .idle }
    regs := { s.regs with
      nextOffset := BitVec.ofNat 32 (nextOffsetValue s)
      status := { s.regs.status with busy := false, done := true } } }

/-! ### Reset -/

/-- The reset of the block, by SOFT_RESET or the power-on input (R226, R280, R281): every worker stops, the orchestrator
is IDLE with nothing latched, every register takes its reset value; memory, the parameters and what the spec leaves
unspecified stay (log 21), and the host need not see the writes of a command that never sets DONE (log 14). -/
def resetBlock (s : State) : State :=
  { s with
    regs := Regs.reset
    orch := { s.orch with phase := .idle, latched := false }
    workers := s.workers.map fun _ wk => { wk with active := false } }

end Sys2Proof.Machine
end

