-- ==== Sys2Proof/Machine/Command.lean ====
section
/-! DEFINITION. The meanings of the six command words (44_commands.md R220 to R229), each with what it does while idle
and while BUSY. -/

namespace Sys2Proof.Machine

/-- A dropped word sets OVR and has no other effect (R220). -/
def dropWord (s : State) : State := { s with regs := s.regs.setOvr }

/-- ClearForStart on the state (R220). -/
def startClear (s : State) : State := { s with regs := s.regs.clearForStart }

/-- An illegal command word (R220, R227): ILLEGAL_COMMAND with its subcode while idle, dropped while BUSY. -/
def illegalCommand (sub : BitVec 4) (s : State) : State :=
  if s.orch.phase = .idle then completeErr ⟨.illegalCommand, sub⟩ (startClear s) else dropWord s

/-- Acceptance of a DECODE whose configuration passes CheckConfig (R222). -/
def acceptDecode (w : Nat) (s : State) : State :=
  { s.remember .stream with
    regs := { s.regs with
      runInfo := BitVec.ofNat 3 w
      status := { s.regs.status with busy := true, trail := s.regs.status.trail || s.regs.hasTrail } }
    orch := { phase := .fill, kind := .stream, w := BitVec.ofNat 3 w, latched := false,
              fillCh := 0, fillI := blockCount s.regs * spb s.regs } }

/-- Acceptance of a DECODE_BLOCK whose configuration passes CheckConfig (R201, R223). -/
def acceptDecodeBlock (s : State) : State :=
  let started : Worker :=
    { s.worker .w0 with
      active := true
      kind := .single
      stop := BitVec.ofNat 33 (s.regs.blkIndex.toNat + 1) }
  { s.remember .single with
    regs := { s.regs with runInfo := 1, status := { s.regs.status with busy := true } }
    orch := { s.orch with phase := .run, kind := .single, w := 1, latched := false }
    workers := s.workers.set .w0 (started.startBlock s.regs.blkIndex.toNat s.regs.outOffset.toNat) }

/-- NOP (R221): no effect, idle or BUSY. -/
def execNop (s : State) : Host.Outcome State Fault Refusal := .next s

/-- DECODE (R222): while BUSY dropped (R220). A WORKERS field above W_MAX makes the word illegal, subcode 3 (R102; log 26). -/
def execDecode (workers : BitVec 3) (s : State) : Host.Outcome State Fault Refusal :=
  if s.orch.phase ≠ .idle then .next (dropWord s)
  else if Config.wMax < workers.toNat then .next (illegalCommand 3 s)
  else
    match checkConfig s.params s.regs .stream with
    | some e => .next (completeErr e (startClear s))
    | none => .next (acceptDecode (workerCount workers) (startClear s))

/-- DECODE_BLOCK (R223): while BUSY dropped (R220). -/
def execDecodeBlock (s : State) : Host.Outcome State Fault Refusal :=
  if s.orch.phase ≠ .idle then .next (dropWord s)
  else
    match checkConfig s.params s.regs .single with
    | some e => .next (completeErr e (startClear s))
    | none => .next (acceptDecodeBlock (startClear s))

/-- ABORT (R199, R224): no effect while idle; while BUSY a raised error ABORTED with no halting worker. -/
def execAbort (s : State) : Host.Outcome State Fault Refusal :=
  if s.orch.phase = .idle then .next s else .next (raiseError none abortedRec s)

/-- CLEAR (R225): while BUSY dropped (R220). -/
def execClear (s : State) : Host.Outcome State Fault Refusal :=
  if s.orch.phase ≠ .idle then .next (dropWord s) else .next { s with regs := s.regs.clearAll }

/-- SOFT_RESET (R226), idle or BUSY. -/
def execSoftReset (s : State) : Host.Outcome State Fault Refusal := .next (resetBlock s)

end Sys2Proof.Machine
end

