-- ==== Sys2Proof/Machine/Nibble.lean ====
section
/-! DEFINITION. The predictor and step-index update pipeline NIBBLE_STEP, a pure function (41_block_decoder.md R133 to
R136). All sums are exact; only the clamped results have a width. -/

namespace Sys2Proof.Machine

/-- clamp(v, lo, hi) (R8). -/
def clampInt (v lo hi : Int) : Int := min (max v lo) hi

/-- The magnitude of the delta: the separately shifted terms that the bits of `M = n[2:0]` select (R110, R133). -/
def nibbleMag (n : BitVec 4) (step : Nat) : Nat :=
  step / 8 + (if n.getLsbD 0 then step / 4 else 0) + (if n.getLsbD 1 then step / 2 else 0) +
    (if n.getLsbD 2 then step else 0)

/-- The signed delta: bit 3 negates (R110, R133). -/
def nibbleDelta (n : BitVec 4) (step : Nat) : Int :=
  if n.getLsbD 3 then -(nibbleMag n step : Int) else (nibbleMag n step : Int)

/-- pred' before its width: the clamp of the exact sum (R133, R135). -/
def nextPred (n : BitVec 4) (pred : Int) (step : Nat) : Int :=
  clampInt (pred + nibbleDelta n step) (-32768) 32767

/-- idx' before its width (R133, R136). -/
def nextIdx (n : BitVec 4) (idx : Nat) : Int := clampInt (idx + Config.indexAt n) 0 88

/-- NIBBLE_STEP(n, pred, idx) (R133). -/
def nibbleStep (n : BitVec 4) (c : Chan) : Chan :=
  { pred := BitVec.ofInt 16 (nextPred n c.pred.toInt (Config.stepAt c.idx.toNat))
    idx := BitVec.ofInt 7 (nextIdx n c.idx.toNat) }

end Sys2Proof.Machine
end

