-- ==== Sys2Proof/Machine/Norm.lean ====
section
/-! DEFINITION. The sample normalization engine (41_block_decoder.md R137): the binary32 word of p / 32767, rounded to
nearest, ties to even. PRESUMED: the spec marks RNE32 and the binary32 layout as general knowledge (log 9). -/

namespace Sys2Proof.Machine

/-- The quotient rounded to the nearest integer, ties to even (R9). -/
def roundEven (n d : Nat) : Nat :=
  if 2 * (n % d) < d then n / d
  else if d < 2 * (n % d) then n / d + 1
  else n / d + (n / d) % 2

/-- The least `k` from the given one on, at most `fuel` further, with `2^23 ≤ a * 2^k / 32767`: the shift that gives the
quotient `a / 32767` a significand of 24 bits. -/
def normShift (a : Nat) : Nat → Nat → Nat
  | 0, k => k
  | fuel + 1, k => if 32767 * 2 ^ 23 ≤ a * 2 ^ k then k else normShift a fuel (k + 1)

/-- The word of `a / 32767` for `a` in 1..32768: biased exponent `150 - k` above the 23 fraction bits of the rounded
significand, whose leading 1 is hidden; a significand that rounds up to 2^24 carries into the exponent. -/
def normMag (a : Nat) : Nat :=
  (150 - normShift a 15 23) * 2 ^ 23 + (roundEven (a * 2 ^ normShift a 15 23) 32767 - 2 ^ 23)

/-- Norm(p) (R137): +0.0 for 0, else the sign in bit 31 and the word of the magnitude. -/
def normWord (p : BitVec 16) : Word :=
  if p = 0 then 0
  else BitVec.ofNat 32 ((if p.toInt < 0 then 2 ^ 31 else 0) + normMag p.toInt.natAbs)

end Sys2Proof.Machine
end

