-- ==== Sys2Proof/Machine/Worker.lean ====
section
/-! DEFINITION. The micro-operations of a worker (41_block_decoder.md R130 to R132, R138) and the block end
(43_orchestrator.md R194). -/

namespace Sys2Proof.Machine

/-- The block end (R194): the next block of a STREAM range starts in the same step, else the worker stops. -/
def blockEnd (r : Regs) (wk : Worker) : Worker :=
  if wk.kind = .stream ∧ wk.blk.toNat + 1 < wk.stop.toNat then
    wk.startBlock (wk.blk.toNat + 1) ((wk.blk.toNat + 1) * spb r)
  else { wk with active := false }

/-- The cursor after a micro-operation: the successor in the order of R130, or the block end. -/
def advanceWorker (r : Regs) (wk : Worker) : Worker :=
  match nextPhase r.c (chunkCount r) wk.phase with
  | some ph => { wk with phase := ph }
  | none => blockEnd r wk

/-- Worker `w`'s cursor advanced. -/
def advance (w : WorkerId) (s : State) : State := s.setWorker w (advanceWorker s.regs (s.worker w))

/-- Output slot `i` of channel `ch` written by worker `w`, and its cursor advanced; an error response raises
BUS_ERROR subcode 2 instead (R75, R132, R138, R271). -/
def writeSample (w : WorkerId) (ch i : Nat) (word : Word) (s : State) : Host.Outcome State Fault Refusal :=
  match memWrite32 s (outAddr s.regs ch i) word with
  | .ok s' => .next (advance w s')
  | .busError => .next (raiseError (some w) (busErrorRec 2 ch (s.worker w).blk) s)
  | .outside => .fault .outsideMemory

/-- The test and load of HDR_CHECK(ch) on the four header bytes (R107, R131): the step-index test comes first. -/
def checkHeader (w : WorkerId) (ch : Nat) (h0 h1 h2 h3 : Byte) (s : State) : State :=
  if 88 < h2.toNat then raiseError (some w) (malformedRec 1 h2 ch (s.worker w).blk) s
  else if h3 ≠ 0 then raiseError (some w) (malformedRec 2 h3 ch (s.worker w).blk) s
  else advance w (s.setWorker w ((s.worker w).setChan ch { pred := h1 ++ h0, idx := h2.setWidth 7 }))

/-- Byte `j` of channel `ch`'s header in the block worker `w` decodes (R76, R106). -/
def readHeaderByte (s : State) (w : WorkerId) (ch j : Nat) : Access Byte :=
  memRead8 s (inAddr s.regs (s.worker w).blk.toNat (headerByte ch j))

/-- HDR_CHECK(ch) (R131): the four reads, each of which may get an error response (R271), then the tests and the load. -/
def hdrCheck (w : WorkerId) (ch : Nat) (s : State) : Host.Outcome State Fault Refusal :=
  match readHeaderByte s w ch 0, readHeaderByte s w ch 1, readHeaderByte s w ch 2, readHeaderByte s w ch 3 with
  | .ok h0, .ok h1, .ok h2, .ok h3 => .next (checkHeader w ch h0 h1 h2 h3 s)
  | .outside, _, _, _ => .fault .outsideMemory
  | _, .outside, _, _ => .fault .outsideMemory
  | _, _, .outside, _ => .fault .outsideMemory
  | _, _, _, .outside => .fault .outsideMemory
  | _, _, _, _ => .next (raiseError (some w) (busErrorRec 1 ch (s.worker w).blk) s)

/-- HDR_WRITE(ch) (R132): the header sample, exactly the header's predictor normalized. -/
def hdrWrite (w : WorkerId) (ch : Nat) (s : State) : Host.Outcome State Fault Refusal :=
  writeSample w ch (s.worker w).obase.toNat (normWord ((s.worker w).chan ch).pred) s

/-- Channel `ch` of worker `w` updated by one nibble (R133, R138). -/
def stepChan (w : WorkerId) (ch : Nat) (n : BitVec 4) (s : State) : State :=
  s.setWorker w ((s.worker w).setChan ch (nibbleStep n ((s.worker w).chan ch)))

/-- BODY_SAMPLE(g, ch, b, h) of worker `turn` on nibble `n` (R138), whatever the bit pattern: NIBBLE_STEP, the output
slot, the successor. The byte the nibble is in was read when the nibble was fetched. -/
def bodySample (n : BitVec 4) (s : State) : Host.Outcome State Fault Refusal :=
  match (s.worker s.turn).active, (s.worker s.turn).phase with
  | true, .body g ch b h =>
    writeSample s.turn ch (bodySlot (s.worker s.turn).obase.toNat g b h)
      (normWord (nibbleStep n ((s.worker s.turn).chan ch)).pred) (stepChan s.turn ch n s)
  | _, _ => .fault .nibbleOutsideBody

/-- The byte that holds the nibble at a BODY cursor (R108, R138). -/
def readBodyByte (s : State) (w : WorkerId) (g ch b : Nat) : Access Byte :=
  memRead8 s (inAddr s.regs (s.worker w).blk.toNat (bodyByte s.regs g ch b))

end Sys2Proof.Machine
end

