-- ==== Sys2Proof/Machine/NibbleCodes.lean ====
section
/-! DEFINITION. The meanings of the sixteen nibble codes (30_encoding.md R110): each is BODY_SAMPLE (41_block_decoder.md
R138) with its own code, for the worker whose micro-operation is executed. -/

namespace Sys2Proof.Machine

/-- NIB_0_POS_M0: delta step>>3, index -1 (R110, R133, R138). -/
def execNib0 (s : State) : Host.Outcome State Fault Refusal := bodySample 0x0#4 s

/-- NIB_1_POS_M1: delta step>>3 + step>>2, index -1 (R110, R133, R138). -/
def execNib1 (s : State) : Host.Outcome State Fault Refusal := bodySample 0x1#4 s

/-- NIB_2_POS_M2: delta step>>3 + step>>1, index -1 (R110, R133, R138). -/
def execNib2 (s : State) : Host.Outcome State Fault Refusal := bodySample 0x2#4 s

/-- NIB_3_POS_M3: delta step>>3 + step>>2 + step>>1, index -1 (R110, R133, R138). -/
def execNib3 (s : State) : Host.Outcome State Fault Refusal := bodySample 0x3#4 s

/-- NIB_4_POS_M4: delta step>>3 + step, index +2 (R110, R133, R138). -/
def execNib4 (s : State) : Host.Outcome State Fault Refusal := bodySample 0x4#4 s

/-- NIB_5_POS_M5: delta step>>3 + step>>2 + step, index +4 (R110, R133, R138). -/
def execNib5 (s : State) : Host.Outcome State Fault Refusal := bodySample 0x5#4 s

/-- NIB_6_POS_M6: delta step>>3 + step>>1 + step, index +6 (R110, R133, R138). -/
def execNib6 (s : State) : Host.Outcome State Fault Refusal := bodySample 0x6#4 s

/-- NIB_7_POS_M7: delta step>>3 + step>>2 + step>>1 + step, index +8 (R110, R133, R138). -/
def execNib7 (s : State) : Host.Outcome State Fault Refusal := bodySample 0x7#4 s

/-- NIB_8_NEG_M0: delta -(step>>3), index -1 (R110, R133, R138). -/
def execNib8 (s : State) : Host.Outcome State Fault Refusal := bodySample 0x8#4 s

/-- NIB_9_NEG_M1: delta -(step>>3 + step>>2), index -1 (R110, R133, R138). -/
def execNib9 (s : State) : Host.Outcome State Fault Refusal := bodySample 0x9#4 s

/-- NIB_A_NEG_M2: delta -(step>>3 + step>>1), index -1 (R110, R133, R138). -/
def execNibA (s : State) : Host.Outcome State Fault Refusal := bodySample 0xA#4 s

/-- NIB_B_NEG_M3: delta -(step>>3 + step>>2 + step>>1), index -1 (R110, R133, R138). -/
def execNibB (s : State) : Host.Outcome State Fault Refusal := bodySample 0xB#4 s

/-- NIB_C_NEG_M4: delta -(step>>3 + step), index +2 (R110, R133, R138). -/
def execNibC (s : State) : Host.Outcome State Fault Refusal := bodySample 0xC#4 s

/-- NIB_D_NEG_M5: delta -(step>>3 + step>>2 + step), index +4 (R110, R133, R138). -/
def execNibD (s : State) : Host.Outcome State Fault Refusal := bodySample 0xD#4 s

/-- NIB_E_NEG_M6: delta -(step>>3 + step>>1 + step), index +6 (R110, R133, R138). -/
def execNibE (s : State) : Host.Outcome State Fault Refusal := bodySample 0xE#4 s

/-- NIB_F_NEG_M7: delta -(step>>3 + step>>2 + step>>1 + step), index +8 (R110, R133, R138). -/
def execNibF (s : State) : Host.Outcome State Fault Refusal := bodySample 0xF#4 s

end Sys2Proof.Machine
end

