-- ==== Sys2Proof/Machine/Orchestrator.lean ====
section
/-! DEFINITION. The orchestrator's steps while a command runs: fill, dispatch, completion (43_orchestrator.md R191 to
R198), and the halt of a worker in DRAIN (R197). -/

namespace Sys2Proof.Machine

/-- Whether the fill cursor is at a tail slot that is still to be written (R178, R191). -/
def fillPending (s : State) : Bool :=
  decide (s.orch.fillCh < s.regs.c ∧ s.orch.fillI < totalSamples s.regs)

/-- The fill cursor after a fill write: the next slot of the channel, else the first tail slot of the next channel
(R191). -/
def advanceFill (r : Regs) (o : Orch) : Orch :=
  if o.fillI + 1 < totalSamples r then { o with fillI := o.fillI + 1 }
  else { o with fillCh := o.fillCh + 1, fillI := blockCount r * spb r }

/-- One fill write: +0.0 to the tail slot at the cursor; an error response raises BUS_ERROR subcode 2 with block
0xFFFFFFFF (R191, R271). -/
def fillWrite (s : State) : Host.Outcome State Fault Refusal :=
  match memWrite32 s (outAddr s.regs s.orch.fillCh s.orch.fillI) 0 with
  | .ok s' => .next { s' with orch := advanceFill s'.regs s'.orch }
  | .busError => .next (raiseError none (busErrorRec 2 s.orch.fillCh 0xFFFFFFFF) s)
  | .outside => .fault .outsideMemory

/-- Worker number `i` at dispatch: started on its range if it is not empty (R175, R192). -/
def dispatchWorker (r : Regs) (w i : Nat) (wk : Worker) : Worker :=
  if i < w ∧ rangeStart (blockCount r) w i < rangeEnd (blockCount r) w i then
    { wk with
      active := true
      kind := .stream
      stop := BitVec.ofNat 33 (rangeEnd (blockCount r) w i) }.startBlock
        (rangeStart (blockCount r) w i) (rangeStart (blockCount r) w i * spb r)
  else wk

/-- DISPATCH (R192). -/
def dispatch (s : State) : State :=
  { s with
    workers := s.workers.map fun w wk => dispatchWorker s.regs s.orch.w.toNat w.num wk
    orch := { s.orch with phase := .run } }

/-- Whether the orchestrator has an enabled step (R191, R193, R195, R197, R198). -/
def orchEnabled (s : State) : Bool :=
  match s.orch.phase with
  | .idle => false
  | .fill => true
  | .run => s.noneActive && !s.orch.latched
  | .drain => s.noneActive

/-- The orchestrator's step: a fill write, DISPATCH when the tail is written, or a completion. One that is not enabled
changes nothing (log 19). -/
def orchStep (s : State) : Host.Outcome State Fault Refusal :=
  if orchEnabled s then
    match s.orch.phase with
    | .idle => .next s
    | .fill => if fillPending s then fillWrite s else .next (dispatch s)
    | .run => .next (completeOk s)
    | .drain => .next (completeFailed s)
  else .next s

/-- Whether worker `w` has an enabled micro-operation (R193, R197). -/
def microEnabled (s : State) (w : WorkerId) : Bool :=
  (s.worker w).active && (decide (s.orch.phase = .run) || decide (s.orch.phase = .drain))

/-- Whether worker `w` has an enabled halt step (R197). -/
def haltEnabled (s : State) (w : WorkerId) : Bool :=
  (s.worker w).active && decide (s.orch.phase = .drain)

/-- The halt step of worker `w` (R197). One that is not enabled changes nothing (log 19). -/
def haltStep (w : WorkerId) (s : State) : State :=
  if haltEnabled s w then s.haltWorker w else s

end Sys2Proof.Machine
end

