-- ==== Sys2Proof/Machine/Intake.lean ====
section
/-! DEFINITION. What one move does (00_scope.md R10): command intake (44_commands.md R220), host accesses to the register
window (20_memory.md R77) and to system memory (R82, R83), the steps of the agents, and the free choice among them. -/

namespace Sys2Proof.Machine

/-! ### The host -/

/-- Command intake (R220): a legal word is executed in this step, an illegal one completes or is dropped. -/
def takeCommand (cw : Word) (s : State) : Host.Outcome State Fault Refusal :=
  match decodeCmd cw with
  | .instr i => exec i s
  | .illegal e => .next (illegalCommand e.sub s)

/-- The offset of a host-bus address in the window of 128 bytes; `none` outside it (R70 (a), R28). -/
def windowOffset (p : Params) (addr : Nat) : Option Nat :=
  if p.regBase ≤ addr ∧ addr < p.regBase + 128 then some (addr - p.regBase) else none

/-- A host write on the bus (R77): an aligned 32-bit write of CMD is a command, of another register an update; every
other write to the window is ignored, and one outside it is not the block's (log 29). -/
def busWrite (addr : Nat) (size : AccSize) (data : Word) (s : State) : Host.Outcome State Fault Refusal :=
  match windowOffset s.params addr, size with
  | some off, .word =>
    match regAtOffset off with
    | some .cmd => takeCommand data s
    | some r => .next (writeReg s r data)
    | none => .next s
  | _, _ => .next s

/-- What a host read of the window returns: the register at an aligned 32-bit read, else 0 (R77). -/
def windowRead (s : State) (off : Nat) (size : AccSize) : Word :=
  match size, regAtOffset off with
  | .word, some r => readReg s r
  | _, _ => 0

/-- Whether a host read of the bus reads STATUS with DONE = 1 and BUSY = 0 (R82). -/
def readsDone (addr : Nat) (size : AccSize) (s : State) : Bool :=
  decide (size = .word ∧ windowOffset s.params addr = some (regOffset .status)) && s.regs.status.done &&
    !s.regs.status.busy

/-- The host's side of a read of the bus: one that reads STATUS with DONE = 1 and BUSY = 0 ends its duties (R82). -/
def acknowledge (addr : Nat) (size : AccSize) (s : State) : State :=
  if readsDone addr size s then { s with duties := [] } else s

/-- A host read on the bus: the returned word goes to `rdata`, and the host has read it; no state of the block changes
(R77 (d)). -/
def busRead (addr : Nat) (size : AccSize) (s : State) : State :=
  match windowOffset s.params addr with
  | some off => { acknowledge addr size s with rdata := windowRead s off size }
  | none => s

/-- Whether the host has no store to an address: a command runs, and the address is in its input region or output span, or
in one of a command whose DONE the host has not read (R82, R204, U6; log 13). -/
def storeForbidden (s : State) (a : Nat) : Bool :=
  decide (s.orch.phase ≠ .idle) && (inInRgn s.regs a || inOutRgn s.regs a || s.duties.any (·.covers a))

/-- A host store of one byte of system memory (R20, R283); its width is the model's choice (log 34). Once the block is IDLE
one that breaks the host's duty happens too, and leaves the output words and the recorded error of the commands
concerned any values (R82; log 37). -/
def hostStore (addr : BitVec 32) (b : Byte) (s : State) : Host.Outcome State Fault Refusal :=
  if storeForbidden s addr.toNat then .refused .hostWritesRegionWhileBusy
  else .next ((s.storeByte addr.toNat b).breakDuties addr.toNat)

/-- A host load of one byte of system memory into `rdata` (R83; logs 22, 34). -/
def hostLoad (addr : BitVec 32) (s : State) : State :=
  { s with rdata := (hostByte s addr.toNat).setWidth 32, tick := s.tick + 1 }

/-- A host load of one aligned word of system memory into `rdata` (R74, R83; logs 22, 34). -/
def hostLoadWord (n : BitVec 30) (s : State) : State :=
  { s with rdata := hostWord s n.toNat, tick := s.tick + 1 }

/-! ### The agents of the block -/

/-- Worker `w`'s next micro-operation (R130, R193): HDR_CHECK, HDR_WRITE, or the nibble code its BODY cursor is at,
fetched from its byte (R109, R138) and executed. One that is not enabled changes nothing (log 19). -/
def microStep (w : WorkerId) (s : State) : Host.Outcome State Fault Refusal :=
  if microEnabled s w then
    match (s.worker w).phase with
    | .hchk ch => hdrCheck w ch { s with turn := w }
    | .hwr ch => hdrWrite w ch { s with turn := w }
    | .body g ch b h =>
      match readBodyByte s w g ch b with
      | .ok x => exec (decodeNibble (nibbleOf x h)) { s with turn := w }
      | .busError => .next (raiseError (some w) (busErrorRec 1 ch (s.worker w).blk) { s with turn := w })
      | .outside => .fault .outsideMemory
  else .next s

/-- One step of an agent of the block. -/
def agentStep (a : AgentMove) (s : State) : Host.Outcome State Fault Refusal :=
  match a with
  | .orch => orchStep s
  | .micro w => microStep w s
  | .halt w => .next (haltStep w s)

/-- The steps the agents of the block have enabled (R193, R197). -/
def enabledMoves (s : State) : List AgentMove :=
  (if orchEnabled s then [.orch] else []) ++
    WorkerId.all.flatMap fun w =>
      (if microEnabled s w then [.micro w] else []) ++ (if haltEnabled s w then [.halt w] else [])

/-- A step of the block on its own: the enabled one, a free choice among several (log 5), and no change when none is
enabled (R270; log 20). -/
def freeStep (s : State) : Host.Outcome State Fault Refusal :=
  match enabledMoves s with
  | [] => .next s
  | [a] => agentStep a s
  | a :: b :: rest =>
    agentStep ((a :: b :: rest).getD (Config.freeChoice s.tick % (rest.length + 2)) a) { s with tick := s.tick + 1 }

/-- The host's polling loop (R114): done when the bit reads 1; until then the host has read the
register, the block steps on its own and the loop stays (log 28). -/
def waitStep (addr bit : Nat) (s : State) : Host.Outcome State Fault Refusal :=
  if (busRead addr .word { s with rdata := 0 }).rdata.getLsbD bit then .next (busRead addr .word s)
  else freeStep { acknowledge addr .word s with moves := .wait addr bit :: s.moves }

/-- What one move does. -/
def runMove (m : Move) (s : State) : Host.Outcome State Fault Refusal :=
  match m with
  | .agent a => agentStep a s
  | .busWrite addr size data => busWrite addr size data s
  | .busRead addr size => .next (busRead addr size s)
  | .store addr b => hostStore addr b s
  | .load addr => .next (hostLoad addr s)
  | .loadWord n => .next (hostLoadWord n s)
  | .wait addr bit => waitStep addr bit s
  | .powerOn => .next (resetBlock s)

/-! ### Host programs -/

/-- A host write of an aligned 32-bit word to a register, as the first host move (R113). -/
def regWrite (p : Params) (r : Reg) (v : Word) : Move := .busWrite (p.regBase + regOffset r) .word v

/-- The moves of one line of a host program (R113, R114); a MEM line is start state and no move. A nibble code is no
host instruction. -/
def lineMoves (p : Params) : HostLine → List Move
  | .mem _ _ => []
  | .wr r v => [regWrite p r v]
  | .rd r => [.busRead (p.regBase + regOffset r) .word]
  | .instr i =>
    match encode i with
    | .cmd w => [regWrite p .cmd w]
    | .nibble _ => []
  | .wait r bit => [.wait (p.regBase + regOffset r) bit]

/-- A program's encoding: the (offset, value) pairs of its writes (R114). -/
def lineEncoding : HostLine → List (Nat × Word)
  | .wr r v => [(regOffset r, v)]
  | .instr i =>
    match encode i with
    | .cmd w => [(regOffset .cmd, w)]
    | .nibble _ => []
  | .mem _ _ | .rd _ | .wait _ _ => []

/-- The bytes a line puts in memory before the program starts (R113). -/
def lineMem (m : Memory) : HostLine → Memory
  | .mem a bs => m.writeBytes a bs
  | .wr _ _ | .rd _ | .instr _ | .wait _ _ => m

/-- A program placed in a state: its MEM lines in memory, its accesses as the moves to come (R113). -/
def loadProgram (prog : List HostLine) (s : State) : State :=
  { s with
    mem := prog.foldl lineMem s.mem
    earlier := s.earlier.map fun m => prog.foldl lineMem m
    moves := prog.flatMap (lineMoves s.params) }

end Sys2Proof.Machine
end

