-- ==== Sys2Proof/Machine/Step.lean ====
section
/-! DEFINITION. One step of the machine, and the placing of one instruction where the next step fetches it. -/

namespace Sys2Proof.Machine

/-- One step (R10): the first of the state's moves; when there is none, the block steps on its own. -/
def step (s : State) : Host.Outcome State Fault Refusal :=
  match s.moves with
  | [] => freeStep s
  | m :: rest => runMove m { s with moves := rest }

/-- The byte address of the nibble that `State.atNibble` places: byte 4 of block 0, after one 4-byte header. -/
def State.nibbleAddr : Nat := 4

/-- A running DECODE_BLOCK of one mono block of 8 bytes at address 0, with worker 0 at BODY(0, 0, 0, 0) and the body byte
`x` there, and that worker to move next: what it takes for the next step to fetch and execute the low nibble of `x`. -/
def State.atNibble (s : State) (x : Byte) : State :=
  { s with
    params := { s.params with busErrors := [] }
    regs := { s.regs with
      status := { s.regs.status with busy := true, done := false, err := false, drain := false }
      chCount := 1, blockSize := 8, inBase := 0, inLen := 8, outBase := 16, outStride := 0, outLen := 16
      blkIndex := 0, outOffset := 0, errInfo := 0, errBlock := 0 }
    orch := { s.orch with phase := .run, kind := .single, w := 1, latched := false }
    workers := { s.workers.map (fun _ wk => { wk with active := false }) with
      w0 := { s.workers.w0 with
        active := true, blk := 0, stop := 1, kind := .single, obase := 0, phase := .body 0 0 0 0 } }
    mem := s.mem.write State.nibbleAddr x
    earlier := s.earlier.map (·.write State.nibbleAddr x)
    moves := .agent (.micro .w0) :: s.moves }

/-- The state with one instruction where the next step fetches it: a command word as the host's next write to CMD, a
nibble code as the low nibble of the body byte at the cursor of the worker that moves next (log 23). -/
def State.withFetchWord (s : State) (nbits w : Nat) : State :=
  if nbits ≤ 8 then s.atNibble (BitVec.ofNat 8 w)
  else { s with moves := regWrite s.params .cmd (BitVec.ofNat 32 w) :: s.moves }

end Sys2Proof.Machine
end

