-- ==== Sys2Proof/Machine/BlockFunction.lean ====
section
/-! DEFINITION. The block as a pure function of its bytes (41_block_decoder.md R141): the header of each channel, and the
ChannelState after each nibble of the channel, in (g, b, h) order. The worker's steps are its step-wise execution. -/

namespace Sys2Proof.Machine

/-- IN(k, j), read from memory (R76). -/
def inByte (m : Memory) (r : Regs) (k j : Nat) : Byte := m.read (inAddr r k j)

/-- What HDR_CHECK loads from channel `ch`'s header in block `k` (R107, R131). -/
def headerChan (m : Memory) (r : Regs) (k ch : Nat) : Chan :=
  { pred := inByte m r k (headerByte ch 1) ++ inByte m r k (headerByte ch 0)
    idx := (inByte m r k (headerByte ch 2)).setWidth 7 }

/-- The subcode and byte a header is refused with; `none` when it is valid (R107, R131). -/
def headerFault (m : Memory) (r : Regs) (k ch : Nat) : Option (BitVec 4 × Byte) :=
  if 88 < (inByte m r k (headerByte ch 2)).toNat then some (1, inByte m r k (headerByte ch 2))
  else if inByte m r k (headerByte ch 3) ≠ 0 then some (2, inByte m r k (headerByte ch 3))
  else none

/-- The `t`-th nibble of channel `ch` in block `k`, in (g, b, h) order: `g = t / 8`, `b = t % 8 / 2`, `h = t % 2`
(R108, R109, R139). -/
def nibbleAt (m : Memory) (r : Regs) (k ch t : Nat) : BitVec 4 :=
  nibbleOf (inByte m r k (bodyByte r (t / 8) ch (t % 8 / 2))) (t % 2)

/-- Channel `ch`'s state in block `k` after `t` nibbles (R133, R141). -/
def chanAfter (m : Memory) (r : Regs) (k ch : Nat) : Nat → Chan
  | 0 => headerChan m r k ch
  | t + 1 => nibbleStep (nibbleAt m r k ch t) (chanAfter m r k ch t)

/-- The word of position `i` of channel `ch` in block `k` (R132, R138, R141). -/
def blockWord (m : Memory) (r : Regs) (k ch i : Nat) : Word := normWord (chanAfter m r k ch i).pred

/-- The first channel of block `k` with an invalid header, with its subcode and byte: `Err(sub, byte, ch)` of R141;
`none` when the block decodes. -/
def blockFault (m : Memory) (r : Regs) (k : Nat) : Option (Nat × BitVec 4 × Byte) :=
  (List.range r.c).findSome? fun ch => (headerFault m r k ch).map fun e => (ch, e)

/-- DecodeBlock (R141): the error, or for each channel the words of its SPB positions. -/
def decodeBlock (m : Memory) (r : Regs) (k : Nat) : Except (Nat × BitVec 4 × Byte) (List (List Word)) :=
  match blockFault m r k with
  | some e => .error e
  | none => .ok ((List.range r.c).map fun ch => (List.range (spb r)).map fun i => blockWord m r k ch i)

/-- The word in output slot `i` of channel `ch` (R75). -/
def slotWord (m : Memory) (r : Regs) (ch i : Nat) : Word := m.read32 (outAddr r ch i)

/-- What a successful DECODE leaves in slot `i` of channel `ch` (R202). -/
def streamWord (m : Memory) (r : Regs) (ch i : Nat) : Word :=
  if i < blockCount r * spb r then blockWord m r (i / spb r) ch (i % spb r) else 0

end Sys2Proof.Machine
end

