-- ==== Sys2Proof/Safety.lean ====
section
/-! DEFINITION. The terms claims are stated in: the invariant of the machine, what an agent has written so far, and what
is left to do. -/

namespace Sys2Proof.Machine

/-- The ranges of a worker's ChannelState (R24, R144): MAX_CHANNELS entries, every step index in 0..88. -/
def Worker.csOk (p : Params) (wk : Worker) : Prop :=
  wk.cs.length = p.maxChannels ∧ ∀ c ∈ wk.cs, c.idx.toNat ≤ 88

/-- The ranges of a cursor (R26), for `c` channels and `chunks` groups. -/
def CursorPhase.ok (c chunks : Nat) : CursorPhase → Prop
  | .hchk ch => ch < c
  | .hwr ch => ch < c
  | .body g ch b h => g < chunks ∧ ch < c ∧ b < 4 ∧ h < 2

/-- The range of an active worker (R175, R192, R194, R201): in a DECODE its own contiguous range of blocks, each at output
base `k * SPB`; in a DECODE_BLOCK worker 0 and the one block at OUT_OFFSET. -/
def Worker.rangeOk (r : Regs) (o : Orch) (w : WorkerId) (wk : Worker) : Prop :=
  match o.kind with
  | .stream =>
    w.num < o.w.toNat ∧ rangeStart (blockCount r) o.w.toNat w.num ≤ wk.blk.toNat ∧
    wk.blk.toNat < rangeEnd (blockCount r) o.w.toNat w.num ∧
    wk.stop.toNat = rangeEnd (blockCount r) o.w.toNat w.num ∧ wk.obase.toNat = wk.blk.toNat * spb r
  | .single =>
    w = .w0 ∧ wk.blk = r.blkIndex ∧ wk.stop.toNat = r.blkIndex.toNat + 1 ∧ wk.obase = r.outOffset

/-- What holds of an active worker: the command's kind, a cursor in range, a block in range. -/
def Worker.activeOk (r : Regs) (o : Orch) (w : WorkerId) (wk : Worker) : Prop :=
  wk.kind = o.kind ∧ wk.phase.ok r.c (chunkCount r) ∧ wk.rangeOk r o w

/-- The invariant of the machine: what holds after reset and after every step. -/
structure Inv (s : State) : Prop where
  /-- memory is in its canonical form -/
  memWf : s.mem.wf = true
  /-- so is every earlier memory the host may see -/
  earlierWf : ∀ m ∈ s.earlier, m.wf = true
  /-- with DONE set the host sees every write of the block (R83) -/
  doneSettled : s.regs.status.done = true → s.earlier = []
  /-- the host has duties for accepted commands only (R82, R256) -/
  dutiesOk : ∀ d ∈ s.duties, checkConfig s.params d.regs d.kind = none
  /-- the parameters are in their ranges (R7) -/
  paramsWf : s.params.wf
  /-- ChannelState is in its ranges (R24, R144) -/
  csOk : ∀ w, (s.worker w).csOk s.params
  /-- BUSY = 1 exactly when phase ≠ IDLE (R27) -/
  busyIff : s.regs.status.busy = true ↔ s.orch.phase ≠ .idle
  /-- DRAIN = 1 exactly when phase = DRAIN (R27) -/
  drainIff : s.regs.status.drain = true ↔ s.orch.phase = .drain
  /-- an error is latched exactly in DRAIN (R196, R198, R199) -/
  latchedIff : s.orch.latched = true ↔ s.orch.phase = .drain
  /-- ERR only with DONE (R229, R198) -/
  errDone : s.regs.status.err = true → s.regs.status.done = true
  /-- while a command runs DONE is 0 (R220) -/
  runningNotDone : s.orch.phase ≠ .idle → s.regs.status.done = false
  /-- with no error latched or reported, ERR_INFO and ERR_BLOCK are 0 (R48, R49) -/
  noError : s.orch.phase ≠ .drain → s.regs.status.err = false → s.regs.errInfo = 0 ∧ s.regs.errBlock = 0
  /-- a running command passed the acceptance check of its kind, and its configuration still does (R51, R256) -/
  accepted : s.orch.phase ≠ .idle → checkConfig s.params s.regs s.orch.kind = none
  /-- W is in 1..W_MAX, and RUN_INFO reports it (R27, R50) -/
  workersUsed : s.orch.phase ≠ .idle →
    1 ≤ s.orch.w.toNat ∧ s.orch.w.toNat ≤ Config.wMax ∧ s.regs.runInfo = s.orch.w
  /-- TRAIL while a command runs (R222, R223) -/
  trailIff : s.orch.phase ≠ .idle →
    (s.regs.status.trail = true ↔ s.orch.kind = .stream ∧ s.regs.hasTrail = true)
  /-- only a DECODE fills, and its cursor is at a slot of the tail, if there is one (R191, R201) -/
  fillOk : s.orch.phase = .fill →
    s.orch.kind = .stream ∧ blockCount s.regs * spb s.regs ≤ s.orch.fillI ∧
    (s.orch.fillI < totalSamples s.regs ∨ totalSamples s.regs ≤ blockCount s.regs * spb s.regs)
  /-- no worker is active while idle or filling (R192, R195, R198) -/
  quiet : s.orch.phase = .idle ∨ s.orch.phase = .fill → ∀ w, (s.worker w).active = false
  /-- every active worker is in its range -/
  activeOk : ∀ w, (s.worker w).active = true → (s.worker w).activeOk s.regs s.orch w

/-! ### What has been written -/

/-- Whether channel `c` is loaded when a worker is at a phase (R130). -/
def CursorPhase.loaded (c : Nat) : CursorPhase → Prop
  | .hchk ch => c < ch
  | .hwr _ => True
  | .body _ _ _ _ => True

/-- How many samples of channel `c` a block has written when its worker is at a phase (R130, R139). -/
def CursorPhase.samplesDone (c : Nat) : CursorPhase → Nat
  | .hchk _ => 0
  | .hwr ch => if c < ch then 1 else 0
  | .body g ch b h => if c < ch then 1 + 8 * (g + 1) else if c = ch then 1 + 8 * g + 2 * b + h else 1 + 8 * g

/-- How many nibbles of channel `c` have been decoded when a worker is at a phase (R130). -/
def CursorPhase.nibblesDone (c : Nat) (ph : CursorPhase) : Nat := ph.samplesDone c - 1

/-- A worker's ChannelState and output so far are those of the block function (R141). -/
def Worker.progress (m : Memory) (r : Regs) (wk : Worker) : Prop :=
  ∀ c, c < r.c →
    (wk.phase.loaded c →
      headerFault m r wk.blk.toNat c = none ∧
      wk.chan c = chanAfter m r wk.blk.toNat c (wk.phase.nibblesDone c)) ∧
    ∀ i, i < wk.phase.samplesDone c →
      slotWord m r c (wk.obase.toNat + i) = blockWord m r wk.blk.toNat c i

/-- Block `k` decodes, and is written whole at output base `obase` (R139, R141). -/
def blockWritten (m : Memory) (r : Regs) (k obase : Nat) : Prop :=
  ∀ c, c < r.c → headerFault m r k c = none ∧ ∀ i, i < spb r → slotWord m r c (obase + i) = blockWord m r k c i

/-- Slot `i` of channel `c` comes before the fill cursor (R191). -/
def beforeFill (o : Orch) (c i : Nat) : Prop := c < o.fillCh ∨ (c = o.fillCh ∧ i < o.fillI)

/-- The tail slots that are to be 0 by now are 0 (R178, R191). -/
def tailWritten (s : State) : Prop :=
  ∀ c i, c < s.regs.c → blockCount s.regs * spb s.regs ≤ i → i < totalSamples s.regs →
    (s.orch.phase = .fill → beforeFill s.orch c i) → slotWord s.mem s.regs c i = 0

/-- What a running command has written is what it is to write: every active worker's progress is right; while nothing has
failed, so are the tail, every block a worker of a DECODE has passed, and the block of a DECODE_BLOCK whose worker has
stopped (R191 to R194, R201). -/
structure OutputInv (s : State) : Prop where
  progress : ∀ w, (s.worker w).active = true → (s.worker w).progress s.mem s.regs
  tail : s.orch.kind = .stream → s.orch.phase = .fill ∨ s.orch.phase = .run → tailWritten s
  blocks : s.orch.kind = .stream → s.orch.phase = .run → ∀ w k,
    rangeStart (blockCount s.regs) s.orch.w.toNat w.num ≤ k → w.num < s.orch.w.toNat →
    k < (if (s.worker w).active then (s.worker w).blk.toNat
         else rangeEnd (blockCount s.regs) s.orch.w.toNat w.num) →
    blockWritten s.mem s.regs k (k * spb s.regs)
  single : s.orch.kind = .single → s.orch.phase = .run → (s.worker .w0).active = false →
    blockWritten s.mem s.regs s.regs.blkIndex.toNat s.regs.outOffset.toNat

/-- The word a successful run of the running command leaves in slot `i` of channel `c`, when it writes that slot
(R202, R223). -/
def successWord (s : State) (c i : Nat) : Option Word :=
  match s.orch.kind with
  | .stream => if i < totalSamples s.regs then some (streamWord s.mem s.regs c i) else none
  | .single =>
    if s.regs.outOffset.toNat ≤ i ∧ i < s.regs.outOffset.toNat + spb s.regs then
      some (blockWord s.mem s.regs s.regs.blkIndex.toNat c (i - s.regs.outOffset.toNat))
    else none

/-- Whether an address is a byte of an output slot of the configuration (R71, R75). -/
def isSlotByte (r : Regs) (a : Nat) : Prop :=
  ∃ c i, c < r.c ∧ i < r.outLen.toNat ∧ outAddr r c i ≤ a ∧ a < outAddr r c i + 4

/-! ### What is left to do -/

/-- The position of a phase in the order of R130. -/
def CursorPhase.rank (c : Nat) : CursorPhase → Nat
  | .hchk ch => ch
  | .hwr ch => c + ch
  | .body g ch b h => 2 * c + (8 * (c * g + ch) + 2 * b + h)

/-- Micro-operations of one block, `C * (2 + 8 * chunkCount)` (R205). -/
def blockOps (r : Regs) : Nat := r.c * (2 + 8 * chunkCount r)

/-- Micro-operations an active worker still has to do: the rest of its block, then the rest of its range. -/
def Worker.remaining (r : Regs) (wk : Worker) : Nat :=
  if wk.active then
    (blockOps r - wk.phase.rank r.c) + (wk.stop.toNat - wk.blk.toNat - 1) * blockOps r
  else 0

/-- Micro-operations all workers still have to do. -/
def microRemaining (s : State) : Nat :=
  (s.worker .w0).remaining s.regs + (s.worker .w1).remaining s.regs + (s.worker .w2).remaining s.regs +
    (s.worker .w3).remaining s.regs

/-- Fill writes still to be done: the rest of the cursor's channel, then the tails of the channels after it (R191). -/
def fillRemaining (s : State) : Nat :=
  if s.orch.fillCh < s.regs.c ∧ s.orch.fillI < totalSamples s.regs then
    (totalSamples s.regs - s.orch.fillI) +
      (s.regs.c - s.orch.fillCh - 1) * (totalSamples s.regs - blockCount s.regs * spb s.regs)
  else 0

/-- A bound on the block's own steps until the running command completes (R205): the fill, DISPATCH, the
micro-operations, the completion. -/
def stepsLeft (s : State) : Nat :=
  match s.orch.phase with
  | .idle => 0
  | .fill => fillRemaining s + 1 + blockCount s.regs * blockOps s.regs + 1
  | .run => microRemaining s + 1
  | .drain => microRemaining s + 1

/-! ### The spec's own tables and tests, as data for claims -/

/-- The sixteen nibble codes and their instructions (R110). -/
def nibbleCodes : List (BitVec 4 × Instr) :=
  [(0x0#4, .nib0), (0x1#4, .nib1), (0x2#4, .nib2), (0x3#4, .nib3), (0x4#4, .nib4), (0x5#4, .nib5), (0x6#4, .nib6), (0x7#4, .nib7)] ++
  [(0x8#4, .nib8), (0x9#4, .nib9), (0xA#4, .nibA), (0xB#4, .nibB), (0xC#4, .nibC), (0xD#4, .nibD), (0xE#4, .nibE), (0xF#4, .nibF)]

/-- One acceptance test: whether it passes, and what its failure reports (R256). -/
structure ConfigTest where
  passes : Bool
  code   : ErrCode
  sub    : BitVec 4
  deriving DecidableEq, Repr

/-- CONFIG_ERROR tests 1 to 4, of both commands (R256). -/
def configTestsShape (p : Params) (r : Regs) : List ConfigTest :=
  [⟨decide (1 ≤ r.c ∧ r.c ≤ p.maxChannels), .configError, 1⟩,
   ⟨decide (0 < r.bs ∧ r.bs % (4 * r.c) = 0), .configError, 2⟩,
   ⟨decide (r.outBase.toNat % 4 = 0), .configError, 3⟩,
   ⟨decide (r.c = 1 ∨ r.outStride.toNat ≥ r.outLen.toNat), .configError, 4⟩]

/-- CONFIG_ERROR tests 6 and 7, of both commands (R256, R80). -/
def configTestsRegions (r : Regs) : List ConfigTest :=
  [⟨decide (r.inBase.toNat + r.len ≤ 4294967296 ∧
      r.outBase.toNat + 4 * ((r.c - 1) * r.outStride.toNat + r.outLen.toNat) ≤ 4294967296), .configError, 6⟩,
   ⟨decide (r.len = 0 ∨ (r.c - 1) * r.outStride.toNat + r.outLen.toNat = 0 ∨
      r.inBase.toNat + r.len ≤ r.outBase.toNat ∨
      r.outBase.toNat + 4 * ((r.c - 1) * r.outStride.toNat + r.outLen.toNat) ≤ r.inBase.toNat), .configError, 7⟩]

/-- The tests of R256 in their order, for each command. -/
def configTests (p : Params) (r : Regs) : Kind → List ConfigTest
  | .stream =>
    configTestsShape p r ++
    [⟨decide (r.outLen.toNat = 2 * r.len / r.c), .bufferSizeMismatch, 1⟩] ++
    configTestsRegions r
  | .single =>
    configTestsShape p r ++
    [⟨decide ((r.blkIndex.toNat + 1) * r.bs ≤ r.len), .configError, 5⟩,
     ⟨decide (r.outOffset.toNat + (1 + 8 * ((r.bs - 4 * r.c) / (4 * r.c))) ≤ r.outLen.toNat), .bufferSizeMismatch, 2⟩] ++
    configTestsRegions r

/-- Whether a binary32 word is finite (R111). -/
def f32Finite (u : Word) : Prop := u.toNat / 2 ^ 23 % 256 ≠ 255

/-- The value of a finite binary32 word in units of 2^-149, the least positive one (R111): exact for every finite word. -/
def f32Scaled (u : Word) : Int :=
  (if u.getLsbD 31 then -1 else 1) *
    ((if u.toNat / 2 ^ 23 % 256 = 0 then u.toNat % 2 ^ 23
      else (2 ^ 23 + u.toNat % 2 ^ 23) * 2 ^ (u.toNat / 2 ^ 23 % 256 - 1) : Nat) : Int)

/-- The distance of a binary32 word from `p / 32767`, in units of 2^-149 / 32767 (R137). -/
def f32Dist (p : BitVec 16) (u : Word) : Nat := (32767 * f32Scaled u - p.toInt * 2 ^ 149).natAbs

/-- The registers a running command reads: those the configuration lock keeps (R51). -/
def Regs.config (r : Regs) : List Nat :=
  [r.chCount.toNat, r.blockSize.toNat, r.inBase.toNat, r.inLen.toNat, r.outBase.toNat, r.outStride.toNat, r.outLen.toNat,
   r.blkIndex.toNat, r.outOffset.toNat]

/-- The worker after a micro-operation that changed its channels to `cs` (R130, R194): the successor phase, or the block
end, which starts the next block of a STREAM range or stops the worker (what the worker then keeps: logs 30, 36). -/
def Worker.after (r : Regs) (wk : Worker) (cs : List Chan) : Worker :=
  match nextPhase r.c (chunkCount r) wk.phase with
  | some ph => { wk with cs := cs, phase := ph }
  | none =>
    if wk.kind = .stream ∧ wk.blk.toNat + 1 < wk.stop.toNat then
      { wk with
        cs := cs, phase := .hchk 0, blk := BitVec.ofNat 32 (wk.blk.toNat + 1)
        obase := BitVec.ofNat 32 ((wk.blk.toNat + 1) * spb r) }
    else { wk with cs := cs, active := false }

/-- What a first raised error leaves of the registers: the record and STATUS.DRAIN (R196 (b), R253). -/
def Regs.withError (r : Regs) (ch : BitVec 16) (byte : Byte) (sub code : BitVec 4) (blk : Word) : Regs :=
  { r with status := { r.status with drain := true }, errInfo := ch ++ byte ++ sub ++ code, errBlock := blk }

/-- The next move is a reset, of either source (R226, R280): the power-on input, or a host write of CMD that decodes to
SOFT_RESET. -/
def resetsNext (s : State) : Prop :=
  ∃ rest : List Move, s.moves = .powerOn :: rest ∨
    ∃ cw : Word, s.moves = .busWrite (s.params.regBase + 0x08) .word cw :: rest ∧ decodeCmd cw = .instr .softReset

end Sys2Proof.Machine
end

