-- ==== Sys2Proof/Certificates/Slice0/Obligations.lean ====
section
/-! DEFINITION. The statements for the provers. Each says which rule of spec/ it formalises; where a clause rests on a
choice of the model, the docstring names the log entry. -/

open Sys2Proof Sys2Proof.Machine

/-! ### Encoding -/

/-- R100 to R104, R110: decoding what encode gives for a well-formed instruction gives it back, and every code that
decodes to an instruction is that instruction's own encoding. -/
def Obligations.DecodeAndEncodeAgree : Prop :=
  (∀ i : Instr, i.wellFormed = true → decode (encode i) = .instr i) ∧
  (∀ (c : Code) (i : Instr), decode c = .instr i → i.wellFormed = true ∧ encode i = c)

/-- R103, R104: the fields of a command word as numbers, the legality tests in their order, then the opcode map. -/
def Obligations.CommandWordsFollowTheOpcodeMap : Prop :=
  ∀ cw : Word,
    let op := cw.toNat % 16
    let workers := cw.toNat / 16 % 8
    let reserved := cw.toNat / 128
    (5 ≤ op ∧ op ≤ 14 → decodeCmd cw = .illegal .reservedOpcode) ∧
    (¬(5 ≤ op ∧ op ≤ 14) → reserved ≠ 0 ∨ (op ≠ 1 ∧ workers ≠ 0) → decodeCmd cw = .illegal .reservedBits) ∧
    (reserved = 0 → op = 1 → 4 < workers → decodeCmd cw = .illegal .tooManyWorkers) ∧
    (reserved = 0 → op = 1 → workers ≤ 4 → decodeCmd cw = .instr (.decode (BitVec.ofNat 3 workers))) ∧
    (cw = 0x0 → decodeCmd cw = .instr .nop) ∧
    (cw = 0x2 → decodeCmd cw = .instr .decodeBlock) ∧
    (cw = 0x3 → decodeCmd cw = .instr .abort) ∧
    (cw = 0x4 → decodeCmd cw = .instr .clear) ∧
    (cw = 0xF → decodeCmd cw = .instr .softReset)

/-- Words of 95_test_vectors.md V6 and codes of R110 decode to what they stand for. -/
def Obligations.WordsOfTheSpecDecode : Prop :=
  decodeCmd 0x00000000 = .instr .nop ∧ decodeCmd 0x00000001 = .instr (.decode 0) ∧
  decodeCmd 0x00000041 = .instr (.decode 4) ∧ decodeCmd 0x00000002 = .instr .decodeBlock ∧
  decodeCmd 0x00000003 = .instr .abort ∧ decodeCmd 0x00000004 = .instr .clear ∧
  decodeCmd 0x0000000F = .instr .softReset ∧ decodeCmd 0x80000005 = .illegal .reservedOpcode ∧
  decodeCmd 0x00000012 = .illegal .reservedBits ∧ decodeCmd 0x00000051 = .illegal .tooManyWorkers ∧
  decodeNibble 0x7 = .nib7 ∧ decodeNibble 0xC = .nibC

/-! ### The step -/

/-- R220: a host write of a legal command word to CMD is executed in that same step. -/
def Obligations.StepRunsTheDecodedCommand : Prop :=
  ∀ (s : State) (cw : Word) (i : Instr) (rest : List Move),
    s.moves = .busWrite (s.params.regBase + 0x08) .word cw :: rest → decodeCmd cw = .instr i →
    step s = exec i { s with moves := rest }

/-- R109, R138: the micro-operation of a worker in BODY executes the nibble code in its half of the byte at its cursor. -/
def Obligations.StepRunsTheDecodedNibble : Prop :=
  ∀ (s : State) (w : WorkerId) (g ch b h : Nat) (n : BitVec 4) (i : Instr) (rest : List Move),
    s.moves = .agent (.micro w) :: rest → (s.worker w).active = true →
    s.orch.phase = .run ∨ s.orch.phase = .drain → (s.worker w).phase = .body g ch b h →
    s.regs.inBase.toNat + (s.worker w).blk.toNat * s.regs.bs +
      (4 * s.regs.c + 4 * s.regs.c * g + 4 * ch + b) < 2 ^ 32 →
    busOk s.params (s.regs.inBase.toNat + (s.worker w).blk.toNat * s.regs.bs +
      (4 * s.regs.c + 4 * s.regs.c * g + 4 * ch + b)) .read = true →
    n = (if h = 0 then
        (s.mem.read (s.regs.inBase.toNat + (s.worker w).blk.toNat * s.regs.bs +
          (4 * s.regs.c + 4 * s.regs.c * g + 4 * ch + b))).extractLsb' 0 4
      else
        (s.mem.read (s.regs.inBase.toNat + (s.worker w).blk.toNat * s.regs.bs +
          (4 * s.regs.c + 4 * s.regs.c * g + 4 * ch + b))).extractLsb' 4 4) →
    (n, i) ∈ nibbleCodes →
    step s = exec i { s with moves := rest, turn := w }

/-- R220, R227: an illegal word while idle clears for the start and completes with ILLEGAL_COMMAND and its subcode; while
BUSY it is dropped and sets OVR. That this DONE, too, makes every write of the block visible to the host is deduced
(log 35). -/
def Obligations.IllegalWordCompletesOrIsDropped : Prop :=
  ∀ (s : State) (cw : Word) (e : IllegalWord) (rest : List Move),
    s.moves = .busWrite (s.params.regBase + 0x08) .word cw :: rest → decodeCmd cw = .illegal e →
    (s.orch.phase = .idle →
      step s = .next { s with
        moves := rest
        earlier := []
        regs := { s.regs with
          status := { s.regs.status with done := true, err := true, trail := false }
          errInfo := 0#24 ++ e.sub ++ 0x3#4
          errBlock := 0 } }) ∧
    (s.orch.phase ≠ .idle →
      step s = .next { s with moves := rest, regs := { s.regs with status := { s.regs.status with ovr := true } } })

/-- R77 (a), (c), (d): a host read of the window returns the register at an aligned 32-bit read, 0 at a reserved offset, a
narrow or a misaligned read, and changes nothing else. That it goes to `rdata` is the model's (log 22), as is how the
model keeps the host's duty of R82, which a read of STATUS with DONE = 1 and BUSY = 0 ends (log 37). R29, R32 to R44,
R48 to R50: what each register with storage reads as. STATUS has BUSY, DONE, ERR, OVR, TRAIL and DRAIN in bits 0 to 5; the
others read their fields, a reserved bit reads 0, and CMD reads 0. -/
def Obligations.HostReadsReturnRegisters : Prop :=
  (∀ (s : State) (off : Nat) (size : AccSize) (rest : List Move),
    s.moves = .busRead (s.params.regBase + off) size :: rest → off < 0x80 →
    ∃ v : Word, step s = .next { s with
        moves := rest
        rdata := v
        duties := if size = .word ∧ off = 0x0C ∧ s.regs.status.done = true ∧ s.regs.status.busy = false then []
          else s.duties } ∧
      (size = .word → ∀ r : Reg, off = regOffset r → v = readReg s r) ∧
      (size ≠ .word ∨ off % 4 ≠ 0 ∨ 0x54 ≤ off → v = 0)) ∧
  ∀ s : State,
    ((readReg s .status).getLsbD 0 = s.regs.status.busy ∧ (readReg s .status).getLsbD 1 = s.regs.status.done ∧
      (readReg s .status).getLsbD 2 = s.regs.status.err ∧ (readReg s .status).getLsbD 3 = s.regs.status.ovr ∧
      (readReg s .status).getLsbD 4 = s.regs.status.trail ∧ (readReg s .status).getLsbD 5 = s.regs.status.drain ∧
      ∀ i, 6 ≤ i → (readReg s .status).getLsbD i = false) ∧
    readReg s .cmd = 0 ∧ (readReg s .irqEn).toNat = s.regs.irqEn.toNat ∧
    (readReg s .chCount).toNat = s.regs.chCount.toNat ∧ readReg s .blockSize = s.regs.blockSize ∧
    readReg s .inBase = s.regs.inBase ∧ readReg s .inLen = s.regs.inLen ∧ readReg s .outBase = s.regs.outBase ∧
    readReg s .outStride = s.regs.outStride ∧ readReg s .outLen = s.regs.outLen ∧
    readReg s .blkIndex = s.regs.blkIndex ∧ readReg s .outOffset = s.regs.outOffset ∧
    readReg s .nextOffset = s.regs.nextOffset ∧ readReg s .errInfo = s.regs.errInfo ∧
    readReg s .errBlock = s.regs.errBlock ∧ (readReg s .runInfo).toNat = s.regs.runInfo.toNat

/-- R77 (b), R29, R51: a host write of a register other than CMD changes registers only; one that is read-only, or
locked while BUSY, keeps all of them; another takes the bits of its fields, and every register that is not computed from
the configuration keeps its value. -/
def Obligations.HostWritesUpdateRegisters : Prop :=
  ∀ (s : State) (r : Reg) (v : Word) (rest : List Move),
    s.moves = .busWrite (s.params.regBase + regOffset r) .word v :: rest → r ≠ .cmd →
    ∃ regs : Regs, step s = .next { s with moves := rest, regs := regs } ∧
      (regIsConfig r = true → s.regs.status.busy = true → regs = s.regs) ∧
      (regIsConfig r = false → r ≠ .irqEn → regs = s.regs) ∧
      (r = .irqEn ∨ (regIsConfig r = true ∧ s.regs.status.busy = false) →
        readReg { s with regs := regs } r =
          (if r = .irqEn then v &&& 0x3 else if r = .chCount then v &&& 0xFFFF else v) ∧
        ∀ r' : Reg, r' ≠ r → r' ≠ .blockCount → r' ≠ .spb → r' ≠ .totalSamples →
          readReg { s with regs := regs } r' = readReg s r')

/-- R77 (b), (c): a narrow or misaligned write to the window, or one to a reserved offset, does nothing. -/
def Obligations.NarrowAndReservedWritesDoNothing : Prop :=
  ∀ (s : State) (off : Nat) (size : AccSize) (v : Word) (rest : List Move),
    s.moves = .busWrite (s.params.regBase + off) size v :: rest → off < 0x80 →
    size ≠ .word ∨ off % 4 ≠ 0 ∨ 0x54 ≤ off → step s = .next { s with moves := rest }

/-- R45, R47, and R46 where SPB fits its register (beyond, a free value: log 11): the computed registers. -/
def Obligations.ComputedRegistersFollowTheConfiguration : Prop :=
  ∀ s : State,
    (1 ≤ s.regs.c ∧ s.regs.c ≤ s.params.maxChannels ∧ 0 < s.regs.bs ∧ s.regs.bs % (4 * s.regs.c) = 0 →
      (readReg s .blockCount).toNat = s.regs.inLen.toNat / s.regs.bs ∧
      (readReg s .totalSamples).toNat = 2 * s.regs.inLen.toNat / s.regs.c % 2 ^ 32 ∧
      (1 + 8 * ((s.regs.bs - 4 * s.regs.c) / (4 * s.regs.c)) < 2 ^ 32 →
        (readReg s .spb).toNat = 1 + 8 * ((s.regs.bs - 4 * s.regs.c) / (4 * s.regs.c)))) ∧
    (¬(1 ≤ s.regs.c ∧ s.regs.c ≤ s.params.maxChannels ∧ 0 < s.regs.bs ∧ s.regs.bs % (4 * s.regs.c) = 0) →
      readReg s .blockCount = 0 ∧ readReg s .totalSamples = 0 ∧ readReg s .spb = 0)

/-- R54: the interrupt line is high exactly while DONE and its enable, or ERR and its enable, read 1: bits 1 and 2 of STATUS,
bits 0 and 1 of IRQ_EN. R262: the platform routes it to the input IRQ_ROUTE; a completion that sets DONE raises it when it
is enabled; and with the enables unchanged it falls only by a status bit being cleared: by the host's CLEAR, SOFT_RESET,
the start of a command or an illegal word, or by the reset input. -/
def Obligations.InterruptFallsOnlyByTheHost : Prop :=
  (∀ s : State,
    (s.irq = true ↔
      ((readReg s .status).getLsbD 1 = true ∧ (readReg s .irqEn).getLsbD 0 = true) ∨
      ((readReg s .status).getLsbD 2 = true ∧ (readReg s .irqEn).getLsbD 1 = true)) ∧
    ∀ n, s.irqInput n = true ↔ n = s.params.irqRoute ∧ s.irq = true) ∧
  (∀ (s : State) (rest : List Move), Inv s → s.moves = .agent .orch :: rest →
    s.orch.phase = .run ∨ s.orch.phase = .drain → (∀ w, (s.worker w).active = false) →
    ∃ t, step s = .next t ∧
      (t.irq = true ↔ s.regs.irqEn.getLsbD 0 = true ∨ (s.orch.phase = .drain ∧ s.regs.irqEn.getLsbD 1 = true))) ∧
  ∀ s t : State, step s = .next t → s.irq = true → t.irq = false → t.regs.irqEn = s.regs.irqEn →
    ∃ rest : List Move, s.moves = .powerOn :: rest ∨
      ∃ cw : Word, s.moves = .busWrite (s.params.regBase + 0x08) .word cw :: rest ∧
        (decodeCmd cw = .instr .clear ∨ decodeCmd cw = .instr .softReset ∨ decodeCmd cw = .instr .decodeBlock ∨
          (∃ w, decodeCmd cw = .instr (.decode w)) ∨ ∃ e, decodeCmd cw = .illegal e)

/-! ### Reset -/

/-- R281 with R30, R31, R54: what every register reads after reset, and what the agents are. -/
def Obligations.ResetReadsTheResetValues : Prop :=
  ∀ p : Params, p.wf →
    readReg (State.resetWith p) .id = 0x494D4101 ∧
    (readReg (State.resetWith p) .param).toNat = p.maxChannels * 65536 + 0x14 ∧
    (∀ r : Reg, r ≠ .id → r ≠ .param → readReg (State.resetWith p) r = 0) ∧
    (State.resetWith p).irq = false ∧
    (State.resetWith p).orch.phase = .idle ∧ (State.resetWith p).orch.latched = false ∧
    ∀ w, ((State.resetWith p).worker w).active = false

/-- The invariant, and that of the output, hold after reset, for every choice of the parameters in their ranges, and that
of the output holds in every idle state of the invariant. R281 leaves ChannelState unspecified after reset: that every
step index is at most 88 there is the model's choice of 0 (log 3), and that memory is canonical and wholly visible to the
host is its choice (logs 2, 14). -/
def Obligations.ResetMeetsTheInvariant : Prop :=
  (∀ p : Params, p.wf → Inv (State.resetWith p) ∧ OutputInv (State.resetWith p)) ∧
  ∀ s : State, Inv s → s.orch.phase = .idle → OutputInv s

/-- R226, R280: SOFT_RESET, the word 15, and the power-on reset have the same effect, in one step and in any phase: every
worker stops, the orchestrator is IDLE with nothing latched, every register is at its reset value, and memory is not
written. -/
def Obligations.BothResetsStopEverything : Prop :=
  decodeCmd 0x0000000F = .instr .softReset ∧
  ∀ s : State, ∃ t : State,
    exec .softReset s = .next t ∧
    (∀ (u : State) (rest : List Move), u.moves = .powerOn :: rest → s = { u with moves := rest } → step u = .next t) ∧
    t.orch.phase = .idle ∧ t.orch.latched = false ∧ t.regs = Regs.reset ∧ t.mem = s.mem ∧ t.params = s.params ∧
    ∀ w, (t.worker w).active = false

/-! ### Commands -/

/-- R221: NOP, the word 0, leaves everything unchanged, idle or BUSY; every other word with OPCODE 0, which has a reserved
bit set, is illegal (R104). -/
def Obligations.NopHasNoEffect : Prop :=
  decodeCmd 0x00000000 = .instr .nop ∧
  (∀ cw : Word, cw.toNat % 16 = 0 → cw ≠ 0 → decodeCmd cw = .illegal .reservedBits) ∧
  ∀ s : State, exec .nop s = .next s

/-- R199, R224: ABORT, the word 3, does nothing while idle or with an error latched; else it records ABORTED and starts the
drain, with no worker halted. -/
def Obligations.AbortLatchesAborted : Prop :=
  decodeCmd 0x00000003 = .instr .abort ∧
  ∀ s : State,
    (s.orch.phase = .idle → exec .abort s = .next s) ∧
    (s.orch.phase ≠ .idle → s.orch.latched = true → exec .abort s = .next s) ∧
    (s.orch.phase ≠ .idle → s.orch.latched = false →
      exec .abort s = .next { s with
        regs := s.regs.withError 0 0 0 0x5 0
        orch := { s.orch with phase := .drain, latched := true } })

/-- R225: CLEAR, the word 4, while idle zeroes DONE, ERR, OVR, TRAIL, ERR_INFO and ERR_BLOCK and changes nothing else, and
the interrupt line is low after it; while BUSY it is dropped. -/
def Obligations.ClearZeroesTheStatus : Prop :=
  decodeCmd 0x00000004 = .instr .clear ∧
  ∀ s : State,
    (s.orch.phase = .idle → ∃ t : State, exec .clear s = .next t ∧ t.irq = false ∧
      t = { s with
        regs := { s.regs with
          status := { s.regs.status with done := false, err := false, ovr := false, trail := false }
          errInfo := 0
          errBlock := 0 } }) ∧
    (s.orch.phase ≠ .idle →
      exec .clear s = .next { s with regs := { s.regs with status := { s.regs.status with ovr := true } } })

/-- R220: a DECODE, DECODE_BLOCK or CLEAR while BUSY is dropped: OVR is set and nothing else happens. -/
def Obligations.CommandsWhileBusyAreDropped : Prop :=
  ∀ (s : State) (i : Instr), s.orch.phase ≠ .idle →
    (∃ w, i = .decode w) ∨ i = .decodeBlock ∨ i = .clear →
    exec i s = .next { s with regs := { s.regs with status := { s.regs.status with ovr := true } } }

/-- R222, R256: a DECODE while idle whose configuration passes every test is accepted: the status for the start, TRAIL
for a stream that is not block-aligned, RUN_INFO, the phase FILL with the cursor at the first tail slot. Memory as it
stands is kept as what the host may still see of it (R83; log 14), and the host's duty for the command starts (R82;
log 37). -/
def Obligations.DecodeIsAccepted : Prop :=
  ∀ (s : State) (workers : BitVec 3), s.orch.phase = .idle → workers.toNat ≤ 4 →
    (∀ x ∈ configTests s.params s.regs .stream, x.passes = true) →
    exec (.decode workers) s = .next { s with
      earlier := s.mem :: s.earlier
      duties := { kind := .stream, regs := s.regs.clearForStart } :: s.duties
      regs := { s.regs with
        status := { s.regs.status with
          busy := true, done := false, err := false, trail := decide (s.regs.len % s.regs.bs ≠ 0) }
        errInfo := 0
        errBlock := 0
        runInfo := if workers = 0 then 4 else workers }
      orch := { phase := .fill, kind := .stream, w := if workers = 0 then 4 else workers, latched := false
                fillCh := 0
                fillI := s.regs.len / s.regs.bs * (1 + 8 * ((s.regs.bs - 4 * s.regs.c) / (4 * s.regs.c))) } }

/-- R256, R229: a DECODE while idle is refused by the first test of its order that fails, with that test's code and
subcode, in the accepting step, with no memory access and no worker started. A WORKERS field above W_MAX, which no
decoded word has, is refused as the illegal word it stands for (R104; log 26). That this DONE, too, makes every write of
the block visible to the host is deduced (log 35). -/
def Obligations.DecodeIsRefusedByTheFirstFailingTest : Prop :=
  ∀ (s : State) (workers : BitVec 3), s.orch.phase = .idle →
    (4 < workers.toNat →
      exec (.decode workers) s = .next { s with
        earlier := []
        regs := { s.regs with
          status := { s.regs.status with done := true, err := true, trail := false }
          errInfo := 0#24 ++ 3#4 ++ 0x3#4
          errBlock := 0 } }) ∧
    (workers.toNat ≤ 4 → ∀ (pre post : List ConfigTest) (e : ConfigTest),
      configTests s.params s.regs .stream = pre ++ e :: post → (∀ x ∈ pre, x.passes = true) → e.passes = false →
      exec (.decode workers) s = .next { s with
        earlier := []
        regs := { s.regs with
          status := { s.regs.status with done := true, err := true, trail := false }
          errInfo := 0#24 ++ e.sub ++ e.code.bits
          errBlock := 0 } })

/-- R201, R223, R256: a DECODE_BLOCK while idle whose configuration passes every test is accepted: worker 0 starts on block
BLK_INDEX at output base OUT_OFFSET, with no fill. Memory as it stands is kept as what the host may still see of it (R83;
log 14), the host's duty for the command starts (R82; log 37), and that ChannelState keeps its value until the headers load it is the model's choice (log 36). -/
def Obligations.DecodeBlockIsAccepted : Prop :=
  ∀ s : State, s.orch.phase = .idle → (∀ x ∈ configTests s.params s.regs .single, x.passes = true) →
    exec .decodeBlock s = .next { s with
      earlier := s.mem :: s.earlier
      duties := { kind := .single, regs := s.regs.clearForStart } :: s.duties
      regs := { s.regs with
        status := { s.regs.status with busy := true, done := false, err := false, trail := false }
        errInfo := 0
        errBlock := 0
        runInfo := 1 }
      orch := { s.orch with phase := .run, kind := .single, w := 1, latched := false }
      workers := { s.workers with
        w0 := { s.workers.w0 with
          active := true, kind := .single, blk := s.regs.blkIndex
          stop := BitVec.ofNat 33 (s.regs.blkIndex.toNat + 1)
          obase := s.regs.outOffset, phase := .hchk 0 } } }

/-- R256, R229: a DECODE_BLOCK while idle is refused by the first test of its order that fails, with that test's code and
subcode. That this DONE, too, makes every write of the block visible to the host is deduced (log 35). -/
def Obligations.DecodeBlockIsRefusedByTheFirstFailingTest : Prop :=
  ∀ (s : State) (pre post : List ConfigTest) (e : ConfigTest), s.orch.phase = .idle →
    configTests s.params s.regs .single = pre ++ e :: post → (∀ x ∈ pre, x.passes = true) → e.passes = false →
    exec .decodeBlock s = .next { s with
      earlier := []
      regs := { s.regs with
        status := { s.regs.status with done := true, err := true, trail := false }
        errInfo := 0#24 ++ e.sub ++ e.code.bits
        errBlock := 0 } }

/-! ### The predictor and step-index pipeline, and normalization -/

/-- R133: NIBBLE_STEP. The predictor is the clamp of the exact sum with the delta of separately shifted terms, negated by
bit 3; the index is the clamp of the sum with the table entry of `n & 7`. -/
def Obligations.NibbleStepIsTheRule : Prop :=
  ∀ (n : BitVec 4) (c : Chan), c.idx.toNat ≤ 88 →
    ∃ step : Nat, Config.stepTable[c.idx.toNat]? = some step ∧
      let mag : Int := step / 8 + (if n.toNat % 2 = 1 then (step : Int) / 4 else 0) +
        (if n.toNat / 2 % 2 = 1 then (step : Int) / 2 else 0) + (if n.toNat / 4 % 2 = 1 then (step : Int) else 0)
      (nibbleStep n c).pred.toInt =
        max (-32768) (min 32767 (c.pred.toInt + (if 8 ≤ n.toNat then -mag else mag))) ∧
      ((nibbleStep n c).idx.toNat : Int) =
        max 0 (min 88 ((c.idx.toNat : Int) + Config.indexTable.getD (n.toNat % 8) 0))

/-- R110: the delta of each of the sixteen codes, for every step. -/
def Obligations.NibbleDeltasAreTheTable : Prop :=
  ∀ step : Nat,
    nibbleDelta 0x0 step = (step / 8 : Nat) ∧
    nibbleDelta 0x1 step = (step / 8 + step / 4 : Nat) ∧
    nibbleDelta 0x2 step = (step / 8 + step / 2 : Nat) ∧
    nibbleDelta 0x3 step = (step / 8 + step / 4 + step / 2 : Nat) ∧
    nibbleDelta 0x4 step = (step / 8 + step : Nat) ∧
    nibbleDelta 0x5 step = (step / 8 + step / 4 + step : Nat) ∧
    nibbleDelta 0x6 step = (step / 8 + step / 2 + step : Nat) ∧
    nibbleDelta 0x7 step = (step / 8 + step / 4 + step / 2 + step : Nat) ∧
    ∀ n : BitVec 4, nibbleDelta (n ||| 0x8) step = -nibbleDelta (n &&& 0x7) step

/-- R134: the widths of the update datapath. A step of the table is in 7..32767, the delta is within 61436 either way, the
sum in -94204..94203, the index sum in -1..96. -/
def Obligations.UpdateDatapathWidths : Prop :=
  ∀ (n : BitVec 4) (pred : BitVec 16) (i step : Nat), Config.stepTable[i]? = some step →
    i ≤ 88 ∧ 7 ≤ step ∧ step ≤ 32767 ∧ nibbleDelta n step ≤ 61436 ∧ -61436 ≤ nibbleDelta n step ∧
    pred.toInt + nibbleDelta n step ≤ 94203 ∧ -94204 ≤ pred.toInt + nibbleDelta n step ∧
    -1 ≤ (i : Int) + Config.indexAt n ∧ (i : Int) + Config.indexAt n ≤ 96

/-- R21, R22: the shape of the tables: 89 rising entries from 7 to 32767, and 16 entries whose halves are equal. Their
values are general knowledge, marked so by the spec (logs 7, 8). -/
def Obligations.TablesHaveTheirShape : Prop :=
  Config.stepTable.length = 89 ∧ Config.stepTable.Pairwise (· < ·) ∧ Config.stepTable[0]? = some 7 ∧
  Config.stepTable[88]? = some 32767 ∧ Config.indexTable.length = 16 ∧
  Config.indexTable.take 8 = Config.indexTable.drop 8

/-- R137: Norm(p) is the finite binary32 word nearest to p / 32767: every finite word of another value is farther, so no
tie occurs and nearest, ties to even, is nearest; zero gives +0.0. What a binary32 word is worth is general knowledge,
marked so by the spec (log 9). -/
def Obligations.NormIsTheNearest : Prop :=
  normWord 0 = 0x00000000 ∧
  ∀ p : BitVec 16, f32Finite (normWord p) ∧
    ∀ u : Word, f32Finite u → f32Scaled u ≠ f32Scaled (normWord p) → f32Dist p (normWord p) < f32Dist p u

/-- R137: Norm(-p) is Norm(p) with bit 31 set, for p in 1..32767. -/
def Obligations.NormIsSymmetric : Prop :=
  ∀ p : BitVec 16, 1 ≤ p.toInt → normWord (-p) = normWord p ||| 0x80000000 ∧ (normWord p).getLsbD 31 = false

/-- R137, and the table E3 of 95_test_vectors.md: the values of Norm the rule lists. -/
def Obligations.NormHasTheListedValues : Prop :=
  normWord (BitVec.ofInt 16 0) = 0x00000000 ∧ normWord (BitVec.ofInt 16 32767) = 0x3F800000 ∧
  normWord (BitVec.ofInt 16 (-32767)) = 0xBF800000 ∧ normWord (BitVec.ofInt 16 (-32768)) = 0xBF800100 ∧
  normWord (BitVec.ofInt 16 1) = 0x38000100 ∧ normWord (BitVec.ofInt 16 (-1)) = 0xB8000100 ∧
  normWord (BitVec.ofInt 16 16384) = 0x3F000100

/-! ### The nibble codes as machine steps -/

/-- R138, R139: each of the sixteen codes, executed at a BODY cursor whose output slot exists and is answered OK, updates
channel `ch` by NIBBLE_STEP, writes Norm of the new predictor to slot `obase + 1 + 8g + 2b + h`, and moves the cursor to
the successor or the block end; nothing else changes. That a worker the block end stops keeps its other cursor fields and
its ChannelStates is deduced (log 30), and that ChannelStates keep their values when it starts the next block is the
model's choice (log 36). -/
def Obligations.NibbleCodesDecodeOneSample : Prop :=
  ∀ (s : State) (n : BitVec 4) (i : Instr) (g ch b h : Nat),
    (n, i) ∈ nibbleCodes → (s.worker s.turn).active = true → (s.worker s.turn).phase = .body g ch b h →
    outAddr s.regs ch ((s.worker s.turn).obase.toNat + 1 + 8 * g + 2 * b + h) + 4 ≤ 2 ^ 32 →
    busOk s.params (outAddr s.regs ch ((s.worker s.turn).obase.toNat + 1 + 8 * g + 2 * b + h)) .write = true →
    exec i s = .next { s with
      mem := s.mem.write32 (outAddr s.regs ch ((s.worker s.turn).obase.toNat + 1 + 8 * g + 2 * b + h))
        (normWord (nibbleStep n ((s.worker s.turn).chan ch)).pred)
      workers := s.workers.set s.turn ((s.worker s.turn).after s.regs
        ((s.worker s.turn).cs.set ch (nibbleStep n ((s.worker s.turn).chan ch)))) }

/-- R138, R142, R203: what a nibble code leaves unchanged when it answers a next state: every register except STATUS.DRAIN,
ERR_INFO and ERR_BLOCK (an error response, R196), the orchestrator's kind, W and fill cursor, every other worker, every
other channel of its worker, and every byte of memory outside the four of its slot. -/
def Obligations.NibbleCodesFrame : Prop :=
  ∀ (s t : State) (n : BitVec 4) (i : Instr) (g ch b h : Nat),
    (n, i) ∈ nibbleCodes → (s.worker s.turn).phase = .body g ch b h → s.mem.wf = true → exec i s = .next t →
    t.params = s.params ∧ t.earlier = s.earlier ∧ t.duties = s.duties ∧ t.moves = s.moves ∧
    t.turn = s.turn ∧ t.tick = s.tick ∧ t.rdata = s.rdata ∧
    t.regs = { s.regs with
      status := { s.regs.status with drain := t.regs.status.drain }
      errInfo := t.regs.errInfo
      errBlock := t.regs.errBlock } ∧
    t.orch = { s.orch with phase := t.orch.phase, latched := t.orch.latched } ∧
    (∀ v, v ≠ s.turn → t.worker v = s.worker v) ∧
    (∀ c, c ≠ ch → (t.worker s.turn).chan c = (s.worker s.turn).chan c) ∧
    (∀ a, a < outAddr s.regs ch (bodySlot (s.worker s.turn).obase.toNat g b h) ∨
      outAddr s.regs ch (bodySlot (s.worker s.turn).obase.toNat g b h) + 4 ≤ a → t.mem.read a = s.mem.read a)

/-- R196, R271: a nibble code whose output write gets an error response writes nothing, halts its worker, and, as the first
error of the command, records BUS_ERROR subcode 2 with its channel and block and starts the drain. -/
def Obligations.NibbleCodeRaisesBusError : Prop :=
  ∀ (s : State) (n : BitVec 4) (i : Instr) (g ch b h : Nat),
    (n, i) ∈ nibbleCodes → (s.worker s.turn).active = true → (s.worker s.turn).phase = .body g ch b h →
    outAddr s.regs ch (bodySlot (s.worker s.turn).obase.toNat g b h) + 4 ≤ 2 ^ 32 →
    busOk s.params (outAddr s.regs ch (bodySlot (s.worker s.turn).obase.toNat g b h)) .write = false →
    ∃ t : State, exec i s = .next t ∧ t.mem = s.mem ∧ (t.worker s.turn).active = false ∧
      (∀ v, v ≠ s.turn → t.worker v = s.worker v) ∧
      (s.orch.latched = false →
        t.regs = s.regs.withError (BitVec.ofNat 16 ch) 0 2 0x6 (s.worker s.turn).blk ∧
        t.orch = { s.orch with phase := .drain, latched := true }) ∧
      (s.orch.latched = true → t.regs = s.regs ∧ t.orch = s.orch)

/-! ### The other micro-operations -/

/-- R131: HDR_CHECK of a valid header loads the channel's predictor, little-endian, and its index, and moves on; no
register, no memory and no other channel's state changes. -/
def Obligations.HeaderCheckLoadsTheChannel : Prop :=
  ∀ (s : State) (w : WorkerId) (ch : Nat) (rest : List Move),
    s.moves = .agent (.micro w) :: rest → (s.worker w).active = true →
    s.orch.phase = .run ∨ s.orch.phase = .drain → (s.worker w).phase = .hchk ch →
    (∀ j, j < 4 → inAddr s.regs (s.worker w).blk.toNat (4 * ch + j) < 2 ^ 32 ∧
      busOk s.params (inAddr s.regs (s.worker w).blk.toNat (4 * ch + j)) .read = true) →
    (s.mem.read (inAddr s.regs (s.worker w).blk.toNat (4 * ch + 2))).toNat ≤ 88 →
    s.mem.read (inAddr s.regs (s.worker w).blk.toNat (4 * ch + 3)) = 0 →
    step s = .next { s with
      moves := rest
      turn := w
      workers := s.workers.set w ((s.worker w).after s.regs ((s.worker w).cs.set ch
        { pred := s.mem.read (inAddr s.regs (s.worker w).blk.toNat (4 * ch + 1)) ++
            s.mem.read (inAddr s.regs (s.worker w).blk.toNat (4 * ch))
          idx := (s.mem.read (inAddr s.regs (s.worker w).blk.toNat (4 * ch + 2))).setWidth 7 })) }

/-- R131, R196, R253: HDR_CHECK of an invalid header halts its worker and writes no memory; as the first error it records
MALFORMED_BLOCK_HEADER with subcode 1 and the index byte when that exceeds 88, else subcode 2 and the reserved byte, with
channel and block, and starts the drain; a later one is not recorded. That the halted worker keeps its other cursor
fields and its ChannelStates is deduced (log 30). -/
def Obligations.HeaderCheckRaisesMalformed : Prop :=
  ∀ (s : State) (w : WorkerId) (ch : Nat) (rest : List Move) (sub : BitVec 4) (byte : Byte),
    s.moves = .agent (.micro w) :: rest → (s.worker w).active = true →
    s.orch.phase = .run ∨ s.orch.phase = .drain → (s.worker w).phase = .hchk ch →
    (∀ j, j < 4 → inAddr s.regs (s.worker w).blk.toNat (4 * ch + j) < 2 ^ 32 ∧
      busOk s.params (inAddr s.regs (s.worker w).blk.toNat (4 * ch + j)) .read = true) →
    (88 < (s.mem.read (inAddr s.regs (s.worker w).blk.toNat (4 * ch + 2))).toNat ∧ sub = 1 ∧
        byte = s.mem.read (inAddr s.regs (s.worker w).blk.toNat (4 * ch + 2))) ∨
      ((s.mem.read (inAddr s.regs (s.worker w).blk.toNat (4 * ch + 2))).toNat ≤ 88 ∧ sub = 2 ∧
        byte = s.mem.read (inAddr s.regs (s.worker w).blk.toNat (4 * ch + 3)) ∧ byte ≠ 0) →
    ∃ t : State, step s = .next t ∧ t.mem = s.mem ∧ t.moves = rest ∧
      (∀ v, t.worker v = if v = w then { s.worker w with active := false } else s.worker v) ∧
      (s.orch.latched = false →
        t.regs = s.regs.withError (BitVec.ofNat 16 ch) byte sub 0x1 (s.worker w).blk ∧
        t.orch = { s.orch with phase := .drain, latched := true }) ∧
      (s.orch.latched = true → t.regs = s.regs ∧ t.orch = s.orch)

/-- R132, R194: HDR_WRITE writes Norm of the header predictor to slot `obase` of its channel, and moves on, to the successor
or the block end; no register changes. R271, R196, R253: if the write gets an error response nothing is written, the
worker halts, and as the first error BUS_ERROR subcode 2 is recorded and the drain starts; a later one is not recorded.
That a halted worker, or one that the block end stops, keeps its other cursor fields and its ChannelStates is deduced
(log 30), and that ChannelStates keep their values when it starts the next block is the model's choice (log 36). -/
def Obligations.HeaderWriteStoresThePredictor : Prop :=
  ∀ (s : State) (w : WorkerId) (ch : Nat) (rest : List Move),
    s.moves = .agent (.micro w) :: rest → (s.worker w).active = true →
    s.orch.phase = .run ∨ s.orch.phase = .drain → (s.worker w).phase = .hwr ch →
    outAddr s.regs ch (s.worker w).obase.toNat + 4 ≤ 2 ^ 32 →
    (busOk s.params (outAddr s.regs ch (s.worker w).obase.toNat) .write = true →
      step s = .next { s with
        moves := rest
        turn := w
        mem := s.mem.write32 (outAddr s.regs ch (s.worker w).obase.toNat) (normWord ((s.worker w).chan ch).pred)
        workers := s.workers.set w ((s.worker w).after s.regs (s.worker w).cs) }) ∧
    (busOk s.params (outAddr s.regs ch (s.worker w).obase.toNat) .write = false →
      ∃ t : State, step s = .next t ∧ t.mem = s.mem ∧
        (∀ v, t.worker v = if v = w then { s.worker w with active := false } else s.worker v) ∧
        (s.orch.latched = false →
          t.regs = s.regs.withError (BitVec.ofNat 16 ch) 0 2 0x6 (s.worker w).blk ∧
          t.orch = { s.orch with phase := .drain, latched := true }) ∧
        (s.orch.latched = true → t.regs = s.regs ∧ t.orch = s.orch))

/-- R271, R196: a header read or body read that gets an error response reads no data: the worker halts with its
ChannelState as it was, memory is unchanged, and as the first error BUS_ERROR subcode 1 is recorded with channel and
block and the drain starts. That a bus error of any header byte comes before the header's tests, and that the halted
worker keeps its other cursor fields, is deduced (logs 16, 30). -/
def Obligations.ReadsRaiseBusError : Prop :=
  ∀ (s : State) (w : WorkerId) (ch a : Nat) (rest : List Move),
    s.moves = .agent (.micro w) :: rest → (s.worker w).active = true →
    s.orch.phase = .run ∨ s.orch.phase = .drain →
    ((s.worker w).phase = .hchk ch ∧
        (∀ j, j < 4 → inAddr s.regs (s.worker w).blk.toNat (4 * ch + j) < 2 ^ 32) ∧
        ∃ j, j < 4 ∧ a = inAddr s.regs (s.worker w).blk.toNat (4 * ch + j)) ∨
      (∃ g b h, (s.worker w).phase = .body g ch b h ∧
        a = inAddr s.regs (s.worker w).blk.toNat (bodyByte s.regs g ch b) ∧ a < 2 ^ 32) →
    busOk s.params a .read = false →
    ∃ t : State, step s = .next t ∧ t.mem = s.mem ∧
      (∀ v, t.worker v = if v = w then { s.worker w with active := false } else s.worker v) ∧
      (s.orch.latched = false →
        t.regs = s.regs.withError (BitVec.ofNat 16 ch) 0 1 0x6 (s.worker w).blk ∧
        t.orch = { s.orch with phase := .drain, latched := true }) ∧
      (s.orch.latched = true → t.regs = s.regs ∧ t.orch = s.orch)

/-- R130, R205: the successor of a phase is the next one in the order headers checked, headers written, bodies by group,
channel, byte and half; it stays in range; and the block is finished exactly after its C * (2 + 8 * chunkCount)-th
micro-operation. -/
def Obligations.MicroOperationsGoInOrder : Prop :=
  ∀ (c chunks : Nat) (ph : CursorPhase), 1 ≤ c → ph.ok c chunks →
    ph.rank c < c * (2 + 8 * chunks) ∧
    (∀ ph', nextPhase c chunks ph = some ph' → ph'.ok c chunks ∧ ph'.rank c = ph.rank c + 1) ∧
    (nextPhase c chunks ph = none ↔ ph.rank c + 1 = c * (2 + 8 * chunks))

/-- R139: within a block every slot after the header's is written by exactly one nibble `(g, b, h)`. -/
def Obligations.SlotsOfABlockAreWrittenOnce : Prop :=
  ∀ (chunks obase i : Nat), obase < i → i < obase + 1 + 8 * chunks →
    ∃ g b h, (g < chunks ∧ b < 4 ∧ h < 2 ∧ bodySlot obase g b h = i) ∧
      ∀ g' b' h', b' < 4 → h' < 2 → bodySlot obase g' b' h' = i → g' = g ∧ b' = b ∧ h' = h

/-! ### The orchestrator -/

/-- R191: in FILL, with tail slots left, the orchestrator's step writes +0.0 to the slot at the cursor and moves the
cursor, the slots of a channel inside and the channels outside. -/
def Obligations.FillWritesTheNextTailSlot : Prop :=
  ∀ (s : State) (rest : List Move),
    s.moves = .agent .orch :: rest → s.orch.phase = .fill → s.orch.fillCh < s.regs.c →
    s.orch.fillI < totalSamples s.regs → outAddr s.regs s.orch.fillCh s.orch.fillI + 4 ≤ 2 ^ 32 →
    (busOk s.params (outAddr s.regs s.orch.fillCh s.orch.fillI) .write = true →
      step s = .next { s with
        moves := rest
        mem := s.mem.write32 (outAddr s.regs s.orch.fillCh s.orch.fillI) 0x00000000
        orch := if s.orch.fillI + 1 < totalSamples s.regs then { s.orch with fillI := s.orch.fillI + 1 }
          else { s.orch with fillCh := s.orch.fillCh + 1, fillI := blockCount s.regs * spb s.regs } }) ∧
    (busOk s.params (outAddr s.regs s.orch.fillCh s.orch.fillI) .write = false → s.orch.latched = false →
      step s = .next { s with
        moves := rest
        regs := s.regs.withError (BitVec.ofNat 16 s.orch.fillCh) 0 2 0x6 0xFFFFFFFF
        orch := { s.orch with phase := .drain, latched := true } })

/-- R175, R192: in FILL, with no tail slot left, the orchestrator's step starts every worker `i < W` whose range
`[i*q, min((i+1)*q, BlockCount))`, q = ceil(BlockCount / W), is not empty, on its first block at output base `k * SPB`;
the others stay as they are; the phase is RUN. That a started worker's ChannelStates keep their values until the headers
load them is the model's choice (log 36). -/
def Obligations.DispatchStartsTheRanges : Prop :=
  ∀ (s : State) (rest : List Move),
    s.moves = .agent .orch :: rest → s.orch.phase = .fill →
    ¬(s.orch.fillCh < s.regs.c ∧ s.orch.fillI < totalSamples s.regs) →
    ∃ t : State, step s = .next t ∧ t.params = s.params ∧ t.regs = s.regs ∧ t.mem = s.mem ∧ t.earlier = s.earlier ∧
      t.duties = s.duties ∧
      t.orch = { s.orch with phase := .run } ∧
      ∀ w : WorkerId,
        let q := (blockCount s.regs + s.orch.w.toNat - 1) / s.orch.w.toNat
        let first := w.num * q
        let last := min ((w.num + 1) * q) (blockCount s.regs)
        t.worker w =
          if w.num < s.orch.w.toNat ∧ first < last then
            { s.worker w with
              active := true, kind := .stream, stop := BitVec.ofNat 33 last, blk := BitVec.ofNat 32 first
              obase := BitVec.ofNat 32 (first * spb s.regs), phase := .hchk 0 }
          else s.worker w

/-- R195, and R83 (a): the join. In RUN with nothing latched and no worker active the orchestrator's step sets DONE, clears
BUSY, writes NEXT_OFFSET and goes IDLE, and every write of the block is visible to the host; memory and workers are
unchanged. -/
def Obligations.JoinCompletesTheCommand : Prop :=
  ∀ (s : State) (rest : List Move),
    s.moves = .agent .orch :: rest → s.orch.phase = .run → s.orch.latched = false →
    (∀ w, (s.worker w).active = false) →
    step s = .next { s with
      moves := rest
      earlier := []
      orch := { s.orch with phase := .idle }
      regs := { s.regs with
        status := { s.regs.status with busy := false, done := true }
        nextOffset := BitVec.ofNat 32 (match s.orch.kind with
          | .stream => blockCount s.regs * spb s.regs
          | .single => s.regs.outOffset.toNat + spb s.regs) } }

/-- R198, and R83 (a): in DRAIN with no worker active the orchestrator's step ends the failed command, and every write of
the block is visible to the host; NEXT_OFFSET is not written. -/
def Obligations.DrainCompletesTheFailedCommand : Prop :=
  ∀ (s : State) (rest : List Move),
    s.moves = .agent .orch :: rest → s.orch.phase = .drain → (∀ w, (s.worker w).active = false) →
    step s = .next { s with
      moves := rest
      earlier := []
      orch := { s.orch with phase := .idle, latched := false }
      regs := { s.regs with
        status := { s.regs.status with busy := false, drain := false, done := true, err := true } } }

/-- R193, R197: which agent steps are enabled. In RUN an active worker has its micro-operation and no halt step, in DRAIN
both, in other phases none; the orchestrator has its step in FILL, and in RUN and DRAIN only when no worker is active; a
halt step stops its worker and changes nothing else. That the halted worker keeps its other cursor fields and its
ChannelStates is deduced (log 30). -/
def Obligations.EnabledStepsOfTheAgents : Prop :=
  ∀ s : State, Inv s →
    (∀ w, AgentMove.micro w ∈ enabledMoves s ↔
      (s.worker w).active = true ∧ (s.orch.phase = .run ∨ s.orch.phase = .drain)) ∧
    (∀ w, AgentMove.halt w ∈ enabledMoves s ↔ (s.worker w).active = true ∧ s.orch.phase = .drain) ∧
    (AgentMove.orch ∈ enabledMoves s ↔
      s.orch.phase = .fill ∨
      ((s.orch.phase = .run ∨ s.orch.phase = .drain) ∧ ∀ w, (s.worker w).active = false)) ∧
    (∀ w, AgentMove.halt w ∈ enabledMoves s →
      agentStep (.halt w) s =
        .next { s with workers := s.workers.set w { s.worker w with active := false } })

/-! ### Partition and addresses -/

/-- R175: the ranges of the workers are pairwise disjoint and their union is [0, BlockCount): every block has exactly one
worker, and every number in a worker's range is a block. -/
def Obligations.RangesPartitionTheBlocks : Prop :=
  ∀ (blocks w k : Nat), 1 ≤ w →
    (k < blocks →
      ∃ i, (i < w ∧ rangeStart blocks w i ≤ k ∧ k < rangeEnd blocks w i) ∧
        ∀ i', rangeStart blocks w i' ≤ k → k < rangeEnd blocks w i' → i' = i) ∧
    ∀ i, rangeStart blocks w i ≤ k → k < rangeEnd blocks w i → k < blocks

/-- R174, R177: the slots of all blocks fit the buffer; for a block-aligned stream its length is
`BlockCount * 8 * (1 + chunkCount)`, which leaves a tail of `7 * BlockCount` slots. -/
def Obligations.BlocksFitTheBuffer : Prop :=
  ∀ (p : Params) (r : Regs), shapeOK p r = true →
    blockCount r * spb r ≤ totalSamples r ∧
    (r.len % r.bs = 0 →
      totalSamples r = blockCount r * 8 * (1 + chunkCount r) ∧
      totalSamples r = blockCount r * spb r + 7 * blockCount r) ∧
    ∀ k k' i i', k ≠ k' → i < spb r → i' < spb r → k * spb r + i ≠ k' * spb r + i'

/-- R74, R75, R80, R81: for a configuration a command was accepted with, slot addresses are word-aligned and inside memory,
different slots do not share a byte, and no slot shares a byte with the input region. -/
def Obligations.OutputSlotsAreDisjoint : Prop :=
  ∀ (p : Params) (r : Regs) (kind : Kind), checkConfig p r kind = none →
    ∀ c i, c < r.c → i < r.outLen.toNat →
      outAddr r c i % 4 = 0 ∧ outAddr r c i + 4 ≤ 2 ^ 32 ∧
      (∀ a, inInRgn r a = true → a < outAddr r c i ∨ outAddr r c i + 4 ≤ a) ∧
      ∀ c' i', c' < r.c → i' < r.outLen.toNat → (c, i) ≠ (c', i') →
        outAddr r c i + 4 ≤ outAddr r c' i' ∨ outAddr r c' i' + 4 ≤ outAddr r c i

/-- R72 (b): a word is stored little-endian, and reads back. R74, R83: the host reads it back too. A host load of a word
changes no memory and gives the whole word of memory or of memory as it stood at an acceptance since the last DONE; where
these agree, and once DONE is set, it gives the word of memory. A host load of a byte does the same for its byte. The widths
of these loads, that the word goes to `rdata`, and how the choice is held are the model's (logs 14, 22, 34); that the
DONE of a refused command counts is deduced (log 35). -/
def Obligations.WordsAreLittleEndian : Prop :=
  (∀ (m : Memory) (a : Nat) (w : Word), m.wf = true → a + 4 ≤ 2 ^ 32 →
    (m.write32 a w).read a = w.extractLsb' 0 8 ∧ (m.write32 a w).read (a + 1) = w.extractLsb' 8 8 ∧
    (m.write32 a w).read (a + 2) = w.extractLsb' 16 8 ∧ (m.write32 a w).read (a + 3) = w.extractLsb' 24 8 ∧
    (m.write32 a w).read32 a = w) ∧
  (∀ (s : State) (n : BitVec 30) (rest : List Move), s.moves = .loadWord n :: rest →
    ∃ v : Word, step s = .next { s with moves := rest, rdata := v, tick := s.tick + 1 } ∧
      (v = s.mem.read32 (4 * n.toNat) ∨ ∃ m ∈ s.earlier, v = m.read32 (4 * n.toNat)) ∧
      ((∀ m ∈ s.earlier, m.read32 (4 * n.toNat) = s.mem.read32 (4 * n.toNat)) ∨ (Inv s ∧ s.regs.status.done = true) →
        v = s.mem.read32 (4 * n.toNat))) ∧
  ∀ (s : State) (a : BitVec 32) (rest : List Move), s.moves = .load a :: rest →
    ∃ b : Byte, step s = .next { s with moves := rest, rdata := b.setWidth 32, tick := s.tick + 1 } ∧
      (b = s.mem.read a.toNat ∨ ∃ m ∈ s.earlier, b = m.read a.toNat) ∧
      ((∀ m ∈ s.earlier, m.read a.toNat = s.mem.read a.toNat) ∨ (Inv s ∧ s.regs.status.done = true) →
        b = s.mem.read a.toNat)

/-! ### Whole-machine rules -/

/-- Every step keeps the invariant: memory canonical, and wholly visible to the host with DONE set, ChannelState and
cursors in range, BUSY and DRAIN as the phase says, the running configuration still accepted, every active worker in its
own range (R24, R26, R27, R51, R83, R144, R175). That the DONE of a refused command makes visible the writes of a command
that a reset ended is deduced (log 35), and that ChannelStates stay in range between two blocks, where R25 leaves them
unspecified, rests on the model's choice to keep them (log 36). -/
def Obligations.EveryStepKeepsTheInvariant : Prop :=
  ∀ s t : State, Inv s → step s = .next t → Inv t

/-- From a state of the invariant a step never faults, and is refused only at a host store, while a command runs, into a
region of it or of one whose DONE the host has not read, which the host must not do (R82, R204; log 13). A host store that
goes on writes its byte and changes nothing else where it breaks no duty of R82, as when the host has read DONE = 1 with
BUSY = 0 since the last acceptance. One that breaks a duty goes on while IDLE only (log 13). R82 leaves the output words
and the recorded error of the commands concerned unspecified then, and this statement says nothing of them; that such a
store changes no status bit, and no byte outside those words but its own, is deduced, the model's and not the rule's
(log 37). -/
def Obligations.EveryStepGoesOn : Prop :=
  (∀ s : State, Inv s →
    (∃ t, step s = .next t) ∨
    (step s = .refused .hostWritesRegionWhileBusy ∧ s.orch.phase ≠ .idle ∧
      ∃ a b rest, s.moves = .store a b :: rest ∧
        (inInRgn s.regs a.toNat = true ∨ inOutRgn s.regs a.toNat = true ∨
          ∃ d ∈ s.duties, d.covers a.toNat = true))) ∧
  ∀ (s t : State) (a : BitVec 32) (b : Byte) (rest : List Move),
    Inv s → s.moves = .store a b :: rest → step s = .next t →
    t.regs.status = s.regs.status ∧
    ((∀ d ∈ s.duties, d.covers a.toNat = false) →
      t = { s with
        moves := rest
        mem := s.mem.write a.toNat b
        earlier := s.earlier.map (·.write a.toNat b) }) ∧
    ((∃ d ∈ s.duties, d.covers a.toNat = true) → s.orch.phase = .idle) ∧
    ∀ c, (∀ d ∈ s.duties, d.covers a.toNat = true → ∀ x ∈ d.outputs, c < x ∨ x + 4 ≤ c) →
      t.mem.read c = if c = a.toNat then b else s.mem.read c

/-- R51: while BUSY no step changes a configuration register, but a reset. -/
def Obligations.ConfigurationIsLockedWhileBusy : Prop :=
  ∀ s t : State, s.regs.status.busy = true → step s = .next t →
    t.params = s.params ∧ (t.regs.config = s.regs.config ∨ (resetsNext s ∧ t.regs = Regs.reset))

/-- R190: the phases go IDLE, FILL, RUN, IDLE, through DRAIN on an error or abort; IDLE is left only by acceptance of
DECODE, to FILL, or of DECODE_BLOCK, to RUN; and it is entered only by a completion, which sets DONE, or by a reset. -/
def Obligations.PhasesGoAsTheRuleSays : Prop :=
  ∀ s t : State, Inv s → step s = .next t → t.orch.phase ≠ s.orch.phase →
    (s.orch.phase = .idle →
      ∃ cw rest, s.moves = .busWrite (s.params.regBase + 0x08) .word cw :: rest ∧
        ((t.orch.phase = .fill ∧ ∃ w, decodeCmd cw = .instr (.decode w)) ∨
          (t.orch.phase = .run ∧ decodeCmd cw = .instr .decodeBlock))) ∧
    (s.orch.phase = .fill →
      t.orch.phase = .run ∨ t.orch.phase = .drain ∨
      (t.orch.phase = .idle ∧ resetsNext s ∧ t.regs = Regs.reset)) ∧
    (s.orch.phase = .run →
      t.orch.phase = .drain ∨
      (t.orch.phase = .idle ∧
        ((t.regs.status.done = true ∧ t.regs.status.err = false ∧ ∀ w, (s.worker w).active = false) ∨
          (resetsNext s ∧ t.regs = Regs.reset)))) ∧
    (s.orch.phase = .drain →
      t.orch.phase = .idle ∧
        ((t.regs.status.done = true ∧ t.regs.status.err = true ∧ ∀ w, (s.worker w).active = false) ∨
          (resetsNext s ∧ t.regs = Regs.reset)))

/-- R196 (c), R261: once an error is latched no step changes ERR_INFO or ERR_BLOCK, but a reset. -/
def Obligations.OnlyTheFirstErrorIsRecorded : Prop :=
  ∀ s t : State, Inv s → s.orch.phase = .drain → step s = .next t →
    (t.regs.errInfo = s.regs.errInfo ∧ t.regs.errBlock = s.regs.errBlock) ∨ (resetsNext s ∧ t.regs = Regs.reset)

/-- R203: a worker's micro-operation changes no other worker's cursor or ChannelState. -/
def Obligations.WorkersDoNotTouchEachOther : Prop :=
  ∀ (s t : State) (w v : WorkerId), agentStep (.micro w) s = .next t → v ≠ w → t.worker v = s.worker v

/-- R71, R200 (c): no step of an agent of the block writes a byte of memory outside the output slots of the
configuration. -/
def Obligations.AgentsWriteOnlyOutputSlots : Prop :=
  ∀ (s t : State) (x : AgentMove) (a : Nat), Inv s → agentStep x s = .next t → ¬isSlotByte s.regs a →
    t.mem.read a = s.mem.read a

/-- R139, R141, R191 to R194: every step keeps what a running command has written right: the samples of every active
worker are those of the block function, so are the blocks a worker has passed, and the tail is +0.0 as far as it is
filled. -/
def Obligations.EveryStepKeepsTheOutputRight : Prop :=
  ∀ s t : State, Inv s → OutputInv s → step s = .next t → OutputInv t

/-- R195, R202, R178: when a DECODE reaches its join with nothing latched, every block of the stream had valid headers, and
every slot of every channel buffer holds the word of the block function, or +0.0 in the tail, whatever W and the
interleaving were. -/
def Obligations.JoinedDecodeHasWrittenTheStream : Prop :=
  ∀ s : State, Inv s → OutputInv s → s.orch.phase = .run → s.orch.kind = .stream →
    (∀ w, (s.worker w).active = false) →
    (∀ k, k < blockCount s.regs → blockFault s.mem s.regs k = none) ∧
    ∀ c i, c < s.regs.c → i < s.regs.outLen.toNat →
      slotWord s.mem s.regs c i = streamWord s.mem s.regs c i

/-- R140, R143, R201: when a DECODE_BLOCK reaches its join with nothing latched, block BLK_INDEX decoded and its words are
those of the block function at OUT_OFFSET: the same the block has in a stream. -/
def Obligations.JoinedDecodeBlockHasWrittenItsBlock : Prop :=
  ∀ s : State, Inv s → OutputInv s → s.orch.phase = .run → s.orch.kind = .single →
    (s.worker .w0).active = false →
    decodeBlock s.mem s.regs s.regs.blkIndex.toNat =
      .ok ((List.range s.regs.c).map fun c => (List.range (spb s.regs)).map fun i =>
        slotWord s.mem s.regs c (s.regs.outOffset.toNat + i))

/-- R200 (a): a step while a command runs leaves every output slot as it was, or with the word a successful run would leave
there. -/
def Obligations.SlotsHoldOldOrSuccessWords : Prop :=
  ∀ (s t : State) (c i : Nat), Inv s → OutputInv s → s.orch.phase ≠ .idle → step s = .next t →
    c < s.regs.c → i < s.regs.outLen.toNat →
    slotWord t.mem s.regs c i = slotWord s.mem s.regs c i ∨ some (slotWord t.mem s.regs c i) = successWord s c i

/-- R202, R145: two DECODEs of the same input bytes and configuration, with any worker counts and any interleavings, that
both reach their join leave the same word in every slot. -/
def Obligations.JoinedDecodesAgree : Prop :=
  ∀ s t : State, Inv s → OutputInv s → Inv t → OutputInv t →
    s.orch.phase = .run → s.orch.kind = .stream → (∀ w, (s.worker w).active = false) →
    t.orch.phase = .run → t.orch.kind = .stream → (∀ w, (t.worker w).active = false) →
    t.regs.config = s.regs.config → (∀ a, inInRgn s.regs a = true → t.mem.read a = s.mem.read a) →
    ∀ c i, c < s.regs.c → i < s.regs.outLen.toNat → slotWord t.mem t.regs c i = slotWord s.mem s.regs c i

/-- R205: while a command runs and no outside move is pending, every step of the block, whichever agent takes it, leaves
less to do; and within `stepsLeft` steps the command completes. -/
def Obligations.WorkRunsDown : Prop :=
  ∀ s : State, Inv s → s.moves = [] → s.orch.phase ≠ .idle →
    (∃ t, step s = .next t ∧ t.moves = [] ∧ stepsLeft t < stepsLeft s) ∧
    ∃ (n : Nat) (t : State), n ≤ stepsLeft s ∧ Host.Core.run Sys2Proof.core n s = .next t ∧
      t.orch.phase = .idle ∧ t.regs.status.busy = false ∧ t.regs.status.done = true
end

