-- ==== Sys2Proof/Laws/Memory.lean ====
section
/-! SUPPORT. The laws of system memory: what a read gives after a write, and that every operation keeps the canonical
form. -/

namespace Sys2Proof.Machine

theorem Memory.read_cons (a c : Nat) (b : Byte) (m : Memory) (h : m.read a = Memory.unlisted) :
    (Memory.cons a b m).read c = if c = a then b else m.read c := by
  unfold Memory.cons
  split
  · split
    · subst c b; exact h
    · rfl
  · simp [Memory.read]

/-- Below the least listed address every byte reads as unlisted. -/
theorem Memory.read_below {m : Memory} {lo a : Nat} (hw : Memory.wfFrom lo m = true) (h : a < lo) :
    m.read a = Memory.unlisted := by
  induction m generalizing lo with
  | nil => rfl
  | cons e m ih =>
    obtain ⟨k, v⟩ := e
    simp only [Memory.wfFrom, Bool.and_eq_true, decide_eq_true_eq] at hw
    simp only [Memory.read]
    rw [if_neg (by omega)]
    exact ih hw.2 (by omega)

theorem Memory.wfFrom_mono {m : Memory} {lo hi : Nat} (h : lo ≤ hi) (hw : Memory.wfFrom hi m = true) :
    Memory.wfFrom lo m = true := by
  cases m with
  | nil => rfl
  | cons e m =>
    obtain ⟨k, v⟩ := e
    simp only [Memory.wfFrom, Bool.and_eq_true, decide_eq_true_eq] at hw ⊢
    exact ⟨⟨by omega, hw.1.2⟩, hw.2⟩

theorem Memory.wfFrom_cons {m : Memory} {lo a : Nat} {b : Byte} (ha : lo ≤ a) (hs : a < Memory.size)
    (hw : Memory.wfFrom (a + 1) m = true) : Memory.wfFrom lo (Memory.cons a b m) = true := by
  unfold Memory.cons
  split
  · exact Memory.wfFrom_mono (by omega) hw
  · simp only [Memory.wfFrom, Bool.and_eq_true, decide_eq_true_eq]
    exact ⟨⟨ha, hs, by assumption⟩, hw⟩

theorem Memory.wfFrom_write {m : Memory} {lo a : Nat} (b : Byte) (ha : lo ≤ a) (hs : a < Memory.size)
    (hw : Memory.wfFrom lo m = true) : Memory.wfFrom lo (m.write a b) = true := by
  induction m generalizing lo with
  | nil => exact Memory.wfFrom_cons ha hs rfl
  | cons e m ih =>
    obtain ⟨k, v⟩ := e
    have hw' := hw
    simp only [Memory.wfFrom, Bool.and_eq_true, decide_eq_true_eq] at hw'
    simp only [Memory.write]
    split
    · refine Memory.wfFrom_cons ha hs ?_
      simp only [Memory.wfFrom, Bool.and_eq_true, decide_eq_true_eq]
      exact ⟨⟨by omega, hw'.1.2⟩, hw'.2⟩
    · split
      · subst a; exact Memory.wfFrom_cons ha hs hw'.2
      · simp only [Memory.wfFrom, Bool.and_eq_true, decide_eq_true_eq]
        exact ⟨hw'.1, ih (by omega) hw'.2⟩

theorem Memory.read_write_from {m : Memory} {lo : Nat} (a c : Nat) (b : Byte) (hw : Memory.wfFrom lo m = true) :
    (m.write a b).read c = if c = a then b else m.read c := by
  induction m generalizing lo with
  | nil => exact Memory.read_cons a c b [] rfl
  | cons e m ih =>
    obtain ⟨k, v⟩ := e
    have hw' := hw
    simp only [Memory.wfFrom, Bool.and_eq_true, decide_eq_true_eq] at hw'
    simp only [Memory.write]
    split
    · rename_i hlt
      refine Memory.read_cons a c b _ ?_
      simp only [Memory.read]
      rw [if_neg (by omega)]
      exact Memory.read_below hw'.2 (by omega)
    · split
      · subst a
        rw [Memory.read_cons _ _ _ _ (Memory.read_below hw'.2 (by omega))]
        simp only [Memory.read]
        split <;> rfl
      · simp only [Memory.read, ih hw'.2]
        split <;> split <;> first | rfl | omega

/-- A write of one byte keeps the canonical form. -/
theorem Memory.wf_write {m : Memory} {a : Nat} (b : Byte) (hs : a < Memory.size) (hw : m.wf = true) :
    (m.write a b).wf = true := Memory.wfFrom_write b (Nat.zero_le _) hs hw

/-- Reading after a write of one byte: the byte written there, and elsewhere what was there. -/
theorem Memory.read_write {m : Memory} (a c : Nat) (b : Byte) (hw : m.wf = true) :
    (m.write a b).read c = if c = a then b else m.read c := Memory.read_write_from a c b hw

/-- A write of one word keeps the canonical form. -/
theorem Memory.wf_write32 {m : Memory} {a : Nat} (w : Word) (hs : a + 4 ≤ Memory.size) (hw : m.wf = true) :
    (m.write32 a w).wf = true := by
  unfold Memory.write32
  exact Memory.wf_write _ (by omega) (Memory.wf_write _ (by omega) (Memory.wf_write _ (by omega)
    (Memory.wf_write _ (by omega) hw)))

/-- Reading after a write of one word: its four bytes, the least significant at the lowest address, and elsewhere what
was there. -/
theorem Memory.read_write32 {m : Memory} {a : Nat} (c : Nat) (w : Word) (hs : a + 4 ≤ Memory.size) (hw : m.wf = true) :
    (m.write32 a w).read c =
      if c = a then w.extractLsb' 0 8 else if c = a + 1 then w.extractLsb' 8 8
      else if c = a + 2 then w.extractLsb' 16 8 else if c = a + 3 then w.extractLsb' 24 8 else m.read c := by
  have h1 := Memory.wf_write (w.extractLsb' 0 8) (by omega : a < Memory.size) hw
  have h2 := Memory.wf_write (w.extractLsb' 8 8) (by omega : a + 1 < Memory.size) h1
  have h3 := Memory.wf_write (w.extractLsb' 16 8) (by omega : a + 2 < Memory.size) h2
  unfold Memory.write32
  rw [Memory.read_write _ _ _ h3, Memory.read_write _ _ _ h2, Memory.read_write _ _ _ h1, Memory.read_write _ _ _ hw]
  repeat' split
  all_goals first | rfl | omega

/-- A write of one word leaves every byte outside its four alone. -/
theorem Memory.read_write32_outside {m : Memory} {a c : Nat} (w : Word) (hs : a + 4 ≤ Memory.size) (hw : m.wf = true)
    (hc : c < a ∨ a + 4 ≤ c) : (m.write32 a w).read c = m.read c := by
  rw [Memory.read_write32 _ _ hs hw]
  repeat' split
  all_goals first | rfl | omega

/-- The host's bytes of a MEM line keep the canonical form. -/
theorem Memory.wf_writeBytes {m : Memory} {a : Nat} (bs : List Byte) (hs : a + bs.length ≤ Memory.size)
    (hw : m.wf = true) : (m.writeBytes a bs).wf = true := by
  induction bs generalizing m a with
  | nil => exact hw
  | cons b bs ih =>
    simp only [List.length_cons] at hs
    exact ih (by omega) (Memory.wf_write b (by omega) hw)

/-- Reset memory has the canonical form. -/
theorem Memory.wf_reset (p : Params) : (State.resetWith p).mem.wf = true := rfl

end Sys2Proof.Machine
end

