-- ==== Sys2Proof/Laws/State.lean ====
section
/-! SUPPORT. One small lemma per field per update, so that no proof unfolds a record update. -/

namespace Sys2Proof.Machine

/-! ### Workers -/

@[simp] theorem Workers.get_set_same (ws : Workers) (w : WorkerId) (x : Worker) : (ws.set w x).get w = x := by
  cases w <;> rfl

@[simp] theorem Workers.get_set_ne (ws : Workers) {w v : WorkerId} (x : Worker) (h : v ≠ w) :
    (ws.set w x).get v = ws.get v := by
  cases w <;> cases v <;> first | rfl | exact absurd rfl h

@[simp] theorem Workers.get_map (ws : Workers) (f : WorkerId → Worker → Worker) (w : WorkerId) :
    (ws.map f).get w = f w (ws.get w) := by
  cases w <;> rfl

theorem Workers.get_set (ws : Workers) (w v : WorkerId) (x : Worker) :
    (ws.set w x).get v = if v = w then x else ws.get v := by
  split
  · subst v; simp
  · simp [*]

@[simp] theorem State.worker_mk (p : Params) (r : Regs) (o : Orch) (ws : Workers) (m : Memory) (ml : List Memory) (dl : List Duty) (u : WorkerId)
    (mv : List Move) (k : Nat) (d : Word) (w : WorkerId) : State.worker ⟨p, r, o, ws, m, ml, dl, u, mv, k, d⟩ w = ws.get w := rfl

@[simp] theorem State.get_workers (s : State) (w : WorkerId) : s.workers.get w = s.worker w := rfl

section setWorker
variable (s : State) (w : WorkerId) (x : Worker)

@[simp] theorem State.setWorker_params : (s.setWorker w x).params = s.params := rfl
@[simp] theorem State.setWorker_regs : (s.setWorker w x).regs = s.regs := rfl
@[simp] theorem State.setWorker_orch : (s.setWorker w x).orch = s.orch := rfl
@[simp] theorem State.setWorker_mem : (s.setWorker w x).mem = s.mem := rfl
@[simp] theorem State.setWorker_earlier : (s.setWorker w x).earlier = s.earlier := rfl
@[simp] theorem State.setWorker_duties : (s.setWorker w x).duties = s.duties := rfl
@[simp] theorem State.setWorker_turn : (s.setWorker w x).turn = s.turn := rfl
@[simp] theorem State.setWorker_moves : (s.setWorker w x).moves = s.moves := rfl
@[simp] theorem State.setWorker_tick : (s.setWorker w x).tick = s.tick := rfl
@[simp] theorem State.setWorker_rdata : (s.setWorker w x).rdata = s.rdata := rfl
@[simp] theorem State.worker_setWorker_same : (s.setWorker w x).worker w = x := Workers.get_set_same _ _ _
@[simp] theorem State.worker_setWorker_ne {v : WorkerId} (h : v ≠ w) :
    (s.setWorker w x).worker v = s.worker v := Workers.get_set_ne _ _ h

theorem State.worker_setWorker (v : WorkerId) :
    (s.setWorker w x).worker v = if v = w then x else s.worker v := Workers.get_set _ _ _ _

end setWorker

section haltWorker
variable (s : State) (w : WorkerId)

@[simp] theorem State.haltWorker_params : (s.haltWorker w).params = s.params := rfl
@[simp] theorem State.haltWorker_regs : (s.haltWorker w).regs = s.regs := rfl
@[simp] theorem State.haltWorker_orch : (s.haltWorker w).orch = s.orch := rfl
@[simp] theorem State.haltWorker_mem : (s.haltWorker w).mem = s.mem := rfl
@[simp] theorem State.haltWorker_earlier : (s.haltWorker w).earlier = s.earlier := rfl
@[simp] theorem State.haltWorker_duties : (s.haltWorker w).duties = s.duties := rfl
@[simp] theorem State.haltWorker_turn : (s.haltWorker w).turn = s.turn := rfl
@[simp] theorem State.haltWorker_moves : (s.haltWorker w).moves = s.moves := rfl
@[simp] theorem State.haltWorker_tick : (s.haltWorker w).tick = s.tick := rfl
@[simp] theorem State.haltWorker_rdata : (s.haltWorker w).rdata = s.rdata := rfl

theorem State.worker_haltWorker (v : WorkerId) :
    (s.haltWorker w).worker v = if v = w then { s.worker w with active := false } else s.worker v :=
  State.worker_setWorker _ _ _ _

end haltWorker

section settle
variable (s : State)

@[simp] theorem State.settle_params : s.settle.params = s.params := rfl
@[simp] theorem State.settle_regs : s.settle.regs = s.regs := rfl
@[simp] theorem State.settle_orch : s.settle.orch = s.orch := rfl
@[simp] theorem State.settle_workers : s.settle.workers = s.workers := rfl
@[simp] theorem State.settle_mem : s.settle.mem = s.mem := rfl
@[simp] theorem State.settle_earlier : s.settle.earlier = [] := rfl
@[simp] theorem State.settle_duties : s.settle.duties = s.duties := rfl
@[simp] theorem State.settle_turn : s.settle.turn = s.turn := rfl
@[simp] theorem State.settle_moves : s.settle.moves = s.moves := rfl
@[simp] theorem State.settle_tick : s.settle.tick = s.tick := rfl
@[simp] theorem State.settle_rdata : s.settle.rdata = s.rdata := rfl
@[simp] theorem State.worker_settle (w : WorkerId) : s.settle.worker w = s.worker w := rfl

end settle

section remember
variable (k : Kind) (s : State)

@[simp] theorem State.remember_params : (s.remember k).params = s.params := rfl
@[simp] theorem State.remember_regs : (s.remember k).regs = s.regs := rfl
@[simp] theorem State.remember_orch : (s.remember k).orch = s.orch := rfl
@[simp] theorem State.remember_workers : (s.remember k).workers = s.workers := rfl
@[simp] theorem State.remember_mem : (s.remember k).mem = s.mem := rfl
@[simp] theorem State.remember_earlier : (s.remember k).earlier = s.mem :: s.earlier := rfl
@[simp] theorem State.remember_duties :
    (s.remember k).duties = { kind := k, regs := s.regs } :: s.duties := rfl
@[simp] theorem State.remember_turn : (s.remember k).turn = s.turn := rfl
@[simp] theorem State.remember_moves : (s.remember k).moves = s.moves := rfl
@[simp] theorem State.remember_tick : (s.remember k).tick = s.tick := rfl
@[simp] theorem State.remember_rdata : (s.remember k).rdata = s.rdata := rfl
@[simp] theorem State.worker_remember (w : WorkerId) : (s.remember k).worker w = s.worker w := rfl

end remember

section storeByte
variable (a : Nat) (b : Byte) (s : State)

@[simp] theorem State.storeByte_params : (s.storeByte a b).params = s.params := rfl
@[simp] theorem State.storeByte_regs : (s.storeByte a b).regs = s.regs := rfl
@[simp] theorem State.storeByte_orch : (s.storeByte a b).orch = s.orch := rfl
@[simp] theorem State.storeByte_workers : (s.storeByte a b).workers = s.workers := rfl
@[simp] theorem State.storeByte_mem : (s.storeByte a b).mem = s.mem.write a b := rfl
@[simp] theorem State.storeByte_earlier : (s.storeByte a b).earlier = s.earlier.map (·.write a b) := rfl
@[simp] theorem State.storeByte_duties : (s.storeByte a b).duties = s.duties := rfl
@[simp] theorem State.storeByte_turn : (s.storeByte a b).turn = s.turn := rfl
@[simp] theorem State.storeByte_moves : (s.storeByte a b).moves = s.moves := rfl
@[simp] theorem State.storeByte_tick : (s.storeByte a b).tick = s.tick := rfl
@[simp] theorem State.storeByte_rdata : (s.storeByte a b).rdata = s.rdata := rfl

end storeByte

section acknowledge
variable (a : Nat) (z : AccSize) (s : State)

@[simp] theorem acknowledge_params : (acknowledge a z s).params = s.params := by unfold acknowledge; split <;> rfl
@[simp] theorem acknowledge_regs : (acknowledge a z s).regs = s.regs := by unfold acknowledge; split <;> rfl
@[simp] theorem acknowledge_orch : (acknowledge a z s).orch = s.orch := by unfold acknowledge; split <;> rfl
@[simp] theorem acknowledge_workers : (acknowledge a z s).workers = s.workers := by unfold acknowledge; split <;> rfl
@[simp] theorem acknowledge_mem : (acknowledge a z s).mem = s.mem := by unfold acknowledge; split <;> rfl
@[simp] theorem acknowledge_earlier : (acknowledge a z s).earlier = s.earlier := by unfold acknowledge; split <;> rfl
@[simp] theorem acknowledge_turn : (acknowledge a z s).turn = s.turn := by unfold acknowledge; split <;> rfl
@[simp] theorem acknowledge_moves : (acknowledge a z s).moves = s.moves := by unfold acknowledge; split <;> rfl
@[simp] theorem acknowledge_tick : (acknowledge a z s).tick = s.tick := by unfold acknowledge; split <;> rfl
@[simp] theorem acknowledge_rdata : (acknowledge a z s).rdata = s.rdata := by unfold acknowledge; split <;> rfl

theorem acknowledge_duties : (acknowledge a z s).duties = if readsDone a z s then [] else s.duties := by
  unfold acknowledge; split <;> rfl

end acknowledge

section advance
variable (w : WorkerId) (s : State)

@[simp] theorem advance_params : (advance w s).params = s.params := rfl
@[simp] theorem advance_regs : (advance w s).regs = s.regs := rfl
@[simp] theorem advance_orch : (advance w s).orch = s.orch := rfl
@[simp] theorem advance_mem : (advance w s).mem = s.mem := rfl
@[simp] theorem advance_earlier : (advance w s).earlier = s.earlier := rfl
@[simp] theorem advance_duties : (advance w s).duties = s.duties := rfl
@[simp] theorem advance_turn : (advance w s).turn = s.turn := rfl
@[simp] theorem advance_moves : (advance w s).moves = s.moves := rfl
@[simp] theorem advance_tick : (advance w s).tick = s.tick := rfl
@[simp] theorem advance_rdata : (advance w s).rdata = s.rdata := rfl

theorem worker_advance (v : WorkerId) :
    (advance w s).worker v = if v = w then advanceWorker s.regs (s.worker w) else s.worker v :=
  State.worker_setWorker _ _ _ _

end advance

section stepChan
variable (w : WorkerId) (ch : Nat) (n : BitVec 4) (s : State)

@[simp] theorem stepChan_params : (stepChan w ch n s).params = s.params := rfl
@[simp] theorem stepChan_regs : (stepChan w ch n s).regs = s.regs := rfl
@[simp] theorem stepChan_orch : (stepChan w ch n s).orch = s.orch := rfl
@[simp] theorem stepChan_mem : (stepChan w ch n s).mem = s.mem := rfl
@[simp] theorem stepChan_earlier : (stepChan w ch n s).earlier = s.earlier := rfl
@[simp] theorem stepChan_duties : (stepChan w ch n s).duties = s.duties := rfl
@[simp] theorem stepChan_turn : (stepChan w ch n s).turn = s.turn := rfl
@[simp] theorem stepChan_moves : (stepChan w ch n s).moves = s.moves := rfl
@[simp] theorem stepChan_tick : (stepChan w ch n s).tick = s.tick := rfl
@[simp] theorem stepChan_rdata : (stepChan w ch n s).rdata = s.rdata := rfl

theorem worker_stepChan (v : WorkerId) :
    (stepChan w ch n s).worker v =
      if v = w then (s.worker w).setChan ch (nibbleStep n ((s.worker w).chan ch)) else s.worker v :=
  State.worker_setWorker _ _ _ _

end stepChan

/-! ### One worker -/

section startBlock
variable (wk : Worker) (k obase : Nat)

@[simp] theorem Worker.startBlock_active : (wk.startBlock k obase).active = wk.active := rfl
@[simp] theorem Worker.startBlock_blk : (wk.startBlock k obase).blk = BitVec.ofNat 32 k := rfl
@[simp] theorem Worker.startBlock_stop : (wk.startBlock k obase).stop = wk.stop := rfl
@[simp] theorem Worker.startBlock_kind : (wk.startBlock k obase).kind = wk.kind := rfl
@[simp] theorem Worker.startBlock_obase : (wk.startBlock k obase).obase = BitVec.ofNat 32 obase := rfl
@[simp] theorem Worker.startBlock_phase : (wk.startBlock k obase).phase = .hchk 0 := rfl
@[simp] theorem Worker.startBlock_cs : (wk.startBlock k obase).cs = wk.cs := rfl

end startBlock

section setChan
variable (wk : Worker) (ch : Nat) (x : Chan)

@[simp] theorem Worker.setChan_active : (wk.setChan ch x).active = wk.active := rfl
@[simp] theorem Worker.setChan_blk : (wk.setChan ch x).blk = wk.blk := rfl
@[simp] theorem Worker.setChan_stop : (wk.setChan ch x).stop = wk.stop := rfl
@[simp] theorem Worker.setChan_kind : (wk.setChan ch x).kind = wk.kind := rfl
@[simp] theorem Worker.setChan_obase : (wk.setChan ch x).obase = wk.obase := rfl
@[simp] theorem Worker.setChan_phase : (wk.setChan ch x).phase = wk.phase := rfl
@[simp] theorem Worker.setChan_cs : (wk.setChan ch x).cs = wk.cs.set ch x := rfl

/-- Reading back the channel just written. -/
theorem Worker.chan_setChan_same (h : ch < wk.cs.length) : (wk.setChan ch x).chan ch = x := by
  simp [Worker.chan, Worker.setChan, List.getD, h]

/-- Writing one channel leaves the others alone. -/
theorem Worker.chan_setChan_ne {c : Nat} (h : c ≠ ch) : (wk.setChan ch x).chan c = wk.chan c := by
  simp [Worker.chan, Worker.setChan, List.getD, List.getElem?_set_ne h.symm]

end setChan

/-! ### Registers -/

section flags
variable (r : Regs) (e : ErrRec)

@[simp] theorem Regs.clearForStart_status_busy : r.clearForStart.status.busy = r.status.busy := rfl
@[simp] theorem Regs.clearForStart_status_done : r.clearForStart.status.done = false := rfl
@[simp] theorem Regs.clearForStart_status_err : r.clearForStart.status.err = false := rfl
@[simp] theorem Regs.clearForStart_status_ovr : r.clearForStart.status.ovr = r.status.ovr := rfl
@[simp] theorem Regs.clearForStart_status_trail : r.clearForStart.status.trail = false := rfl
@[simp] theorem Regs.clearForStart_status_drain : r.clearForStart.status.drain = r.status.drain := rfl
@[simp] theorem Regs.clearForStart_errInfo : r.clearForStart.errInfo = 0 := rfl
@[simp] theorem Regs.clearForStart_errBlock : r.clearForStart.errBlock = 0 := rfl
@[simp] theorem Regs.recordError_errInfo : (r.recordError e).errInfo = e.info := rfl
@[simp] theorem Regs.recordError_errBlock : (r.recordError e).errBlock = e.blk := rfl
@[simp] theorem Regs.recordError_status : (r.recordError e).status = r.status := rfl

/-- The acceptance check reads no register that ClearForStart writes. -/
@[simp] theorem checkConfig_clearForStart (p : Params) (k : Kind) :
    checkConfig p r.clearForStart k = checkConfig p r k := rfl

end flags

end Sys2Proof.Machine
end

