-- ==== Sys2Proof/Laws/Ops.lean ====
section
/-! SUPPORT. One lemma per shared operation that says once everything it can do; proofs cite these and never unfold the
operation again. -/

namespace Sys2Proof.Machine

/-! ### Memory accesses -/

/-- What MemRead8 answers with a byte: the address exists and the platform answers OK. -/
theorem memRead8_ok {s : State} {a : Nat} {x : Byte} :
    memRead8 s a = .ok x ↔ a < Memory.size ∧ busOk s.params a .read = true ∧ x = s.mem.read a := by
  unfold memRead8
  split
  · simp; omega
  · split
    · simp only [Access.ok.injEq]
      constructor
      · rintro rfl; exact ⟨by omega, by assumption, rfl⟩
      · exact fun h => h.2.2.symm
    · simp [*]

/-- MemRead8 misses memory exactly at an address that does not exist. -/
theorem memRead8_outside {s : State} {a : Nat} : memRead8 s a = .outside ↔ Memory.size ≤ a := by
  unfold memRead8
  split
  · simp [*]
  · split <;> simp [*]

/-- What MemWrite32 does when it succeeds: one word of memory, and nothing else. -/
theorem memWrite32_ok {s t : State} {a : Nat} {w : Word} :
    memWrite32 s a w = .ok t ↔
      a + 4 ≤ Memory.size ∧ busOk s.params a .write = true ∧ t = { s with mem := s.mem.write32 a w } := by
  unfold memWrite32
  split
  · simp; omega
  · split
    · simp only [Access.ok.injEq]
      constructor
      · rintro rfl; exact ⟨by omega, by assumption, rfl⟩
      · exact fun h => h.2.2.symm
    · simp [*]

/-- MemWrite32 misses memory exactly where its last byte does not exist. -/
theorem memWrite32_outside {s : State} {a : Nat} {w : Word} :
    memWrite32 s a w = .outside ↔ Memory.size < a + 4 := by
  unfold memWrite32
  split
  · simp [*]
  · split <;> simp [*]

/-- A host access sees a word in the present memory or in that of an acceptance since the last DONE (R83 (c)). -/
theorem hostView_cases (s : State) (n : Nat) : hostView s n = s.mem ∨ hostView s n ∈ s.earlier := by
  unfold hostView
  split
  · exact .inl rfl
  · rename_i m ms he
    have hlt : Config.freeSeen s.tick n % (ms.length + 2) < (s.mem :: m :: ms).length :=
      Nat.mod_lt _ (Nat.succ_pos _)
    have hm : (s.mem :: m :: ms).getD (Config.freeSeen s.tick n % (ms.length + 2)) s.mem ∈ s.mem :: m :: ms := by
      rw [List.getD_eq_getElem _ _ hlt]
      exact List.getElem_mem hlt
    rw [he]
    exact List.mem_cons.mp hm

/-- With every write of the block visible a host access sees the present memory (R83 (b)). -/
theorem hostView_settled {s : State} (h : s.earlier = []) (n : Nat) : hostView s n = s.mem := by
  unfold hostView
  rw [h]

/-! ### Acceptance -/

/-- A guarded reason is `none` exactly when the guard fails and what follows is `none`. -/
theorem guarded_none {α : Type} (P : Prop) [Decidable P] (a : α) (o : Option α) :
    (if P then some a else o) = none ↔ ¬P ∧ o = none := by
  split <;> simp [*]

/-- The acceptance check passes exactly when every test of R256 does. -/
theorem checkConfig_none {p : Params} {r : Regs} {k : Kind} :
    checkConfig p r k = none ↔
      (1 ≤ r.c ∧ r.c ≤ p.maxChannels) ∧ (0 < r.bs ∧ r.bs % (4 * r.c) = 0) ∧ r.outBase.toNat % 4 = 0 ∧
      (r.c = 1 ∨ r.outLen.toNat ≤ r.outStride.toNat) ∧
      (k = .single → (r.blkIndex.toNat + 1) * r.bs ≤ r.len) ∧
      (k = .stream → r.outLen.toNat = totalSamples r) ∧
      (k = .single → r.outOffset.toNat + spb r ≤ r.outLen.toNat) ∧
      (r.inBase.toNat + r.len ≤ 2 ^ 32 ∧ r.outBase.toNat + 4 * outSpan r ≤ 2 ^ 32) ∧
      (r.len = 0 ∨ outSpan r = 0 ∨ r.inBase.toNat + r.len ≤ r.outBase.toNat ∨
        r.outBase.toNat + 4 * outSpan r ≤ r.inBase.toNat) := by
  simp only [checkConfig, guarded_none, not_and_not_right, Classical.not_not, and_true]

/-! ### Host stores -/

/-- Free words at addresses inside memory keep the canonical form. -/
theorem Memory.wf_freeWords {k : Nat} {as : List Nat} {m : Memory} (hs : ∀ a ∈ as, a + 4 ≤ Memory.size)
    (hw : m.wf = true) : (m.freeWords k as).wf = true := by
  induction as generalizing m with
  | nil => exact hw
  | cons a as ih =>
    exact ih (fun b hb => hs b (List.mem_cons_of_mem _ hb)) (Memory.wf_write32 _ (hs a List.mem_cons_self) hw)

/-- Free words leave every byte outside them alone. -/
theorem Memory.read_freeWords_outside {k c : Nat} {as : List Nat} {m : Memory} (hs : ∀ a ∈ as, a + 4 ≤ Memory.size)
    (hw : m.wf = true) (hc : ∀ a ∈ as, c < a ∨ a + 4 ≤ c) : (m.freeWords k as).read c = m.read c := by
  induction as generalizing m with
  | nil => rfl
  | cons a as ih =>
    have ha := hs a List.mem_cons_self
    exact (ih (fun b hb => hs b (List.mem_cons_of_mem _ hb)) (Memory.wf_write32 _ ha hw)
      (fun b hb => hc b (List.mem_cons_of_mem _ hb))).trans
      (Memory.read_write32_outside _ ha hw (hc a List.mem_cons_self))

/-- The output words of an accepted command lie inside memory (R75, R256). -/
theorem Duty.outputs_inside {p : Params} {d : Duty} (h : checkConfig p d.regs d.kind = none) :
    ∀ a ∈ d.outputs, a + 4 ≤ Memory.size := by
  obtain ⟨-, -, -, -, -, -, h7, ⟨-, h8⟩, -⟩ := checkConfig_none.mp h
  intro a ha
  obtain ⟨ch, hch, ha⟩ := List.mem_flatMap.mp ha
  obtain ⟨i, hi, rfl⟩ := List.mem_map.mp ha
  rw [List.mem_range] at hch hi
  have hi' : d.slotRange.1 + i < d.regs.outLen.toNat := by
    unfold Duty.slotRange at hi ⊢
    cases hk : d.kind
    · simp only [hk] at hi ⊢; omega
    · simp only [hk] at hi ⊢
      have := h7 hk
      omega
  have hm : ch * d.regs.outStride.toNat ≤ (d.regs.c - 1) * d.regs.outStride.toNat := Nat.mul_le_mul_right _ (by omega)
  unfold outAddr Memory.size
  unfold outSpan at h8
  omega

/-- What a host store does (R82): the byte alone where no duty covers it, and, only while the block is IDLE, free output
words and possibly a free recorded error where one does. -/
theorem hostStore_next {addr : BitVec 32} {b : Byte} {s t : State} (h : hostStore addr b s = .next t) :
    ((∀ d ∈ s.duties, d.covers addr.toNat = false) ∧ t = s.storeByte addr.toNat b) ∨
    (s.orch.phase = .idle ∧ (∃ d ∈ s.duties, d.covers addr.toNat = true) ∧ ∃ (as : List Nat) (r : Regs),
      (∀ a, a ∈ as ↔ ∃ d ∈ s.duties, d.covers addr.toNat = true ∧ a ∈ d.outputs) ∧
      (r = s.regs ∨ (s.regs.hasRunError = true ∧
        r = { s.regs with errInfo := Config.freeErrInfo s.tick, errBlock := Config.freeErrBlock s.tick })) ∧
      t = { s.storeByte addr.toNat b with
        mem := (s.mem.write addr.toNat b).freeWords s.tick as
        earlier := (s.earlier.map (·.write addr.toNat b)).map (Memory.freeWords s.tick as)
        regs := r
        tick := s.tick + 1 }) := by
  unfold hostStore at h
  split at h
  · cases h
  · rename_i hf
    cases h
    unfold State.breakDuties
    simp only [State.storeByte_duties]
    split
    · rename_i hd
      refine .inl ⟨fun d hm => ?_, rfl⟩
      by_contra hc
      have : d ∈ s.duties.filter (·.covers addr.toNat) := List.mem_filter.mpr ⟨hm, by simpa using hc⟩
      rw [hd] at this
      exact absurd this List.not_mem_nil
    · rename_i d ds hd
      have hmem : ∀ x, x ∈ d :: ds → x ∈ s.duties ∧ x.covers addr.toNat = true := fun x hx =>
        List.mem_filter.mp (hd ▸ hx)
      have hidle : s.orch.phase = .idle := by
        by_contra hne
        apply hf
        have hx := hmem d List.mem_cons_self
        have : s.duties.any (·.covers addr.toNat) = true := List.any_eq_true.mpr ⟨d, hx.1, hx.2⟩
        simp [storeForbidden, hne, this]
      refine .inr ⟨hidle, ⟨d, hmem d List.mem_cons_self⟩, (d :: ds).flatMap Duty.outputs, _, fun a => ?_, ?_, rfl⟩
      · simp only [← hd, List.mem_flatMap, List.mem_filter, and_assoc]
      · split
        · rename_i hc
          simp only [Bool.and_eq_true] at hc
          exact .inr ⟨hc.2, rfl⟩
        · exact .inl rfl

/-! ### Errors -/

/-- The worker that raises an error, halted; for an ABORT or a fill error, none (R196 (a), R199). -/
def haltRaiser (who : Option WorkerId) (s : State) : State :=
  match who with
  | some w => s.haltWorker w
  | none => s

section haltRaiser
variable (who : Option WorkerId) (s : State)

@[simp] theorem haltRaiser_params : (haltRaiser who s).params = s.params := by cases who <;> rfl
@[simp] theorem haltRaiser_regs : (haltRaiser who s).regs = s.regs := by cases who <;> rfl
@[simp] theorem haltRaiser_orch : (haltRaiser who s).orch = s.orch := by cases who <;> rfl
@[simp] theorem haltRaiser_mem : (haltRaiser who s).mem = s.mem := by cases who <;> rfl
@[simp] theorem haltRaiser_earlier : (haltRaiser who s).earlier = s.earlier := by cases who <;> rfl
@[simp] theorem haltRaiser_duties : (haltRaiser who s).duties = s.duties := by cases who <;> rfl
@[simp] theorem haltRaiser_turn : (haltRaiser who s).turn = s.turn := by cases who <;> rfl
@[simp] theorem haltRaiser_moves : (haltRaiser who s).moves = s.moves := by cases who <;> rfl
@[simp] theorem haltRaiser_tick : (haltRaiser who s).tick = s.tick := by cases who <;> rfl

theorem worker_haltRaiser (v : WorkerId) :
    (haltRaiser who s).worker v = if who = some v then { s.worker v with active := false } else s.worker v := by
  cases who with
  | none => rfl
  | some w =>
    rw [haltRaiser, State.worker_haltWorker]
    by_cases h : v = w
    · subst h; simp
    · simp [h, Ne.symm h]

end haltRaiser

/-- A raised error with one latched already only halts the raiser (R196 (c), R261). -/
theorem raiseError_latched {who : Option WorkerId} {e : ErrRec} {s : State} (h : s.orch.latched = true) :
    raiseError who e s = haltRaiser who s := by
  cases who <;> simp [raiseError, haltRaiser, h]

/-- The first raised error of a command is recorded and starts DRAIN (R196 (b)). -/
theorem raiseError_first {who : Option WorkerId} {e : ErrRec} {s : State} (h : s.orch.latched = false) :
    raiseError who e s =
      { haltRaiser who s with
        orch := { s.orch with latched := true, phase := .drain }
        regs := { s.regs.recordError e with status := { s.regs.status with drain := true } } } := by
  cases who <;> simp [raiseError, haltRaiser, h]

@[simp] theorem raiseError_params (who : Option WorkerId) (e : ErrRec) (s : State) :
    (raiseError who e s).params = s.params := by
  cases hl : s.orch.latched
  · simp [raiseError_first hl]
  · simp [raiseError_latched hl]

@[simp] theorem raiseError_mem (who : Option WorkerId) (e : ErrRec) (s : State) :
    (raiseError who e s).mem = s.mem := by
  cases hl : s.orch.latched
  · simp [raiseError_first hl]
  · simp [raiseError_latched hl]

@[simp] theorem raiseError_earlier (who : Option WorkerId) (e : ErrRec) (s : State) :
    (raiseError who e s).earlier = s.earlier := by
  cases hl : s.orch.latched
  · simp [raiseError_first hl]
  · simp [raiseError_latched hl]

@[simp] theorem raiseError_duties (who : Option WorkerId) (e : ErrRec) (s : State) :
    (raiseError who e s).duties = s.duties := by
  cases hl : s.orch.latched
  · simp [raiseError_first hl]
  · simp [raiseError_latched hl]

@[simp] theorem raiseError_moves (who : Option WorkerId) (e : ErrRec) (s : State) :
    (raiseError who e s).moves = s.moves := by
  cases hl : s.orch.latched
  · simp [raiseError_first hl]
  · simp [raiseError_latched hl]

theorem worker_raiseError (who : Option WorkerId) (e : ErrRec) (s : State) (v : WorkerId) :
    (raiseError who e s).worker v = if who = some v then { s.worker v with active := false } else s.worker v := by
  rw [← worker_haltRaiser]
  cases hl : s.orch.latched
  · rw [raiseError_first hl]; rfl
  · rw [raiseError_latched hl]

/-! ### Micro-operations -/

/-- What a sample write does: the word and the cursor, or BUS_ERROR subcode 2 (R132, R138, R271). -/
theorem writeSample_next {w : WorkerId} {ch i : Nat} {word : Word} {s t : State}
    (h : writeSample w ch i word s = .next t) :
    (outAddr s.regs ch i + 4 ≤ Memory.size ∧ busOk s.params (outAddr s.regs ch i) .write = true ∧
      t = advance w { s with mem := s.mem.write32 (outAddr s.regs ch i) word }) ∨
    (busOk s.params (outAddr s.regs ch i) .write = false ∧
      t = raiseError (some w) (busErrorRec 2 ch (s.worker w).blk) s) := by
  unfold writeSample at h
  split at h
  · rename_i u hu
    obtain ⟨h1, h2, rfl⟩ := memWrite32_ok.mp hu
    exact .inl ⟨h1, h2, by simpa using h.symm⟩
  · rename_i hb
    refine .inr ⟨?_, by simpa using h.symm⟩
    unfold memWrite32 at hb
    split at hb
    · simp at hb
    · split at hb
      · simp at hb
      · simpa using ‹¬busOk s.params _ .write = true›
  · simp at h

/-- A sample write inside memory never stops. -/
theorem writeSample_runs (w : WorkerId) {ch i : Nat} (word : Word) {s : State}
    (h : outAddr s.regs ch i + 4 ≤ Memory.size) : ∃ t, writeSample w ch i word s = .next t := by
  unfold writeSample
  split
  · exact ⟨_, rfl⟩
  · exact ⟨_, rfl⟩
  · rename_i ho; rw [memWrite32_outside] at ho; omega

/-- What HDR_CHECK does: the test and load of four bytes read from memory, or BUS_ERROR subcode 1 (R131, R271). -/
theorem hdrCheck_next {w : WorkerId} {ch : Nat} {s t : State} (h : hdrCheck w ch s = .next t) :
    (∃ h0 h1 h2 h3, readHeaderByte s w ch 0 = .ok h0 ∧ readHeaderByte s w ch 1 = .ok h1 ∧
      readHeaderByte s w ch 2 = .ok h2 ∧ readHeaderByte s w ch 3 = .ok h3 ∧
      t = checkHeader w ch h0 h1 h2 h3 s) ∨
    t = raiseError (some w) (busErrorRec 1 ch (s.worker w).blk) s := by
  unfold hdrCheck at h
  split at h
  · exact .inl ⟨_, _, _, _, by assumption, by assumption, by assumption, by assumption, by simpa using h.symm⟩
  all_goals first
    | (simp at h; done)
    | exact .inr (by simpa using h.symm)

/-- HDR_CHECK inside memory never stops. -/
theorem hdrCheck_runs (w : WorkerId) {ch : Nat} {s : State}
    (h : ∀ j, j < 4 → inAddr s.regs (s.worker w).blk.toNat (headerByte ch j) < Memory.size) :
    ∃ t, hdrCheck w ch s = .next t := by
  have hr : ∀ j, j < 4 → readHeaderByte s w ch j ≠ .outside := fun j hj ho => by
    rw [readHeaderByte, memRead8_outside] at ho
    have := h j hj
    omega
  unfold hdrCheck
  split
  · exact ⟨_, rfl⟩
  · exact absurd ‹_› (hr 0 (by omega))
  · exact absurd ‹readHeaderByte s w ch 1 = .outside› (hr 1 (by omega))
  · exact absurd ‹readHeaderByte s w ch 2 = .outside› (hr 2 (by omega))
  · exact absurd ‹readHeaderByte s w ch 3 = .outside› (hr 3 (by omega))
  · exact ⟨_, rfl⟩

/-- What the header test does with its four bytes (R131). -/
theorem checkHeader_cases (w : WorkerId) (ch : Nat) (h0 h1 h2 h3 : Byte) (s : State) :
    (88 < h2.toNat ∧ checkHeader w ch h0 h1 h2 h3 s = raiseError (some w) (malformedRec 1 h2 ch (s.worker w).blk) s) ∨
    (h2.toNat ≤ 88 ∧ h3 ≠ 0 ∧
      checkHeader w ch h0 h1 h2 h3 s = raiseError (some w) (malformedRec 2 h3 ch (s.worker w).blk) s) ∨
    (h2.toNat ≤ 88 ∧ h3 = 0 ∧ checkHeader w ch h0 h1 h2 h3 s =
      advance w (s.setWorker w ((s.worker w).setChan ch { pred := h1 ++ h0, idx := h2.setWidth 7 }))) := by
  unfold checkHeader
  split
  · exact .inl ⟨by assumption, rfl⟩
  · split
    · exact .inr (.inl ⟨by omega, by assumption, rfl⟩)
    · exact .inr (.inr ⟨by omega, by simpa using ‹¬h3 ≠ 0›, rfl⟩)

/-- A nibble code executed at a BODY cursor is a sample write after the channel's update (R138). -/
theorem bodySample_at {n : BitVec 4} {s : State} {g ch b h : Nat} (ha : (s.worker s.turn).active = true)
    (hp : (s.worker s.turn).phase = .body g ch b h) :
    bodySample n s = writeSample s.turn ch (bodySlot (s.worker s.turn).obase.toNat g b h)
      (normWord (nibbleStep n ((s.worker s.turn).chan ch)).pred) (stepChan s.turn ch n s) := by
  simp [bodySample, ha, hp]

/-- Each nibble code's arm of exec is BODY_SAMPLE with that code (R110, R138). -/
theorem exec_decodeNibble (n : BitVec 4) (s : State) : exec (decodeNibble n) s = bodySample n s := by
  have key : ∀ k : Fin 16, exec (decodeNibble (BitVec.ofFin k)) s = bodySample (BitVec.ofFin k) s := by
    intro k
    fin_cases k <;> rfl
  exact key n.toFin

/-! ### The orchestrator -/

/-- What a fill write does: a zero word and the cursor, or BUS_ERROR subcode 2 (R191, R271). -/
theorem fillWrite_next {s t : State} (h : fillWrite s = .next t) :
    (outAddr s.regs s.orch.fillCh s.orch.fillI + 4 ≤ Memory.size ∧
      t = { s with mem := s.mem.write32 (outAddr s.regs s.orch.fillCh s.orch.fillI) 0,
                   orch := advanceFill s.regs s.orch }) ∨
    t = raiseError none (busErrorRec 2 s.orch.fillCh 0xFFFFFFFF) s := by
  unfold fillWrite at h
  split at h
  · rename_i u hu
    obtain ⟨h1, _, rfl⟩ := memWrite32_ok.mp hu
    exact .inl ⟨h1, by simpa using h.symm⟩
  · exact .inr (by simpa using h.symm)
  · simp at h

/-- A fill write inside memory never stops. -/
theorem fillWrite_runs {s : State} (h : outAddr s.regs s.orch.fillCh s.orch.fillI + 4 ≤ Memory.size) :
    ∃ t, fillWrite s = .next t := by
  unfold fillWrite
  split
  · exact ⟨_, rfl⟩
  · exact ⟨_, rfl⟩
  · rename_i ho; rw [memWrite32_outside] at ho; omega

/-- The orchestrator's step, by phase (R191, R192, R195, R198). -/
theorem orchStep_next {s t : State} (h : orchStep s = .next t) :
    t = s ∨
    (s.orch.phase = .fill ∧ fillPending s = true ∧ fillWrite s = .next t) ∨
    (s.orch.phase = .fill ∧ fillPending s = false ∧ t = dispatch s) ∨
    (s.orch.phase = .run ∧ s.noneActive = true ∧ s.orch.latched = false ∧ t = completeOk s) ∨
    (s.orch.phase = .drain ∧ s.noneActive = true ∧ t = completeFailed s) := by
  unfold orchStep at h
  split at h
  · rename_i he
    unfold orchEnabled at he
    cases hp : s.orch.phase <;> simp only [hp] at h he
    · exact absurd he (by simp)
    · by_cases hf : fillPending s = true
      · rw [if_pos hf] at h; exact .inr (.inl ⟨rfl, hf, h⟩)
      · rw [if_neg hf] at h
        exact .inr (.inr (.inl ⟨rfl, by simpa using hf, by simpa using h.symm⟩))
    · simp only [Bool.and_eq_true, Bool.not_eq_true'] at he
      exact .inr (.inr (.inr (.inl ⟨rfl, he.1, he.2, by simpa using h.symm⟩)))
    · exact .inr (.inr (.inr (.inr ⟨rfl, he, by simpa using h.symm⟩)))
  · exact .inl (by simpa using h.symm)

/-- No worker is active, worker by worker. -/
theorem noneActive_iff {s : State} : s.noneActive = true ↔ ∀ w, (s.worker w).active = false := by
  constructor
  · intro h w
    simp only [State.noneActive, Bool.and_eq_true, Bool.not_eq_true'] at h
    cases w
    · exact h.1.1.1
    · exact h.1.1.2
    · exact h.1.2
    · exact h.2
  · intro h
    simp only [State.noneActive, Bool.and_eq_true, Bool.not_eq_true']
    exact ⟨⟨⟨h .w0, h .w1⟩, h .w2⟩, h .w3⟩

/-! ### The steps -/

/-- A step of the block on its own is one agent's step, or none where nothing is enabled. -/
theorem freeStep_next {s t : State} (h : freeStep s = .next t) :
    (enabledMoves s = [] ∧ t = s) ∨
    ∃ a k, a ∈ enabledMoves s ∧ agentStep a { s with tick := k } = .next t := by
  unfold freeStep at h
  split at h
  · exact .inl ⟨by assumption, by simpa using h.symm⟩
  · rename_i a ha
    exact .inr ⟨a, s.tick, by simp [ha], h⟩
  · rename_i a b rest hl
    refine .inr ⟨_, s.tick + 1, ?_, h⟩
    rw [hl, List.getD_eq_getElem?_getD]
    cases hg : (a :: b :: rest)[Config.freeChoice s.tick % (rest.length + 2)]? with
    | none => simp
    | some x => exact List.mem_of_getElem? hg

end Sys2Proof.Machine
end

