-- ==== Sys2Proof/Laws/Geometry.lean ====
section
/-! SUPPORT. The arithmetic of blocks, slots and addresses, for configurations with a legal block shape or accepted by
the acceptance check. -/

namespace Sys2Proof.Machine

/-- A block is a header row and `chunkCount` groups of the same size (R105). -/
theorem bs_eq {r : Regs} (hc : 1 ≤ r.c) (hb : 0 < r.bs) (hm : r.bs % (4 * r.c) = 0) :
    r.bs = 4 * r.c * (chunkCount r + 1) := by
  obtain ⟨q, hq⟩ := Nat.dvd_of_mod_eq_zero hm
  have hpos : 0 < 4 * r.c := by omega
  have hq0 : q ≠ 0 := by rintro rfl; rw [Nat.mul_zero] at hq; omega
  obtain ⟨q, rfl⟩ := Nat.exists_eq_succ_of_ne_zero hq0
  have : chunkCount r = q := by
    unfold chunkCount
    rw [hq, Nat.mul_succ, Nat.add_sub_cancel]
    exact Nat.mul_div_cancel_left _ hpos
  rw [this]; exact hq

/-- Every header byte of a channel lies in its block (R106). -/
theorem headerByte_lt {r : Regs} (hb : r.bs = 4 * r.c * (chunkCount r + 1)) {ch j : Nat} (hch : ch < r.c) (hj : j < 4) :
    headerByte ch j < r.bs := by
  have : 4 * r.c * 1 ≤ 4 * r.c * (chunkCount r + 1) := Nat.mul_le_mul_left _ (by omega)
  unfold headerByte
  omega

/-- Every body byte of a group lies in its block (R108). -/
theorem bodyByte_lt {r : Regs} (hb : r.bs = 4 * r.c * (chunkCount r + 1)) {g ch b : Nat} (hg : g < chunkCount r)
    (hch : ch < r.c) (hbt : b < 4) : bodyByte r g ch b < r.bs := by
  have h1 : 4 * r.c * (g + 2) ≤ 4 * r.c * (chunkCount r + 1) := Nat.mul_le_mul_left _ (by omega)
  have h2 : 4 * r.c * (g + 2) = 4 * r.c * g + 8 * r.c := by ring
  unfold bodyByte
  omega

/-- A byte of a block that lies in the stream lies in the input region (R71, R76). -/
theorem inAddr_lt {r : Regs} {k j : Nat} (hk : (k + 1) * r.bs ≤ r.len) (hj : j < r.bs) :
    inAddr r k j < r.inBase.toNat + r.len := by
  have : (k + 1) * r.bs = k * r.bs + r.bs := by ring
  unfold inAddr
  omega

/-- A block index below the block count names a block inside the stream (R170, R171). -/
theorem block_in_stream {r : Regs} {k : Nat} (hk : k < blockCount r) : (k + 1) * r.bs ≤ r.len :=
  le_trans (Nat.mul_le_mul_right _ hk) (Nat.div_mul_le_self _ _)

/-- A slot of a channel buffer lies in the output span (R75, R80). -/
theorem outAddr_le {r : Regs} {ch i : Nat} (hch : ch < r.c) (hi : i < r.outLen.toNat) :
    outAddr r ch i + 4 ≤ r.outBase.toNat + 4 * outSpan r := by
  have : ch * r.outStride.toNat ≤ (r.c - 1) * r.outStride.toNat := Nat.mul_le_mul_right _ (by omega)
  unfold outAddr outSpan
  omega

end Sys2Proof.Machine
end

