-- ==== Sys2Proof/Laws/PerInstr.lean ====
section
/-! SUPPORT. One lemma per instruction: its encoding fits its row of spec/opcode_table.json (30_encoding.md R103, R110). -/

namespace Sys2Proof.Laws

/-- A row's fixed bits: how many bits the code has, which of them are fixed, and their value. -/
structure TableRow.Row where
  bits  : Nat
  mask  : Nat
  value : Nat
  deriving DecidableEq, Repr

/-- A command row of the table, all of whose bits are fixed. -/
def TableRow.word (value : Nat) : TableRow.Row := { bits := 32, mask := 0xFFFFFFFF, value := value }

/-- A nibble row of the table. -/
def TableRow.code (value : Nat) : TableRow.Row := { bits := 4, mask := 0xF, value := value }

/-- The rows of spec/opcode_table.json. -/
def TableRow.row : Instr → TableRow.Row
  | .nop => TableRow.word 0x0
  | .decode _ => { bits := 32, mask := 0xFFFFFF8F, value := 0x1 }
  | .decodeBlock => TableRow.word 0x2
  | .abort => TableRow.word 0x3
  | .clear => TableRow.word 0x4
  | .softReset => TableRow.word 0xF
  | .nib0 => TableRow.code 0x0
  | .nib1 => TableRow.code 0x1
  | .nib2 => TableRow.code 0x2
  | .nib3 => TableRow.code 0x3
  | .nib4 => TableRow.code 0x4
  | .nib5 => TableRow.code 0x5
  | .nib6 => TableRow.code 0x6
  | .nib7 => TableRow.code 0x7
  | .nib8 => TableRow.code 0x8
  | .nib9 => TableRow.code 0x9
  | .nibA => TableRow.code 0xA
  | .nibB => TableRow.code 0xB
  | .nibC => TableRow.code 0xC
  | .nibD => TableRow.code 0xD
  | .nibE => TableRow.code 0xE
  | .nibF => TableRow.code 0xF

/-- Whether a code has the fixed bits of a row. -/
def TableRow.fits (r : TableRow.Row) : Code → Prop
  | .cmd w => r.bits = 32 ∧ w.toNat &&& r.mask = r.value
  | .nibble n => r.bits = 4 ∧ n.toNat &&& r.mask = r.value

/-- The encoding of an instruction has the fixed bits of its row. -/
def TableRow.Statement (i : Instr) : Prop := TableRow.fits (TableRow.row i) (encode i)

theorem TableRow.nop : TableRow.Statement .nop := ⟨rfl, rfl⟩

theorem TableRow.decode (workers : BitVec 3) : TableRow.Statement (.decode workers) := by
  revert workers
  simp only [TableRow.Statement, TableRow.row, encode, TableRow.fits]
  decide

theorem TableRow.decodeBlock : TableRow.Statement .decodeBlock := ⟨rfl, rfl⟩

theorem TableRow.abort : TableRow.Statement .abort := ⟨rfl, rfl⟩

theorem TableRow.clear : TableRow.Statement .clear := ⟨rfl, rfl⟩

theorem TableRow.softReset : TableRow.Statement .softReset := ⟨rfl, rfl⟩

theorem TableRow.nib0 : TableRow.Statement .nib0 := ⟨rfl, rfl⟩

theorem TableRow.nib1 : TableRow.Statement .nib1 := ⟨rfl, rfl⟩

theorem TableRow.nib2 : TableRow.Statement .nib2 := ⟨rfl, rfl⟩

theorem TableRow.nib3 : TableRow.Statement .nib3 := ⟨rfl, rfl⟩

theorem TableRow.nib4 : TableRow.Statement .nib4 := ⟨rfl, rfl⟩

theorem TableRow.nib5 : TableRow.Statement .nib5 := ⟨rfl, rfl⟩

theorem TableRow.nib6 : TableRow.Statement .nib6 := ⟨rfl, rfl⟩

theorem TableRow.nib7 : TableRow.Statement .nib7 := ⟨rfl, rfl⟩

theorem TableRow.nib8 : TableRow.Statement .nib8 := ⟨rfl, rfl⟩

theorem TableRow.nib9 : TableRow.Statement .nib9 := ⟨rfl, rfl⟩

theorem TableRow.nibA : TableRow.Statement .nibA := ⟨rfl, rfl⟩

theorem TableRow.nibB : TableRow.Statement .nibB := ⟨rfl, rfl⟩

theorem TableRow.nibC : TableRow.Statement .nibC := ⟨rfl, rfl⟩

theorem TableRow.nibD : TableRow.Statement .nibD := ⟨rfl, rfl⟩

theorem TableRow.nibE : TableRow.Statement .nibE := ⟨rfl, rfl⟩

theorem TableRow.nibF : TableRow.Statement .nibF := ⟨rfl, rfl⟩

end Sys2Proof.Laws
end

