-- ==== Sys2Proof/Tests/Slice0.lean ====
section
/-! SUPPORT. Tests of the model against the spec's own words and values (95_test_vectors.md), each about one step, and a
witness for the hypotheses of every obligation that has some. -/

namespace Sys2Proof.Tests

open Sys2Proof.Machine

/-! ### Small states -/

/-- The bytes of the mono block of V4, with the body byte at byte 4 replaced by `x`. -/
def monoBytes (x : Byte) : List Byte := [0x00, 0x01, 0x10, 0x00, x, 0x8F, 0x34, 0xC2]

/-- The configuration of a mono block of 8 bytes: SPB 9, TotalSamples 16 (V5). -/
def monoRegs : Regs :=
  { Regs.reset with chCount := 1, blockSize := 8, inBase := 0x1000, inLen := 8, outBase := 0x2000, outLen := 16 }

/-- An idle machine with that configuration and block. -/
def mono (x : Byte) : State :=
  { State.reset with
    regs := monoRegs
    mem := Memory.writeBytes [] 0x1000 (monoBytes x) }

/-- That machine running a DECODE_BLOCK, worker 0 at a phase with channel 0's state, and to move next. -/
def monoAt (x : Byte) (ph : CursorPhase) (c : Chan) : State :=
  { mono x with
    regs := { monoRegs with status := { Status.reset with busy := true }, runInfo := 1 }
    orch := { Orch.reset with phase := .run, kind := .single, w := 1 }
    workers :=
      { (mono x).workers with
        w0 := { Worker.reset Params.reference with
          active := true, stop := 1, kind := .single, phase := ph, cs := c :: List.replicate 7 Chan.reset } }
    moves := [.agent (.micro .w0)] }

/-- What a test looks at in the state after a step. -/
def after {α : Type} (o : Host.Outcome State Fault Refusal) (f : State → α) : Option α :=
  match o with
  | .next t => some (f t)
  | .fault _ => none
  | .refused _ => none

/-- Channel 0 of worker 0: its predictor and index. -/
def chan0 (s : State) : Int × Nat := (((s.worker .w0).chan 0).pred.toInt, ((s.worker .w0).chan 0).idx.toNat)

/-- Channel 0 after worker 0 decodes the low nibble of `x` from `(pred, idx)`. -/
def decoded (x : Byte) (pred : Int) (idx : Nat) : Option (Int × Nat) :=
  after (step (monoAt x (.body 0 0 0 0) { pred := BitVec.ofInt 16 pred, idx := BitVec.ofNat 7 idx })) chan0

/-- STATUS, ERR_INFO and ERR_BLOCK, as the host reads them. -/
def report (s : State) : Word × Word × Word := (readReg s .status, readReg s .errInfo, readReg s .errBlock)

/-- A machine whose next move writes a command word. -/
def withWord (s : State) (cw : Word) : State := { s with moves := [regWrite s.params .cmd cw] }

/-- The baseline configuration of V7. -/
def baseRegs : Regs :=
  { Regs.reset with
    chCount := 2, blockSize := 8, inBase := 0x1000, inLen := 8, outBase := 0x2000, outStride := 8, outLen := 8 }

/-- STATUS and ERR_INFO after a command word is written to an idle machine with a configuration. -/
def accepted (r : Regs) (cw : Word) : Option (Word × Word) :=
  after (step (withWord { State.reset with regs := r } cw)) fun t => (readReg t .status, readReg t .errInfo)

/-! ### Well-formedness and decoding -/

theorem test_wellFormed_workers_five : (Instr.decode 5).wellFormed = false := by decide

theorem test_wellFormed_workers_four : (Instr.decode 4).wellFormed = true := by decide

/-- R103: the word patterns, written out bit by bit. -/
theorem test_decode_commands :
    decodeCmd 0b00000000000000000000000000000000 = .instr .nop ∧
    decodeCmd 0b00000000000000000000000000000001 = .instr (.decode 0) ∧
    decodeCmd 0b00000000000000000000000000110001 = .instr (.decode 3) ∧
    decodeCmd 0b00000000000000000000000000000010 = .instr .decodeBlock ∧
    decodeCmd 0b00000000000000000000000000000011 = .instr .abort ∧
    decodeCmd 0b00000000000000000000000000000100 = .instr .clear ∧
    decodeCmd 0b00000000000000000000000000001111 = .instr .softReset := by decide

/-- R110: the sixteen codes. -/
theorem test_decode_nibbles :
    decodeNibble 0b0000 = .nib0 ∧ decodeNibble 0b0001 = .nib1 ∧ decodeNibble 0b0010 = .nib2 ∧
    decodeNibble 0b0011 = .nib3 ∧ decodeNibble 0b0100 = .nib4 ∧ decodeNibble 0b0101 = .nib5 ∧
    decodeNibble 0b0110 = .nib6 ∧ decodeNibble 0b0111 = .nib7 ∧ decodeNibble 0b1000 = .nib8 ∧
    decodeNibble 0b1001 = .nib9 ∧ decodeNibble 0b1010 = .nibA ∧ decodeNibble 0b1011 = .nibB ∧
    decodeNibble 0b1100 = .nibC ∧ decodeNibble 0b1101 = .nibD ∧ decodeNibble 0b1110 = .nibE ∧
    decodeNibble 0b1111 = .nibF := by decide

/-- V6, R227: illegal words and their subcodes. -/
theorem test_decode_illegal :
    decodeCmd 0x00000005 = .illegal .reservedOpcode ∧ decodeCmd 0x0000000E = .illegal .reservedOpcode ∧
    decodeCmd 0x80000005 = .illegal .reservedOpcode ∧ decodeCmd 0x00000010 = .illegal .reservedBits ∧
    decodeCmd 0x80000001 = .illegal .reservedBits ∧ decodeCmd 0x00000071 = .illegal .tooManyWorkers := by decide

/-- R109: the low nibble of a byte comes first. -/
theorem test_nibble_order : nibbleOf 0x70 0 = 0x0 ∧ nibbleOf 0x70 1 = 0x7 := by decide

theorem test_decodeTableWord :
    decodeTableWord 32 0x41 = some (.decode 4) ∧ decodeTableWord 4 0xB = some .nibB ∧ decodeTableWord 32 0x7 = none := by
  decide

/-! ### Commands -/

/-- A word with OPCODE 0 that is not NOP: the example of R221. -/
theorem witness_NopHasNoEffect : (0x00000010#32).toNat % 16 = 0 ∧ (0x00000010 : Word) ≠ 0 := by decide

/-- V6: NOP while idle changes nothing. -/
theorem test_nop : after (step (withWord (mono 0x70) 0x0)) (fun t => decide (t = mono 0x70)) = some true := by decide

/-- V7: the baseline is accepted, by DECODE with W = 4. -/
theorem test_decode_accepted :
    after (step (withWord { State.reset with regs := baseRegs } 0x1))
      (fun t => (readReg t .status, readReg t .runInfo, t.orch.phase)) = some (0x1, 4, .fill) := by decide

/-- V7: rows of the acceptance table for DECODE. -/
theorem test_decode_refused :
    accepted { baseRegs with chCount := 9 } 0x1 = some (0x6, 0x14) ∧
    accepted { baseRegs with blockSize := 12 } 0x1 = some (0x6, 0x24) ∧
    accepted { baseRegs with outStride := 4 } 0x1 = some (0x6, 0x44) ∧
    accepted { baseRegs with outLen := 7 } 0x1 = some (0x6, 0x12) ∧
    accepted { baseRegs with outBase := 0xFFFFFFC0 } 0x1 = some (0x1, 0x0) ∧
    accepted { baseRegs with outBase := 0xFFFFFFC4 } 0x1 = some (0x6, 0x64) ∧
    accepted { baseRegs with inBase := 0x2038 } 0x1 = some (0x6, 0x74) := by decide

/-- V7: DECODE_BLOCK with OUT_OFFSET 7 is accepted, and starts at slot 7. -/
theorem test_decodeBlock_accepted :
    after (step (withWord { State.reset with regs := { baseRegs with outOffset := 7 } } 0x2))
      (fun t => (readReg t .status, (t.worker .w0).active, (t.worker .w0).obase)) = some (0x1, true, 7) := by decide

/-- V7: DECODE_BLOCK outside the input, and with a slot past the buffer. -/
theorem test_decodeBlock_refused :
    accepted { baseRegs with blkIndex := 1 } 0x2 = some (0x6, 0x54) ∧
    accepted { baseRegs with outOffset := 8 } 0x2 = some (0x6, 0x22) := by decide

/-- R224, V6: ABORT while BUSY records ABORTED and drains; a CLEAR then is dropped. -/
theorem test_abort :
    after (step (withWord (monoAt 0x70 (.hchk 0) Chan.reset) 0x3)) report = some (0x21, 0x5, 0) := by decide

theorem test_clear_busy :
    after (step (withWord (monoAt 0x70 (.hchk 0) Chan.reset) 0x4)) report = some (0x9, 0, 0) := by decide

/-- R225: CLEAR after a failed command. -/
theorem test_clear :
    after (step (withWord
      { State.reset with
        regs := { Regs.reset with
          status := { Status.reset with done := true, err := true, ovr := true }, errInfo := 0x13 } } 0x4)) report =
      some (0, 0, 0) := by decide

/-- R226: SOFT_RESET of a running command. -/
theorem test_softReset :
    after (step (withWord (monoAt 0x70 (.hchk 0) Chan.reset) 0xF))
      (fun t => (report t, readReg t .blockSize, (t.worker .w0).active, t.orch.phase)) =
      some ((0, 0, 0), 0, false, .idle) := by decide

/-- R227: an illegal word while idle. -/
theorem test_illegal_idle : after (step (withWord State.reset 0x7)) report = some (0x6, 0x13, 0) := by decide

/-- R227: an illegal word while BUSY. -/
theorem test_illegal_busy :
    after (step (withWord (monoAt 0x70 (.hchk 0) Chan.reset) 0x7)) report = some (0x9, 0, 0) := by decide

/-! ### Nibble codes: the two tables of V2 -/

theorem test_nib0 :
    decoded 0xF0 0 0 = some (0, 0) ∧ decoded 0x00 0 88 = some (4095, 87) := by decide

theorem test_nib1 :
    decoded 0xF1 0 0 = some (1, 0) ∧ decoded 0x01 0 88 = some (12286, 87) := by decide

theorem test_nib2 :
    decoded 0xF2 0 0 = some (3, 0) ∧ decoded 0x02 0 88 = some (20478, 87) := by decide

theorem test_nib3 :
    decoded 0xF3 0 0 = some (4, 0) ∧ decoded 0x03 0 88 = some (28669, 87) := by decide

theorem test_nib4 :
    decoded 0xF4 0 0 = some (7, 2) ∧ decoded 0x04 0 88 = some (32767, 88) := by decide

theorem test_nib5 :
    decoded 0xF5 0 0 = some (8, 4) ∧ decoded 0x05 0 88 = some (32767, 88) := by decide

theorem test_nib6 :
    decoded 0xF6 0 0 = some (10, 6) ∧ decoded 0x06 0 88 = some (32767, 88) := by decide

theorem test_nib7 :
    decoded 0xF7 0 0 = some (11, 8) ∧ decoded 0x07 0 88 = some (32767, 88) := by decide

theorem test_nib8 :
    decoded 0xF8 0 0 = some (0, 0) ∧ decoded 0x08 0 88 = some (-4095, 87) := by decide

theorem test_nib9 :
    decoded 0xF9 0 0 = some (-1, 0) ∧ decoded 0x09 0 88 = some (-12286, 87) := by decide

theorem test_nibA :
    decoded 0xFA 0 0 = some (-3, 0) ∧ decoded 0x0A 0 88 = some (-20478, 87) := by decide

theorem test_nibB :
    decoded 0xFB 0 0 = some (-4, 0) ∧ decoded 0x0B 0 88 = some (-28669, 87) := by decide

theorem test_nibC :
    decoded 0xFC 0 0 = some (-7, 2) ∧ decoded 0x0C 0 88 = some (-32768, 88) := by decide

theorem test_nibD :
    decoded 0xFD 0 0 = some (-8, 4) ∧ decoded 0x0D 0 88 = some (-32768, 88) := by decide

theorem test_nibE :
    decoded 0xFE 0 0 = some (-10, 6) ∧ decoded 0x0E 0 88 = some (-32768, 88) := by decide

theorem test_nibF :
    decoded 0xFF 0 0 = some (-11, 8) ∧ decoded 0x0F 0 88 = some (-32768, 88) := by decide

/-- V2: corner cases of the pipeline. -/
theorem test_nibbleStep_corners :
    decoded 0x07 32767 88 = some (32767, 88) ∧ decoded 0x0F (-32768) 88 = some (-32768, 88) ∧
    decoded 0x07 0 87 = some (32767, 88) ∧ decoded 0x03 0 1 = some (7, 0) ∧ decoded 0x07 0 3 = some (18, 11) ∧
    decoded 0x0B 0 44 = some (-431, 43) := by decide

/-- V4: slot 1 of the mono block, from `(256, 16)`, and the cursor after it. -/
theorem test_body_sample :
    after (step (monoAt 0x70 (.body 0 0 0 0) { pred := 256, idx := 16 }))
      (fun t => (chan0 t, slotWord t.mem t.regs 0 1, (t.worker .w0).phase)) =
      some ((260, 15), 0x3C020104, .body 0 0 0 1) := by decide

/-- V4: slot 8, the last of the block: the worker stops. -/
theorem test_block_end :
    after (step (monoAt 0x70 (.body 0 0 3 1) { pred := 546, idx := 30 }))
      (fun t => (chan0 t, slotWord t.mem t.regs 0 8, (t.worker .w0).active)) =
      some ((400, 32), 0x3C480190, false) := by decide

/-! ### The other micro-operations -/

/-- The mono machine at HDR_CHECK(0) of a header. -/
def headerState (h0 h1 h2 h3 : Byte) : State :=
  { monoAt 0 (.hchk 0) Chan.reset with mem := Memory.writeBytes [] 0x1000 [h0, h1, h2, h3] }

/-- V1: valid headers at the ends of their ranges. -/
theorem test_header_valid :
    after (step (headerState 0x10 0x00 0x05 0x00)) chan0 = some (16, 5) ∧
    after (step (headerState 0x00 0x80 0x58 0x00)) chan0 = some (-32768, 88) ∧
    after (step (headerState 0xFF 0x7F 0x00 0x00)) chan0 = some (32767, 0) := by decide

/-- V1: invalid headers; STATUS has BUSY and DRAIN (V8). -/
theorem test_header_invalid :
    after (step (headerState 0x00 0x00 0x59 0x00)) report = some (0x21, 0x5911, 0) ∧
    after (step (headerState 0x00 0x00 0x00 0x01)) report = some (0x21, 0x0121, 0) ∧
    after (step (headerState 0x00 0x00 0x59 0x01)) report = some (0x21, 0x5911, 0) := by decide

/-- R132: the header sample of predictor 16. -/
theorem test_header_write :
    after (step (monoAt 0x70 (.hwr 0) { pred := 16, idx := 5 }))
      (fun t => (slotWord t.mem t.regs 0 0, (t.worker .w0).phase)) = some (0x3A000100, .body 0 0 0 0) := by decide

/-- E3 and V3: the listed words of Norm. -/
theorem test_norm :
    ([0, 1, -1, 16, 32, 100, 1000, -1000, 12345, -28669, -29044, -32768] : List Int).map (fun p => normWord (BitVec.ofInt 16 p)) =
    [0x00000000, 0x38000100, 0xB8000100, 0x3A000100, 0x3A800100, 0x3B480190, 0x3CFA01F4, 0xBCFA01F4, 0x3EC0E582, 0xBF5FFBC0, 0xBF62E9C6, 0xBF800100] := by
  decide

/-- V5: the worker ranges of 5, 3 and 7 blocks. -/
theorem test_ranges :
    (List.range 4).map (fun i => (rangeStart 5 4 i, rangeEnd 5 4 i)) = [(0, 2), (2, 4), (4, 5), (6, 5)] ∧
    (List.range 4).map (fun i => (rangeStart 3 4 i, rangeEnd 3 4 i)) = [(0, 1), (1, 2), (2, 3), (3, 3)] ∧
    (List.range 3).map (fun i => (rangeStart 7 3 i, rangeEnd 7 3 i)) = [(0, 3), (3, 6), (6, 7)] := by decide

/-- V5: shape and partition of the stream of P3. -/
theorem test_partition :
    let r := { monoRegs with chCount := 2, blockSize := 16, inLen := 51 }
    (chunkCount r, spb r, blockCount r, totalSamples r, r.hasTrail) = (1, 9, 3, 51, true) := by decide

/-- R72, R83: the first four bytes of the mono block, as the host loads them with nothing pending. -/
theorem test_load_word :
    after (step { mono 0x70 with moves := [.loadWord 0x400] }) State.rdata = some 0x00100100 := by decide

/-! ### Witnesses: hypotheses of the obligations that concrete states and operands meet -/

theorem witness_DecodeAndEncodeAgree :
    (Instr.decode 4).wellFormed = true ∧ decode (.cmd 0x41) = .instr (.decode 4) ∧ decode (.nibble 0xF) = .instr .nibF := by
  decide

/-- Each clause of CommandWordsFollowTheOpcodeMap at the ends of its range. -/
theorem witness_CommandWordsFollowTheOpcodeMap :
    let op := fun cw : Word => cw.toNat % 16
    let workers := fun cw : Word => cw.toNat / 16 % 8
    let reserved := fun cw : Word => cw.toNat / 128
    (5 ≤ op 0x5 ∧ op 0x5 ≤ 14) ∧ (5 ≤ op 0xE ∧ op 0xE ≤ 14) ∧
    (¬(5 ≤ op 0x80 ∧ op 0x80 ≤ 14) ∧ reserved 0x80 ≠ 0) ∧ (¬(5 ≤ op 0x1F ∧ op 0x1F ≤ 14) ∧ op 0x1F ≠ 1 ∧ workers 0x1F ≠ 0) ∧
    (reserved 0x51 = 0 ∧ op 0x51 = 1 ∧ 4 < workers 0x51) ∧ (reserved 0x41 = 0 ∧ op 0x41 = 1 ∧ workers 0x41 ≤ 4) := by
  decide

theorem witness_StepRunsTheDecodedCommand :
    (withWord (mono 0x70) 0x41).moves = .busWrite (Params.reference.regBase + 0x08) .word 0x41 :: [] ∧
    decodeCmd 0x41 = .instr (.decode 4) := by decide

theorem witness_StepRunsTheDecodedNibble :
    let s := monoAt 0x70 (.body 0 0 0 0) Chan.reset
    s.moves = .agent (.micro .w0) :: [] ∧ (s.worker .w0).active = true ∧ s.orch.phase = .run ∧
    (s.worker .w0).phase = .body 0 0 0 0 ∧
    s.regs.inBase.toNat + (s.worker .w0).blk.toNat * s.regs.bs + (4 * s.regs.c + 4 * s.regs.c * 0 + 4 * 0 + 0) < 2 ^ 32 ∧
    busOk s.params (s.regs.inBase.toNat + (s.worker .w0).blk.toNat * s.regs.bs + (4 * s.regs.c + 4 * s.regs.c * 0 + 4 * 0 + 0)) .read = true ∧
    (s.mem.read 0x1004).extractLsb' 0 4 = 0x0 ∧ (s.mem.read 0x1004).extractLsb' 4 4 = 0x7 ∧
    (0x0, Instr.nib0) ∈ nibbleCodes ∧ (0x7, Instr.nib7) ∈ nibbleCodes := by decide

theorem witness_IllegalWordCompletesOrIsDropped :
    (withWord (mono 0x70) 0x7).moves = .busWrite (Params.reference.regBase + 0x08) .word 0x7 :: [] ∧
    decodeCmd 0x7 = .illegal .reservedOpcode ∧ (mono 0x70).orch.phase = .idle ∧
    (monoAt 0x70 (.hchk 0) Chan.reset).orch.phase ≠ .idle := by decide

/-- Registers and reserved offsets at both ends of the window. -/
theorem witness_HostReadsReturnRegisters :
    (∃ s : State, s.moves = .busRead (s.params.regBase + 0x50) .word :: []) ∧
    0x50 = regOffset .runInfo ∧ 0x00 = regOffset .id ∧ (0x54 : Nat) < 0x80 ∧ (0x7F : Nat) < 0x80 ∧ (0x01 : Nat) % 4 ≠ 0 :=
  ⟨⟨{ State.reset with moves := [.busRead 0x50 .word] }, by decide⟩, by decide⟩

theorem witness_HostWritesUpdateRegisters :
    (∃ s : State, s.moves = .busWrite (s.params.regBase + regOffset .chCount) .word 0x12345 :: [] ∧ s.regs.status.busy = false) ∧
    (∃ s : State, s.moves = .busWrite (s.params.regBase + regOffset .chCount) .word 2 :: [] ∧ s.regs.status.busy = true) ∧
    regIsConfig .chCount = true ∧ (regIsConfig .id = false ∧ Reg.id ≠ .irqEn ∧ Reg.id ≠ .cmd) :=
  ⟨⟨{ State.reset with moves := [.busWrite 0x14 .word 0x12345] }, by decide⟩,
   ⟨{ monoAt 0x70 (.hchk 0) Chan.reset with moves := [.busWrite 0x14 .word 2] }, by decide⟩, by decide⟩

theorem witness_NarrowAndReservedWritesDoNothing :
    ∃ s : State, s.moves = .busWrite (s.params.regBase + 0x54) .word 1 :: [] ∧ (0x54 : Nat) < 0x80 ∧ 0x54 ≤ 0x54 :=
  ⟨{ State.reset with moves := [.busWrite 0x54 .word 1] }, by decide⟩

theorem witness_ComputedRegistersFollowTheConfiguration :
    (let s := mono 0x70
     1 ≤ s.regs.c ∧ s.regs.c ≤ s.params.maxChannels ∧ 0 < s.regs.bs ∧ s.regs.bs % (4 * s.regs.c) = 0 ∧
      1 + 8 * ((s.regs.bs - 4 * s.regs.c) / (4 * s.regs.c)) < 2 ^ 32) ∧
    ¬(1 ≤ State.reset.regs.c) := by decide

/-- A CLEAR after a completion, with DONE_IE set. -/
def irqState : State :=
  withWord { State.reset with regs := { Regs.reset with status := { Status.reset with done := true }, irqEn := 1 } } 0x4

theorem witness_BothResetsStopEverything :
    ∃ u : State, u.moves = .powerOn :: [] ∧ mono 0x70 = { u with moves := [] } :=
  ⟨{ mono 0x70 with moves := [.powerOn] }, by decide⟩

theorem witness_AbortLatchesAborted :
    (mono 0x70).orch.phase = .idle ∧
    ((monoAt 0x70 (.hchk 0) Chan.reset).orch.phase ≠ .idle ∧ (monoAt 0x70 (.hchk 0) Chan.reset).orch.latched = false) ∧
    ∃ s : State, s.orch.phase ≠ .idle ∧ s.orch.latched = true :=
  ⟨by decide, by decide, { State.reset with orch := { Orch.reset with phase := .drain, latched := true } }, by decide⟩

theorem witness_ClearZeroesTheStatus :
    (mono 0x70).orch.phase = .idle ∧ (monoAt 0x70 (.hchk 0) Chan.reset).orch.phase ≠ .idle := by decide

theorem witness_CommandsWhileBusyAreDropped :
    (monoAt 0x70 (.hchk 0) Chan.reset).orch.phase ≠ .idle ∧ (∃ w, Instr.decode 4 = .decode w) := ⟨by decide, 4, rfl⟩

theorem witness_DecodeIsAccepted :
    (mono 0x70).orch.phase = .idle ∧ (4#3).toNat ≤ 4 ∧
    (∀ x ∈ configTests (mono 0x70).params (mono 0x70).regs .stream, x.passes = true) := by decide

/-- The first test fails, and the last one after all the others pass. -/
theorem witness_DecodeIsRefusedByTheFirstFailingTest :
    State.reset.orch.phase = .idle ∧ 4 < (5#3).toNat ∧ (4#3).toNat ≤ 4 ∧
    (∃ pre post e, configTests Params.reference Regs.reset .stream = pre ++ e :: post ∧
      (∀ x ∈ pre, x.passes = true) ∧ e.passes = false) ∧
    (∃ pre post e, configTests Params.reference { baseRegs with inBase := 0x2038 } .stream = pre ++ e :: post ∧
      (∀ x ∈ pre, x.passes = true) ∧ e.passes = false) :=
  ⟨by decide, by decide, by decide,
   ⟨[], (configTests Params.reference Regs.reset .stream).drop 1, ⟨false, .configError, 1⟩, by decide⟩,
   ⟨(configTests Params.reference { baseRegs with inBase := 0x2038 } .stream).take 6, [], ⟨false, .configError, 7⟩, by decide⟩⟩

theorem witness_DecodeBlockIsAccepted :
    (mono 0x70).orch.phase = .idle ∧
    (∀ x ∈ configTests (mono 0x70).params (mono 0x70).regs .single, x.passes = true) := by decide

theorem witness_DecodeBlockIsRefusedByTheFirstFailingTest :
    State.reset.orch.phase = .idle ∧
    ∃ pre post e, configTests Params.reference { baseRegs with blkIndex := 1 } .single = pre ++ e :: post ∧
      (∀ x ∈ pre, x.passes = true) ∧ e.passes = false :=
  ⟨by decide, (configTests Params.reference { baseRegs with blkIndex := 1 } .single).take 4,
   (configTests Params.reference { baseRegs with blkIndex := 1 } .single).drop 5, ⟨false, .configError, 5⟩, by decide⟩

theorem witness_NibbleStepIsTheRule : Chan.reset.idx.toNat ≤ 88 ∧ (⟨0, 88⟩ : Chan).idx.toNat ≤ 88 := by decide

theorem witness_UpdateDatapathWidths : Config.stepTable[0]? = some 7 ∧ Config.stepTable[88]? = some 32767 := by decide

theorem witness_NormIsTheNearest :
    f32Finite 0x3F800001 ∧ f32Scaled 0x3F800001 ≠ f32Scaled (normWord 0x7FFF) := by
  refine ⟨by simp [f32Finite], ?_⟩
  have h : normWord 0x7FFF = 0x3F800000 := by decide
  rw [h]
  simp [f32Scaled]

theorem witness_NormIsSymmetric : 1 ≤ (1 : BitVec 16).toInt ∧ 1 ≤ (0x7FFF : BitVec 16).toInt := by decide

/-- For NibbleCodesDecodeOneSample, and the first conditions of NibbleCodesFrame and NibbleCodeRaisesBusError. -/
theorem witness_NibbleCodesDecodeOneSample :
    let s := monoAt 0x70 (.body 0 0 3 1) Chan.reset
    (0xF, Instr.nibF) ∈ nibbleCodes ∧ (s.worker s.turn).active = true ∧ (s.worker s.turn).phase = .body 0 0 3 1 ∧
    outAddr s.regs 0 ((s.worker s.turn).obase.toNat + 1 + 8 * 0 + 2 * 3 + 1) + 4 ≤ 2 ^ 32 ∧
    busOk s.params (outAddr s.regs 0 ((s.worker s.turn).obase.toNat + 1 + 8 * 0 + 2 * 3 + 1)) .write = true := by decide

theorem witness_NibbleCodesFrame :
    let s := monoAt 0x70 (.body 0 0 3 1) Chan.reset
    (0xF, Instr.nibF) ∈ nibbleCodes ∧ (s.worker s.turn).phase = .body 0 0 3 1 ∧ s.mem.wf = true ∧
    ∃ t, exec .nibF s = .next t := ⟨by decide, by decide, by decide, _, rfl⟩

/-- A running machine with an error latched already. -/
def latchedAt (s : State) : State := { s with orch := { s.orch with phase := .drain, latched := true } }

/-- The mono machine on a platform that answers every write with an error. -/
def noWrites (s : State) : State := { s with params := { s.params with busErrors := [⟨0, 2 ^ 32, .write⟩] } }

theorem witness_NibbleCodeRaisesBusError :
    let s := noWrites (monoAt 0x70 (.body 0 0 0 0) Chan.reset)
    (0x0, Instr.nib0) ∈ nibbleCodes ∧ (s.worker s.turn).active = true ∧ (s.worker s.turn).phase = .body 0 0 0 0 ∧
    outAddr s.regs 0 (bodySlot (s.worker s.turn).obase.toNat 0 0 0) + 4 ≤ 2 ^ 32 ∧
    busOk s.params (outAddr s.regs 0 (bodySlot (s.worker s.turn).obase.toNat 0 0 0)) .write = false ∧
    s.orch.latched = false ∧ (latchedAt s).orch.latched = true := by decide

theorem witness_HeaderCheckLoadsTheChannel :
    let s := headerState 0x10 0x00 0x58 0x00
    s.moves = .agent (.micro .w0) :: [] ∧ (s.worker .w0).active = true ∧ s.orch.phase = .run ∧
    (s.worker .w0).phase = .hchk 0 ∧
    (∀ j, j < 4 → inAddr s.regs (s.worker .w0).blk.toNat (4 * 0 + j) < 2 ^ 32 ∧
      busOk s.params (inAddr s.regs (s.worker .w0).blk.toNat (4 * 0 + j)) .read = true) ∧
    (s.mem.read (inAddr s.regs (s.worker .w0).blk.toNat (4 * 0 + 2))).toNat ≤ 88 ∧
    s.mem.read (inAddr s.regs (s.worker .w0).blk.toNat (4 * 0 + 3)) = 0 := by decide

theorem witness_HeaderCheckRaisesMalformed :
    let s := headerState 0x00 0x00 0x59 0x01
    let u := headerState 0x00 0x00 0x58 0x01
    s.moves = .agent (.micro .w0) :: [] ∧ (s.worker .w0).active = true ∧ s.orch.phase = .run ∧
    (s.worker .w0).phase = .hchk 0 ∧
    (∀ j, j < 4 → inAddr s.regs (s.worker .w0).blk.toNat (4 * 0 + j) < 2 ^ 32 ∧
      busOk s.params (inAddr s.regs (s.worker .w0).blk.toNat (4 * 0 + j)) .read = true) ∧
    88 < (s.mem.read (inAddr s.regs (s.worker .w0).blk.toNat (4 * 0 + 2))).toNat ∧
    (u.mem.read (inAddr u.regs (u.worker .w0).blk.toNat (4 * 0 + 2))).toNat ≤ 88 ∧
    u.mem.read (inAddr u.regs (u.worker .w0).blk.toNat (4 * 0 + 3)) = 0x01 ∧ s.orch.latched = false ∧
    (latchedAt s).orch.latched = true ∧ (latchedAt s).orch.phase = .drain := by decide

theorem witness_ReadsRaiseBusError :
    let p := { Params.reference with busErrors := [⟨0x1003, 2, .read⟩] }
    let s := { monoAt 0x70 (.hchk 0) Chan.reset with params := p }
    let u := { monoAt 0x70 (.body 0 0 0 1) Chan.reset with params := p }
    (s.moves = .agent (.micro .w0) :: [] ∧ (s.worker .w0).active = true ∧ s.orch.phase = .run ∧
      (s.worker .w0).phase = .hchk 0 ∧
      (∀ j, j < 4 → inAddr s.regs (s.worker .w0).blk.toNat (4 * 0 + j) < 2 ^ 32) ∧
      0x1003 = inAddr s.regs (s.worker .w0).blk.toNat (4 * 0 + 3) ∧ busOk s.params 0x1003 .read = false) ∧
    u.moves = .agent (.micro .w0) :: [] ∧ (u.worker .w0).active = true ∧ u.orch.phase = .run ∧
    (u.worker .w0).phase = .body 0 0 0 1 ∧ 0x1004 = inAddr u.regs (u.worker .w0).blk.toNat (bodyByte u.regs 0 0 0) ∧
    busOk u.params 0x1004 .read = false ∧ s.orch.latched = false ∧ (latchedAt s).orch.latched = true ∧
    (latchedAt s).orch.phase = .drain := by decide

/-- Each clause of HeaderWriteStoresThePredictor: the write answered OK, and the error response with nothing latched and
with an error latched. -/
theorem witness_HeaderWriteStoresThePredictor :
    let s := monoAt 0x70 (.hwr 0) Chan.reset
    let u := latchedAt (noWrites s)
    (busOk (noWrites s).params (outAddr s.regs 0 (s.worker .w0).obase.toNat) .write = false ∧ s.orch.latched = false) ∧
    (u.moves = .agent (.micro .w0) :: [] ∧ (u.worker .w0).active = true ∧ u.orch.phase = .drain ∧
      (u.worker .w0).phase = .hwr 0 ∧ outAddr u.regs 0 (u.worker .w0).obase.toNat + 4 ≤ 2 ^ 32 ∧
      busOk u.params (outAddr u.regs 0 (u.worker .w0).obase.toNat) .write = false ∧ u.orch.latched = true) ∧
    s.moves = .agent (.micro .w0) :: [] ∧ (s.worker .w0).active = true ∧ s.orch.phase = .run ∧
    (s.worker .w0).phase = .hwr 0 ∧ outAddr s.regs 0 (s.worker .w0).obase.toNat + 4 ≤ 2 ^ 32 ∧
    busOk s.params (outAddr s.regs 0 (s.worker .w0).obase.toNat) .write = true := by decide

theorem witness_MicroOperationsGoInOrder :
    (CursorPhase.hwr 1).ok 2 0 ∧ (CursorPhase.body 0 1 3 1).ok 2 1 ∧ nextPhase 2 1 (.body 0 1 3 0) = some (.body 0 1 3 1) := by
  simp [CursorPhase.ok, nextPhase]

theorem witness_SlotsOfABlockAreWrittenOnce : (5 : Nat) < 6 ∧ 13 < 5 + 1 + 8 * 1 := by decide

/-! A smaller machine: one mono block of one header, so SPB 1 and TotalSamples 8 (R179's shape with one channel), and slot
0 already holding its word. -/

/-- Its configuration. -/
def tinyRegs : Regs :=
  { Regs.reset with chCount := 1, blockSize := 4, inBase := 0x1000, inLen := 4, outBase := 0x2000, outLen := 8 }

/-- Its memory: the block, and its word in slot 0. -/
def tinyMem : Memory := (Memory.writeBytes [] 0x1000 [0x10, 0x00, 0x05, 0x00]).write32 0x2000 0x3A000100

/-- The same, before that word was written: what the host may still see. -/
def tinyEarlier : Memory := Memory.writeBytes [] 0x1000 [0x10, 0x00, 0x05, 0x00]

/-- Its channels, loaded from the block's header. -/
def tinyChans : List Chan := { pred := 16, idx := 5 } :: List.replicate 7 Chan.reset

/-- It, in a phase of a command, with worker 0 active or not and at a phase of its cursor. -/
def tiny (phase : OrchPhase) (kind : Kind) (w : BitVec 3) (active : Bool) (ph : CursorPhase) (moves : List Move) : State :=
  { State.reset with
    regs := { tinyRegs with
      status := { Status.reset with busy := decide (phase ≠ .idle), drain := decide (phase = .drain) }, runInfo := w }
    orch := { phase := phase, kind := kind, w := w, fillCh := 0, fillI := 1, latched := decide (phase = .drain) }
    workers := { State.reset.workers with
      w0 := { Worker.reset Params.reference with
        active := active, stop := 1, kind := kind, phase := ph, cs := tinyChans } }
    mem := tinyMem
    earlier := [tinyEarlier]
    duties := [{ kind := .stream, regs := tinyRegs }]
    moves := moves }

/-- Worker 0 is its one active worker, if it has one. -/
theorem tiny_idle {phase kind w active ph moves} {v : WorkerId} (hv : v ≠ .w0) :
    (State.worker (tiny phase kind w active ph moves) v).active = false := by
  cases v <;> first | rfl | exact absurd rfl hv

theorem tiny_inv (phase : OrchPhase) (kind : Kind) (w : BitVec 3) (active : Bool) (ph : CursorPhase) (moves : List Move)
    (ha : active = true → phase = .run ∨ phase = .drain) (hk : phase = .fill → kind = .stream)
    (hw : w = 1 ∨ w = 4) (hph : ph = .hchk 0 ∨ ph = .hwr 0) : Inv (tiny phase kind w active ph moves) where
  memWf := (by decide : tinyMem.wf = true)
  earlierWf := (by decide : ∀ m ∈ [tinyEarlier], Memory.wf m = true)
  doneSettled h := nomatch (h : false = true)
  dutiesOk d hd := by rw [List.mem_singleton.mp hd]; exact (by decide : checkConfig Params.reference tinyRegs .stream = none)
  paramsWf := (by decide : Params.reference.wf)
  csOk v := by
    cases v
    · exact (by decide : tinyChans.length = 8 ∧ ∀ c ∈ tinyChans, c.idx.toNat ≤ 88)
    all_goals exact (by decide :
      (List.replicate 8 Chan.reset).length = 8 ∧ ∀ c ∈ List.replicate 8 Chan.reset, c.idx.toNat ≤ 88)
  busyIff := by cases phase <;> simp [tiny]
  drainIff := by cases phase <;> simp [tiny]
  latchedIff := by cases phase <;> simp [tiny]
  errDone h := nomatch (h : false = true)
  runningNotDone _ := rfl
  noError _ _ := ⟨rfl, rfl⟩
  accepted _ := by
    cases kind
    · exact (by decide : checkConfig Params.reference tinyRegs .stream = none)
    · exact (by decide : checkConfig Params.reference tinyRegs .single = none)
  workersUsed _ := by
    rcases hw with rfl | rfl
    · exact ⟨(by decide : 1 ≤ (1#3).toNat), (by decide : (1#3).toNat ≤ 4), rfl⟩
    · exact ⟨(by decide : 1 ≤ (4#3).toNat), (by decide : (4#3).toNat ≤ 4), rfl⟩
  trailIff _ := ⟨fun h => absurd h Bool.false_ne_true, fun h => absurd h.2 (by decide : ¬tinyRegs.hasTrail = true)⟩
  fillOk hf := ⟨hk hf, (by decide : blockCount tinyRegs * spb tinyRegs ≤ 1), .inl (by decide : 1 < totalSamples tinyRegs)⟩
  quiet hq v := by
    by_cases hv : v = .w0
    · subst hv
      by_contra hc
      have hc' : active = true := by cases active <;> first | rfl | exact absurd rfl hc
      rcases ha hc' with h | h <;> rcases hq with hq | hq <;> exact absurd (h.symm.trans hq) (by decide)
    · exact tiny_idle hv
  activeOk v hv := by
    by_cases h0 : v = .w0
    · subst h0
      refine ⟨rfl, ?_, ?_⟩
      · rcases hph with rfl | rfl <;> exact (by decide : (0 : Nat) < 1)
      · cases kind
        · rcases hw with rfl | rfl
          · exact (by decide : 0 < 1 ∧ rangeStart (blockCount tinyRegs) 1 0 ≤ 0 ∧ 0 < rangeEnd (blockCount tinyRegs) 1 0 ∧
              (1#33).toNat = rangeEnd (blockCount tinyRegs) 1 0 ∧ (0#32).toNat = (0#32).toNat * spb tinyRegs)
          · exact (by decide : 0 < 4 ∧ rangeStart (blockCount tinyRegs) 4 0 ≤ 0 ∧ 0 < rangeEnd (blockCount tinyRegs) 4 0 ∧
              (1#33).toNat = rangeEnd (blockCount tinyRegs) 4 0 ∧ (0#32).toNat = (0#32).toNat * spb tinyRegs)
        · exact ⟨rfl, rfl, rfl, rfl⟩
    · exact absurd hv (by rw [tiny_idle h0]; decide)

/-- It after its completion with DONE. -/
def tinyDone : State := completeOk (tiny .run .stream 4 false (.hwr 0) [])

theorem tinyDone_inv : Inv tinyDone :=
  { tiny_inv .idle .stream 4 false (.hwr 0) [] (by decide) (by decide) (.inr rfl) (.inr rfl) with
    earlierWf := fun m hm => absurd hm List.not_mem_nil
    doneSettled := fun _ => rfl
    errDone := fun h => nomatch (h : false = true)
    busyIff := by simp [tinyDone, completeOk]
    drainIff := by simp [tinyDone, completeOk, tiny]
    latchedIff := by simp [tinyDone, completeOk, tiny]
    runningNotDone := fun h => absurd rfl h
    accepted := fun h => absurd rfl h
    workersUsed := fun h => absurd rfl h
    trailIff := fun h => absurd rfl h
    quiet := fun _ v => by cases v <;> rfl
    activeOk := fun v hv => by cases v <;> exact absurd hv Bool.false_ne_true }

/-- R83 (b), (c): the memories in which the host may see a word: that of the acceptance besides the present one, and the
present one alone after the completion. -/
theorem test_completion_settles :
    after (step (tiny .run .stream 4 false (.hwr 0) [.agent .orch])) State.earlier = some [] ∧
    (tiny .run .stream 4 false (.hwr 0) []).earlier.map (·.read32 0x2000) = [0] := by decide

/-- R83 (c): a command accepted after a reset ended one adds the memory of its acceptance to those the host may see. -/
theorem test_reset_then_command :
    after (step (tiny .run .single 1 true (.hwr 0) [regWrite Params.reference .cmd 0xF])) State.earlier =
      some [tinyEarlier] ∧
    after (step (tiny .idle .single 1 false (.hwr 0) [regWrite Params.reference .cmd 0x2])) State.earlier =
      some [tinyMem, tinyEarlier] := by decide

/-- R82: a host read of STATUS with DONE = 1 and BUSY = 0 ends the host's duties; one while BUSY does not. -/
theorem test_status_read_ends_the_duty :
    after (step { tinyDone with moves := [.busRead 0x0C .word] }) State.duties = some [] ∧
    after (step (tiny .run .stream 4 true (.hwr 0) [.busRead 0x0C .word])) (fun t => t.duties.length) = some 1 := by
  decide

/-- R82: before that read a store into the input region goes on, with DONE as it was; the words it makes any words are the
output words of the command. -/
theorem test_store_before_the_status_read :
    (tinyDone.duties.filter (·.covers 0x1000)).map Duty.outputs =
      [[0x2000, 0x2004, 0x2008, 0x200C, 0x2010, 0x2014, 0x2018, 0x201C]] ∧
    after (step { tinyDone with moves := [.store 0x1000 0xAA] }) (fun t => t.regs.status.done) = some true := by decide

theorem tiny_tail : ∀ i, i < 8 → 1 ≤ i → slotWord tinyMem tinyRegs 0 i = 0 := by decide

theorem tiny_block (st : Status) (w : BitVec 3) :
    blockWritten tinyMem { tinyRegs with status := st, runInfo := w } 0 0 := by
  intro c hc
  have h : c = 0 := by have : c < 1 := hc; omega
  subst h
  refine ⟨(by decide : headerFault tinyMem tinyRegs 0 0 = none), fun i hi => ?_⟩
  have h : i = 0 := by have : i < 1 := Nat.lt_of_lt_of_le hi (by decide : spb tinyRegs ≤ 1); omega
  subst h
  exact (by decide : slotWord tinyMem tinyRegs 0 (0 + 0) = blockWord tinyMem tinyRegs 0 0 0)

/-- The ranges of the parameters, and an idle state with a configuration written. -/
theorem witness_ResetMeetsTheInvariant :
    (Params.reference.wf ∧ Params.wf ⟨1, 128, 0, []⟩ ∧ Params.wf ⟨65535, 0, 0, []⟩) ∧
    Inv (tiny .idle .stream 4 false (.hwr 0) []) ∧ (tiny .idle .stream 4 false (.hwr 0) []).orch.phase = .idle :=
  ⟨by decide, tiny_inv _ _ _ _ _ _ (by decide) (by decide) (.inr rfl) (.inr rfl), rfl⟩

/-- Both completions, and a CLEAR that lowers the line. -/
theorem witness_InterruptFallsOnlyByTheHost :
    (let s := tiny .run .stream 4 false (.hwr 0) [.agent .orch]
     Inv s ∧ s.moves = .agent .orch :: [] ∧ s.orch.phase = .run ∧ ∀ w, (s.worker w).active = false) ∧
    (let s := tiny .drain .stream 4 false (.hwr 0) [.agent .orch]
     Inv s ∧ s.moves = .agent .orch :: [] ∧ s.orch.phase = .drain ∧ ∀ w, (s.worker w).active = false) ∧
    ∃ t, step irqState = .next t ∧ irqState.irq = true ∧ t.irq = false ∧ t.regs.irqEn = irqState.regs.irqEn :=
  ⟨⟨tiny_inv _ _ _ _ _ _ (by decide) (by decide) (.inr rfl) (.inr rfl), rfl, rfl, fun w => by cases w <;> rfl⟩,
   ⟨tiny_inv _ _ _ _ _ _ (by decide) (by decide) (.inr rfl) (.inr rfl), rfl, rfl, fun w => by cases w <;> rfl⟩,
   _, rfl, by decide, by decide, by decide⟩

/-- What it has written is right: the tail is 0 and slot 0 holds the word of predictor 16. -/
theorem tiny_output (phase : OrchPhase) (kind : Kind) (w : BitVec 3) (active : Bool) (ph : CursorPhase) (moves : List Move)
    (hph : ph = .hchk 0 ∨ ph = .hwr 0) : OutputInv (tiny phase kind w active ph moves) where
  progress v hv := by
    by_cases h0 : v = .w0
    · subst h0
      intro c hc
      have h : c = 0 := by have : c < 1 := hc; omega
      subst h
      rcases hph with rfl | rfl
      · exact ⟨fun h => absurd h (by decide : ¬(0 : Nat) < 0), fun i hi => absurd hi (Nat.not_lt_zero i)⟩
      · exact ⟨fun _ => (by decide : headerFault tinyMem tinyRegs 0 0 = none ∧
          tinyChans.getD 0 Chan.reset = chanAfter tinyMem tinyRegs 0 0 0), fun i hi => absurd hi (Nat.not_lt_zero i)⟩
    · exact absurd hv (by rw [tiny_idle h0]; decide)
  tail _ _ c i hc hl hi _ := by
    have h : c = 0 := by have : c < 1 := hc; omega
    subst h
    exact tiny_tail i (Nat.lt_of_lt_of_le hi (by decide : totalSamples tinyRegs ≤ 8))
      (Nat.le_trans (by decide : 1 ≤ blockCount tinyRegs * spb tinyRegs) hl)
  blocks _ _ v k hl _ hk := by
    have h : k = 0 := by
      have h1 : rangeEnd (blockCount tinyRegs) w.toNat v.num ≤ 1 := Nat.min_le_right _ _
      split at hk
      · rename_i ha
        have : ((tiny phase kind w active ph moves).worker v).blk.toNat = 0 := by cases v <;> rfl
        omega
      · have : k < rangeEnd (blockCount tinyRegs) w.toNat v.num := hk
        omega
    subst h
    rw [Nat.zero_mul]
    exact tiny_block _ _
  single _ _ _ := tiny_block _ _

theorem witness_FillWritesTheNextTailSlot :
    let s := tiny .fill .stream 4 false (.hchk 0) [.agent .orch]
    s.moves = .agent .orch :: [] ∧ s.orch.phase = .fill ∧ s.orch.fillCh < s.regs.c ∧
    s.orch.fillI < totalSamples s.regs ∧ outAddr s.regs s.orch.fillCh s.orch.fillI + 4 ≤ 2 ^ 32 ∧
    busOk s.params (outAddr s.regs s.orch.fillCh s.orch.fillI) .write = true ∧
    (busOk (noWrites s).params (outAddr s.regs s.orch.fillCh s.orch.fillI) .write = false ∧ s.orch.latched = false) := by
  decide

/-- The smaller machine in FILL with its tail written: DISPATCH is next. -/
def tinyFilled : State :=
  { tiny .fill .stream 4 false (.hchk 0) [.agent .orch] with
    orch := { phase := .fill, kind := .stream, w := 4, fillCh := 1, fillI := 1, latched := false } }

theorem tinyFilled_inv : Inv tinyFilled :=
  { tiny_inv .fill .stream 4 false (.hchk 0) [.agent .orch] (by decide) (fun _ => rfl) (.inr rfl) (.inl rfl) with }

theorem witness_DispatchStartsTheRanges :
    tinyFilled.moves = .agent .orch :: [] ∧ tinyFilled.orch.phase = .fill ∧
    ¬(tinyFilled.orch.fillCh < tinyFilled.regs.c ∧ tinyFilled.orch.fillI < totalSamples tinyFilled.regs) := by decide

theorem witness_JoinCompletesTheCommand :
    let s := tiny .run .stream 4 false (.hwr 0) [.agent .orch]
    s.moves = .agent .orch :: [] ∧ s.orch.phase = .run ∧ s.orch.latched = false ∧ ∀ w, (s.worker w).active = false :=
  ⟨rfl, rfl, rfl, fun w => by cases w <;> rfl⟩

theorem witness_DrainCompletesTheFailedCommand :
    let s := tiny .drain .single 1 false (.hwr 0) [.agent .orch]
    s.moves = .agent .orch :: [] ∧ s.orch.phase = .drain ∧ ∀ w, (s.worker w).active = false :=
  ⟨rfl, rfl, fun w => by cases w <;> rfl⟩

theorem witness_EnabledStepsOfTheAgents :
    let s := tiny .drain .stream 4 true (.hchk 0) []
    Inv s ∧ AgentMove.halt .w0 ∈ enabledMoves s :=
  ⟨tiny_inv _ _ _ _ _ _ (fun _ => .inr rfl) (by decide) (.inr rfl) (.inl rfl), by decide⟩

/-- A last block, and a range that the end of the stream cuts: 5 blocks, 4 workers. -/
theorem witness_RangesPartitionTheBlocks :
    1 ≤ 4 ∧ 4 < 5 ∧ rangeStart 5 4 2 ≤ 4 ∧ 4 < rangeEnd 5 4 2 ∧ rangeEnd 5 4 2 < 3 * rangeSize 5 4 := by decide

theorem witness_BlocksFitTheBuffer :
    shapeOK Params.reference baseRegs = true ∧ baseRegs.len % baseRegs.bs = 0 ∧ (0 : Nat) ≠ 1 ∧ 0 < spb baseRegs := by
  decide

theorem witness_OutputSlotsAreDisjoint :
    checkConfig Params.reference { baseRegs with outBase := 0xFFFFFFC0 } .stream = none ∧ 1 < baseRegs.c ∧
    7 < baseRegs.outLen.toNat ∧ ((0, 7) : Nat × Nat) ≠ (1, 0) ∧ inInRgn baseRegs 0x1007 = true := by decide

/-- A word the block has written and the host need not see, one that every memory agrees on, and a state after DONE. -/
theorem witness_WordsAreLittleEndian :
    (Memory.wf [] = true ∧ 0xFFFFFFFC + 4 ≤ 2 ^ 32) ∧
    (let s := tiny .run .stream 4 true (.hwr 0) [.loadWord 0x800]
     s.moves = .loadWord 0x800 :: [] ∧
      ¬(∀ m ∈ s.earlier, m.read32 (4 * (0x800#30).toNat) = s.mem.read32 (4 * (0x800#30).toNat)) ∧
      ∀ m ∈ s.earlier, m.read32 (4 * (0x3FFFFFFF#30).toNat) = s.mem.read32 (4 * (0x3FFFFFFF#30).toNat)) ∧
    (let s := tiny .run .stream 4 true (.hwr 0) [.load 0x2003]
     s.moves = .load 0x2003 :: [] ∧ ¬(∀ m ∈ s.earlier, m.read (0x2003#32).toNat = s.mem.read (0x2003#32).toNat) ∧
      ∀ m ∈ s.earlier, m.read (0xFFFFFFFF#32).toNat = s.mem.read (0xFFFFFFFF#32).toNat) ∧
    Inv tinyDone ∧ tinyDone.regs.status.done = true :=
  ⟨by decide, by decide, by decide, tinyDone_inv, rfl⟩

theorem witness_EveryStepKeepsTheInvariant :
    let s := tiny .run .stream 4 true (.hwr 0) [.agent (.micro .w0)]
    Inv s ∧ ∃ t, step s = .next t :=
  ⟨tiny_inv _ _ _ _ _ _ (fun _ => .inl rfl) (by decide) (.inr rfl) (.inr rfl), _, rfl⟩

/-- A store that is refused, one that breaks a duty and goes on, the output word it may change and a byte it may not, and
one that breaks none. -/
theorem witness_EveryStepGoesOn :
    (let s := tiny .run .stream 4 true (.hwr 0) [.store 0x1000 0]
     Inv s ∧ step s = .refused .hostWritesRegionWhileBusy) ∧
    (let s := tiny .idle .stream 4 false (.hwr 0) [.store 0x1003 0xAA]
     Inv s ∧ s.moves = .store 0x1003 0xAA :: [] ∧ (∃ t, step s = .next t) ∧
      (∃ d ∈ s.duties, d.covers 0x1003 = true ∧ 0x201C ∈ d.outputs) ∧
      ∀ d ∈ s.duties, d.covers 0x1003 = true → ∀ x ∈ d.outputs, 0x2020 < x ∨ x + 4 ≤ 0x2020) ∧
    (let s := tiny .run .stream 4 true (.hwr 0) [.store 0x2020 0xAA]
     Inv s ∧ s.moves = .store 0x2020 0xAA :: [] ∧ (∃ t, step s = .next t) ∧
      ∀ d ∈ s.duties, d.covers (0x2020#32).toNat = false) :=
  ⟨⟨tiny_inv _ _ _ _ _ _ (fun _ => .inl rfl) (by decide) (.inr rfl) (.inr rfl), rfl⟩,
   ⟨tiny_inv _ _ _ _ _ _ (by decide) (by decide) (.inr rfl) (.inr rfl), rfl, ⟨_, rfl⟩, by decide, by decide⟩,
   ⟨tiny_inv _ _ _ _ _ _ (fun _ => .inl rfl) (by decide) (.inr rfl) (.inr rfl), rfl, ⟨_, rfl⟩, by decide⟩⟩

theorem witness_ConfigurationIsLockedWhileBusy :
    let s := tiny .run .stream 4 true (.hwr 0) [.busWrite 0x14 .word 2]
    let u := tiny .run .stream 4 true (.hwr 0) [.busWrite 0x08 .word 0xF]
    (s.regs.status.busy = true ∧ ∃ t, step s = .next t) ∧
    (u.regs.status.busy = true ∧ resetsNext u ∧ ∃ t, step u = .next t) :=
  ⟨⟨rfl, _, rfl⟩, rfl, ⟨[], .inr ⟨0xF, rfl, by decide⟩⟩, _, rfl⟩

/-- Each clause of PhasesGoAsTheRuleSays, and a reset. -/
theorem witness_PhasesGoAsTheRuleSays :
    (∃ s t, Inv s ∧ step s = .next t ∧ t.orch.phase ≠ s.orch.phase ∧ resetsNext s) ∧
    (∃ s t, Inv s ∧ step s = .next t ∧ t.orch.phase ≠ s.orch.phase ∧ s.orch.phase = .idle) ∧
    (∃ s t, Inv s ∧ step s = .next t ∧ t.orch.phase ≠ s.orch.phase ∧ s.orch.phase = .fill) ∧
    (∃ s t, Inv s ∧ step s = .next t ∧ t.orch.phase ≠ s.orch.phase ∧ s.orch.phase = .run) ∧
    (∃ s t, Inv s ∧ step s = .next t ∧ t.orch.phase ≠ s.orch.phase ∧ s.orch.phase = .drain) :=
  ⟨⟨tiny .run .stream 4 true (.hwr 0) [.powerOn], _,
      tiny_inv _ _ _ _ _ _ (fun _ => .inl rfl) (by decide) (.inr rfl) (.inr rfl), rfl, by decide, [], .inl rfl⟩,
   ⟨tiny .idle .stream 4 false (.hwr 0) [.busWrite 0x08 .word 0x2], _,
      tiny_inv _ _ _ _ _ _ (by decide) (by decide) (.inr rfl) (.inr rfl), rfl, by decide, rfl⟩,
   ⟨tinyFilled, _, tinyFilled_inv, rfl, by decide, rfl⟩,
   ⟨tiny .run .stream 4 false (.hwr 0) [.agent .orch], _,
      tiny_inv _ _ _ _ _ _ (by decide) (by decide) (.inr rfl) (.inr rfl), rfl, by decide, rfl⟩,
   ⟨tiny .drain .stream 4 false (.hwr 0) [.agent .orch], _,
      tiny_inv _ _ _ _ _ _ (by decide) (by decide) (.inr rfl) (.inr rfl), rfl, by decide, rfl⟩⟩

theorem witness_OnlyTheFirstErrorIsRecorded :
    let s := tiny .drain .stream 4 true (.hchk 0) [.agent (.micro .w0)]
    Inv s ∧ s.orch.phase = .drain ∧ ∃ t, step s = .next t :=
  ⟨tiny_inv _ _ _ _ _ _ (fun _ => .inr rfl) (by decide) (.inr rfl) (.inl rfl), rfl, _, rfl⟩

theorem witness_WorkersDoNotTouchEachOther :
    (∃ t, agentStep (.micro .w0) (tiny .run .stream 4 true (.hwr 0) []) = .next t) ∧ WorkerId.w1 ≠ .w0 :=
  ⟨⟨_, rfl⟩, by decide⟩

theorem witness_AgentsWriteOnlyOutputSlots :
    let s := tiny .run .stream 4 true (.hwr 0) []
    Inv s ∧ (∃ t, agentStep (.micro .w0) s = .next t) ∧ ¬isSlotByte s.regs 0x2020 := by
  refine ⟨tiny_inv _ _ _ _ _ _ (fun _ => .inl rfl) (by decide) (.inr rfl) (.inr rfl), ⟨_, rfl⟩, ?_⟩
  rintro ⟨c, i, hc, hi, -, hu⟩
  have h1 : c < 1 := hc
  have h2 : i < 8 := hi
  have h3 : 0x2020 < 0x2000 + 4 * (c * 0 + i) + 4 := hu
  omega

theorem witness_EveryStepKeepsTheOutputRight :
    let s := tiny .run .stream 4 true (.hwr 0) [.agent (.micro .w0)]
    Inv s ∧ OutputInv s ∧ ∃ t, step s = .next t :=
  ⟨tiny_inv _ _ _ _ _ _ (fun _ => .inl rfl) (by decide) (.inr rfl) (.inr rfl), tiny_output _ _ _ _ _ _ (.inr rfl), _, rfl⟩

theorem witness_JoinedDecodeHasWrittenTheStream :
    let s := tiny .run .stream 4 false (.hwr 0) []
    Inv s ∧ OutputInv s ∧ s.orch.phase = .run ∧ s.orch.kind = .stream ∧ ∀ w, (s.worker w).active = false :=
  ⟨tiny_inv _ _ _ _ _ _ (by decide) (by decide) (.inr rfl) (.inr rfl), tiny_output _ _ _ _ _ _ (.inr rfl), rfl, rfl,
   fun w => by cases w <;> rfl⟩

theorem witness_JoinedDecodeBlockHasWrittenItsBlock :
    let s := tiny .run .single 1 false (.hwr 0) []
    Inv s ∧ OutputInv s ∧ s.orch.phase = .run ∧ s.orch.kind = .single ∧ (s.worker .w0).active = false :=
  ⟨tiny_inv _ _ _ _ _ _ (by decide) (by decide) (.inl rfl) (.inr rfl), tiny_output _ _ _ _ _ _ (.inr rfl), rfl, rfl,
   rfl⟩

/-- For both kinds of command. -/
theorem witness_SlotsHoldOldOrSuccessWords :
    (let s := tiny .run .stream 4 true (.hwr 0) [.agent (.micro .w0)]
     Inv s ∧ OutputInv s ∧ s.orch.phase ≠ .idle ∧ ∃ t, step s = .next t) ∧
    (let s := tiny .run .single 1 true (.hwr 0) [.agent (.micro .w0)]
     Inv s ∧ OutputInv s ∧ s.orch.phase ≠ .idle ∧ ∃ t, step s = .next t) ∧
    0 < tinyRegs.c ∧ 7 < tinyRegs.outLen.toNat :=
  ⟨⟨tiny_inv _ _ _ _ _ _ (fun _ => .inl rfl) (by decide) (.inr rfl) (.inr rfl), tiny_output _ _ _ _ _ _ (.inr rfl),
    by decide, _, rfl⟩,
   ⟨tiny_inv _ _ _ _ _ _ (fun _ => .inl rfl) (by decide) (.inl rfl) (.inr rfl), tiny_output _ _ _ _ _ _ (.inr rfl),
    by decide, _, rfl⟩, by decide⟩

/-- Two runs with W = 4 and W = 1. -/
theorem witness_JoinedDecodesAgree :
    let s := tiny .run .stream 4 false (.hwr 0) []
    let t := tiny .run .stream 1 false (.hwr 0) []
    (Inv s ∧ OutputInv s ∧ s.orch.phase = .run ∧ s.orch.kind = .stream ∧ ∀ w, (s.worker w).active = false) ∧
    (Inv t ∧ OutputInv t ∧ t.orch.phase = .run ∧ t.orch.kind = .stream ∧ ∀ w, (t.worker w).active = false) ∧
    t.regs.config = s.regs.config ∧ (∀ a, inInRgn s.regs a = true → t.mem.read a = s.mem.read a) :=
  ⟨witness_JoinedDecodeHasWrittenTheStream,
   ⟨tiny_inv _ _ _ _ _ _ (by decide) (by decide) (.inl rfl) (.inr rfl), tiny_output _ _ _ _ _ _ (.inr rfl), rfl, rfl,
    fun w => by cases w <;> rfl⟩, rfl, fun _ _ => rfl⟩

theorem witness_WorkRunsDown :
    let s := tiny .drain .stream 4 true (.hchk 0) []
    Inv s ∧ s.moves = [] ∧ s.orch.phase ≠ .idle :=
  ⟨tiny_inv _ _ _ _ _ _ (fun _ => .inr rfl) (by decide) (.inr rfl) (.inl rfl), rfl, by decide⟩

end Sys2Proof.Tests
end

/-! ### PROOFS. The tables and the computed registers (10_state.md R21, R22, R45 to R47) -/

namespace Sys2Proof.Machine

/-- Settles O26, by evaluating the two tables. -/
theorem tablesHaveTheirShape : Obligations.TablesHaveTheirShape := by
  unfold Obligations.TablesHaveTheirShape
  decide

theorem shapeOK_iff {p : Params} {r : Regs} :
    shapeOK p r = true ↔ 1 ≤ r.c ∧ r.c ≤ p.maxChannels ∧ 0 < r.bs ∧ r.bs % (4 * r.c) = 0 :=
  decide_eq_true_iff

/-- A block count always fits its register: it is at most IN_LEN. -/
theorem blockCount_lt (r : Regs) : blockCount r < 2 ^ 32 :=
  lt_of_le_of_lt (Nat.div_le_self _ _) r.inLen.isLt

theorem readReg_blockCount {s : State} (h : shapeOK s.params s.regs = true) :
    (readReg s .blockCount).toNat = blockCount s.regs := by
  simp only [readReg, h, if_true, BitVec.toNat_ofNat, Nat.mod_eq_of_lt (blockCount_lt s.regs)]

theorem readReg_totalSamples {s : State} (h : shapeOK s.params s.regs = true) :
    (readReg s .totalSamples).toNat = totalSamples s.regs % 2 ^ 32 := by
  simp only [readReg, h, if_true, BitVec.toNat_ofNat]

theorem readReg_spb {s : State} (h : shapeOK s.params s.regs = true) (hf : spb s.regs < 2 ^ 32) :
    (readReg s .spb).toNat = spb s.regs := by
  simp only [readReg, spbWord, h, hf, if_true, BitVec.toNat_ofNat, Nat.mod_eq_of_lt hf]

/-- Without a legal shape the three computed registers read 0. -/
theorem readReg_computed_of_not_shapeOK {s : State} (h : ¬shapeOK s.params s.regs = true) :
    readReg s .blockCount = 0 ∧ readReg s .totalSamples = 0 ∧ readReg s .spb = 0 := by
  simp [readReg, spbWord, h]

/-- Settles O10, register by register. -/
theorem computedRegistersFollowTheConfiguration : Obligations.ComputedRegistersFollowTheConfiguration := by
  unfold Obligations.ComputedRegistersFollowTheConfiguration
  intro s
  rw [← shapeOK_iff]
  exact ⟨fun h => ⟨readReg_blockCount h, readReg_totalSamples h, readReg_spb h⟩, readReg_computed_of_not_shapeOK⟩

end Sys2Proof.Machine

/-! ### PROOFS. What one step can do: one inversion lemma for each layer of the step function -/

namespace Sys2Proof.Machine

/-! #### Register accesses and loads -/

/-- `t` is `s` but for the model's own fields and for duties the host has ended (R77 (d), R82): nothing of the block, its
registers or memory differs. -/
def State.SameBlock (s t : State) : Prop :=
  ∃ (dl : List Duty) (mv : List Move) (k : Nat) (d : Word), (dl = s.duties ∨ dl = []) ∧
    t = { s with duties := dl, moves := mv, tick := k, rdata := d }

theorem State.SameBlock.ofFields (s : State) (mv : List Move) (k : Nat) (d : Word) :
    s.SameBlock { s with moves := mv, tick := k, rdata := d } :=
  ⟨_, _, _, _, .inl rfl, rfl⟩

theorem State.SameBlock.trans {s t u : State} (h : s.SameBlock t) (h' : t.SameBlock u) : s.SameBlock u := by
  obtain ⟨dl, mv, k, d, hd, rfl⟩ := h
  obtain ⟨dl', mv', k', d', hd', rfl⟩ := h'
  refine ⟨dl', mv', k', d', ?_, rfl⟩
  rcases hd' with rfl | rfl
  · exact hd
  · exact .inr rfl

theorem State.SameBlock.acknowledge (addr : Nat) (size : AccSize) (s : State) : s.SameBlock (acknowledge addr size s) := by
  unfold Machine.acknowledge
  split
  · exact ⟨_, _, _, _, .inr rfl, rfl⟩
  · exact .ofFields s _ _ _

theorem State.SameBlock.busRead (addr : Nat) (size : AccSize) (s : State) : s.SameBlock (busRead addr size s) := by
  unfold Machine.busRead
  split
  · exact (SameBlock.acknowledge addr size s).trans (.ofFields _ _ _ _)
  · exact .ofFields s _ _ _

theorem windowOffset_some {p : Params} {addr off : Nat} (h : windowOffset p addr = some off) :
    addr = p.regBase + off := by
  unfold windowOffset at h
  split at h
  · have := Option.some.inj h; omega
  · cases h

theorem regAtOffset_some {off : Nat} {r : Reg} (h : regAtOffset off = some r) : regOffset r = off :=
  of_decide_eq_true (List.find?_some h :)

/-- A write on the host bus does nothing, or is a command, or writes a register (R77). -/
theorem busWrite_next {addr : Nat} {size : AccSize} {v : Word} {s t : State} (h : busWrite addr size v s = .next t) :
    t = s ∨
    (size = .word ∧ addr = s.params.regBase + regOffset .cmd ∧ takeCommand v s = .next t) ∨
    (∃ r, size = .word ∧ r ≠ .cmd ∧ addr = s.params.regBase + regOffset r ∧ t = writeReg s r v) := by
  unfold busWrite at h
  split at h
  · rename_i off hoff
    have haddr := windowOffset_some hoff
    split at h
    · rename_i hr
      exact .inr (.inl ⟨rfl, regAtOffset_some hr ▸ haddr, h⟩)
    · rename_i r hne hr
      cases h
      exact .inr (.inr ⟨r, rfl, hne, regAtOffset_some hr ▸ haddr, rfl⟩)
    · cases h; exact .inl rfl
  · cases h; exact .inl rfl

/-! #### Commands -/

/-- A legal command word decodes to a command, never to a nibble code (R103). -/
theorem decodeCmd_isCommand {cw : Word} {i : Instr} (h : decodeCmd cw = .instr i) : i.isCommand = true := by
  unfold decodeCmd at h
  split_ifs at h <;> cases h
  all_goals rfl

/-- What a word written to CMD does to the state (R220 to R229). -/
inductive CommandCase (cw : Word) (s : State) : State → Prop
  /-- NOP, or ABORT while idle -/
  | nothing : CommandCase cw s s
  /-- a word other than NOP, ABORT and SOFT_RESET, while BUSY -/
  | dropped (hrun : s.orch.phase ≠ .idle) : CommandCase cw s (dropWord s)
  /-- an illegal word, or a configuration that fails its check, while idle -/
  | rejected (hidle : s.orch.phase = .idle) (e : ErrCause) : CommandCase cw s (completeErr e (startClear s))
  | acceptedDecode (hidle : s.orch.phase = .idle) (workers : BitVec 3) (hcw : decodeCmd cw = .instr (.decode workers))
      (hw : workers.toNat ≤ Config.wMax) (hcheck : checkConfig s.params s.regs .stream = none) :
      CommandCase cw s (acceptDecode (workerCount workers) (startClear s))
  | acceptedDecodeBlock (hidle : s.orch.phase = .idle) (hcw : decodeCmd cw = .instr .decodeBlock)
      (hcheck : checkConfig s.params s.regs .single = none) : CommandCase cw s (acceptDecodeBlock (startClear s))
  | aborted (hrun : s.orch.phase ≠ .idle) : CommandCase cw s (raiseError none abortedRec s)
  | cleared (hidle : s.orch.phase = .idle) : CommandCase cw s { s with regs := s.regs.clearAll }
  | softReset (hcw : decodeCmd cw = .instr .softReset) : CommandCase cw s (resetBlock s)

theorem illegalCommand_case (cw : Word) (sub : BitVec 4) (s : State) : CommandCase cw s (illegalCommand sub s) := by
  unfold illegalCommand
  split
  · exact .rejected ‹_› _
  · exact .dropped ‹_›

theorem execDecode_case {cw : Word} {workers : BitVec 3} {s t : State} (hcw : decodeCmd cw = .instr (.decode workers))
    (h : execDecode workers s = .next t) : CommandCase cw s t := by
  unfold execDecode at h
  split at h
  · cases h; exact .dropped ‹_›
  · rename_i hidle
    split at h
    · cases h; exact illegalCommand_case cw 3 s
    · split at h <;> cases h
      · exact .rejected (not_not.mp hidle) _
      · exact .acceptedDecode (not_not.mp hidle) workers hcw (by omega) ‹_›

theorem execDecodeBlock_case {cw : Word} {s t : State} (hcw : decodeCmd cw = .instr .decodeBlock)
    (h : execDecodeBlock s = .next t) : CommandCase cw s t := by
  unfold execDecodeBlock at h
  split at h
  · cases h; exact .dropped ‹_›
  · rename_i hidle
    split at h <;> cases h
    · exact .rejected (not_not.mp hidle) _
    · exact .acceptedDecodeBlock (not_not.mp hidle) hcw ‹_›

theorem execAbort_case {cw : Word} {s t : State} (h : execAbort s = .next t) : CommandCase cw s t := by
  unfold execAbort at h
  split at h <;> cases h
  · exact .nothing
  · exact .aborted ‹_›

theorem execClear_case {cw : Word} {s t : State} (h : execClear s = .next t) : CommandCase cw s t := by
  unfold execClear at h
  split at h <;> cases h
  · exact .dropped ‹_›
  · exact .cleared (not_not.mp ‹_›)

theorem takeCommand_case {cw : Word} {s t : State} (h : takeCommand cw s = .next t) : CommandCase cw s t := by
  unfold takeCommand at h
  split at h
  · rename_i i hi
    have hcmd := decodeCmd_isCommand hi
    cases i
    case nop => cases h; exact .nothing
    case decode workers => exact execDecode_case hi h
    case decodeBlock => exact execDecodeBlock_case hi h
    case abort => exact execAbort_case h
    case clear => exact execClear_case h
    case softReset => cases h; exact .softReset hi
    all_goals cases hcmd
  · cases h; exact illegalCommand_case cw _ s

/-! #### Micro-operations -/

/-- NIBBLE_STEP gives a step index in range (R133, R136). -/
theorem nibbleStep_idx_le (n : BitVec 4) (c : Chan) : (nibbleStep n c).idx.toNat ≤ 88 := by
  have hlo : 0 ≤ nextIdx n c.idx.toNat := by unfold nextIdx clampInt; omega
  have hhi : nextIdx n c.idx.toNat ≤ 88 := by unfold nextIdx clampInt; omega
  simp only [nibbleStep, BitVec.toNat_ofInt]
  omega

theorem active_of_microEnabled {s : State} {w : WorkerId} (h : microEnabled s w = true) : (s.worker w).active = true := by
  simp only [microEnabled, Bool.and_eq_true] at h
  exact h.1

/-- A micro-operation of worker `w` from `s` has come to `u` before it writes or moves its cursor: at most one channel of
the worker is updated, to a step index in range. -/
inductive ChanUpdate (w : WorkerId) (s : State) : State → Prop
  | none : ChanUpdate w s { s with turn := w }
  | chan (ch : Nat) (x : Chan) (hx : x.idx.toNat ≤ 88) :
      ChanUpdate w s ({ s with turn := w }.setWorker w ((s.worker w).setChan ch x))

theorem ChanUpdate.orch {w : WorkerId} {s u : State} (h : ChanUpdate w s u) : u.orch = s.orch := by
  cases h <;> rfl

/-- What a micro-operation of worker `w` does (R131, R132, R138). -/
inductive MicroCase (w : WorkerId) (s : State) : State → Prop
  | disabled : MicroCase w s s
  | failed (u : State) (e : ErrRec) (hon : microEnabled s w = true) (hu : ChanUpdate w s u) :
      MicroCase w s (raiseError (some w) e u)
  | loaded (u : State) (hon : microEnabled s w = true) (hu : ChanUpdate w s u) : MicroCase w s (advance w u)
  | wrote (u : State) (a : Nat) (word : Word) (hon : microEnabled s w = true) (hu : ChanUpdate w s u)
      (ha : a + 4 ≤ Memory.size) : MicroCase w s (advance w { u with mem := u.mem.write32 a word })

theorem writeSample_case {w : WorkerId} {ch i : Nat} {word : Word} {s u t : State} (hon : microEnabled s w = true)
    (hu : ChanUpdate w s u) (h : writeSample w ch i word u = .next t) : MicroCase w s t := by
  obtain ⟨ha, -, rfl⟩ | ⟨-, rfl⟩ := writeSample_next h
  · exact .wrote u _ word hon hu ha
  · exact .failed u _ hon hu

theorem hdrCheck_case {w : WorkerId} {ch : Nat} {s t : State} (hon : microEnabled s w = true)
    (h : hdrCheck w ch { s with turn := w } = .next t) : MicroCase w s t := by
  obtain ⟨h0, h1, h2, h3, -, -, -, -, rfl⟩ | rfl := hdrCheck_next h
  · obtain ⟨-, heq⟩ | ⟨-, -, heq⟩ | ⟨hidx, -, heq⟩ := checkHeader_cases w ch h0 h1 h2 h3 { s with turn := w } <;> rw [heq]
    · exact .failed _ _ hon .none
    · exact .failed _ _ hon .none
    · exact .loaded _ hon (.chan ch _ (by rw [BitVec.toNat_setWidth]; omega))
  · exact .failed _ _ hon .none

theorem bodyStep_case {w : WorkerId} {n : BitVec 4} {g ch b h : Nat} {s t : State} (hon : microEnabled s w = true)
    (hp : (s.worker w).phase = .body g ch b h) (hx : exec (decodeNibble n) { s with turn := w } = .next t) :
    MicroCase w s t := by
  rw [exec_decodeNibble, bodySample_at (s := { s with turn := w }) (active_of_microEnabled hon) hp] at hx
  exact writeSample_case hon (.chan ch _ (nibbleStep_idx_le n _)) hx

theorem microStep_case {w : WorkerId} {s t : State} (h : microStep w s = .next t) : MicroCase w s t := by
  unfold microStep at h
  split at h
  · rename_i hon
    split at h
    · exact hdrCheck_case hon h
    · exact writeSample_case hon .none h
    · rename_i hp
      split at h
      · exact bodyStep_case hon hp h
      · cases h; exact .failed _ _ hon .none
      · cases h
  · cases h; exact .disabled

/-! #### The whole step -/

/-- What one step does: a reset, a store, a command or a register write of the host; else at most one step of an agent of
the block, from a state that is the same but for the model's own fields and ended duties. -/
inductive StepCase (s t : State) : Prop
  | powerOn (rest : List Move) (hm : s.moves = .powerOn :: rest) (ht : t = resetBlock { s with moves := rest })
  | store (rest : List Move) (a : BitVec 32) (b : Byte) (hm : s.moves = .store a b :: rest)
      (ht : hostStore a b { s with moves := rest } = .next t)
  | command (rest : List Move) (cw : Word) (hm : s.moves = .busWrite (s.params.regBase + 0x08) .word cw :: rest)
      (ht : CommandCase cw { s with moves := rest } t)
  | register (rest : List Move) (r : Reg) (v : Word) (hr : r ≠ .cmd)
      (hm : s.moves = .busWrite (s.params.regBase + regOffset r) .word v :: rest)
      (ht : t = writeReg { s with moves := rest } r v)
  | quiet (ht : s.SameBlock t)
  | agent (u : State) (a : AgentMove) (hu : s.SameBlock u) (ht : agentStep a u = .next t)

/-- A step of the block on its own, from a state the same as `s`. -/
theorem freeStep_case {s u t : State} (hu : s.SameBlock u) (h : freeStep u = .next t) : StepCase s t := by
  obtain ⟨-, rfl⟩ | ⟨a, k, -, ha⟩ := freeStep_next h
  · exact .quiet hu
  · exact .agent _ a (hu.trans (.ofFields u _ k _)) ha

theorem busWrite_case {addr : Nat} {size : AccSize} {v : Word} {rest : List Move} {s t : State}
    (hm : s.moves = .busWrite addr size v :: rest) (h : busWrite addr size v { s with moves := rest } = .next t) :
    StepCase s t := by
  obtain rfl | ⟨rfl, rfl, hc⟩ | ⟨r, rfl, hr, rfl, rfl⟩ := busWrite_next h
  · exact .quiet (.ofFields s _ _ _)
  · exact .command rest v hm (takeCommand_case hc)
  · exact .register rest r v hr hm rfl

theorem waitStep_case {addr bit : Nat} {rest : List Move} {s t : State}
    (h : waitStep addr bit { s with moves := rest } = .next t) : StepCase s t := by
  have hrest : s.SameBlock { s with moves := rest } := .ofFields s _ _ _
  unfold waitStep at h
  split at h
  · cases h
    exact .quiet (hrest.trans (.busRead addr .word _))
  · exact freeStep_case ((hrest.trans (.acknowledge addr .word _)).trans (.ofFields _ _ _ _)) h

theorem step_case {s t : State} (h : step s = .next t) : StepCase s t := by
  unfold step at h
  split at h
  · exact freeStep_case (.ofFields s _ _ _) h
  · rename_i m rest hm
    have hrest : s.SameBlock { s with moves := rest } := .ofFields s _ _ _
    cases m with
    | agent a => exact .agent _ a hrest h
    | busWrite addr size v => exact busWrite_case hm h
    | busRead addr size => cases h; exact .quiet (hrest.trans (.busRead addr size _))
    | store a b => exact .store rest a b hm h
    | load a => cases h; exact .quiet (.ofFields s _ _ _)
    | loadWord n => cases h; exact .quiet (.ofFields s _ _ _)
    | wait addr bit => exact waitStep_case h
    | powerOn => cases h; exact .powerOn rest hm rfl

end Sys2Proof.Machine

/-! ### PROOFS. The configuration lock (10_state.md R51) -/

namespace Sys2Proof.Machine

/-- The parameters and the configuration registers are the same. -/
def State.SameConfig (s t : State) : Prop := t.params = s.params ∧ t.regs.config = s.regs.config

theorem State.SameConfig.refl (s : State) : s.SameConfig s := ⟨rfl, rfl⟩

theorem State.SameConfig.trans {s t u : State} (h : s.SameConfig t) (h' : t.SameConfig u) : s.SameConfig u :=
  ⟨h'.1.trans h.1, h'.2.trans h.2⟩

theorem State.SameBlock.sameConfig {s t : State} (h : s.SameBlock t) : s.SameConfig t := by
  obtain ⟨dl, mv, k, d, -, rfl⟩ := h
  exact .refl s

theorem raiseError_sameConfig (who : Option WorkerId) (e : ErrRec) (s : State) : s.SameConfig (raiseError who e s) := by
  cases hl : s.orch.latched
  · rw [raiseError_first hl]
    exact ⟨haltRaiser_params who s, rfl⟩
  · rw [raiseError_latched hl]
    exact ⟨haltRaiser_params who s, congrArg Regs.config (haltRaiser_regs who s)⟩

section write
variable (regs : Regs) (v : Word) (r : Reg)

@[simp] theorem Regs.write_status : (regs.write v r).status = regs.status := by cases r <;> rfl
@[simp] theorem Regs.write_errInfo : (regs.write v r).errInfo = regs.errInfo := by cases r <;> rfl
@[simp] theorem Regs.write_errBlock : (regs.write v r).errBlock = regs.errBlock := by cases r <;> rfl

end write

theorem Regs.write_config {r : Reg} (h : regIsConfig r = false) (regs : Regs) (v : Word) :
    (regs.write v r).config = regs.config := by
  cases r <;> cases h <;> rfl

/-- The configuration lock: while BUSY a register write keeps every configuration register (R51). -/
theorem writeReg_sameConfig {s : State} (hb : s.regs.status.busy = true) (r : Reg) (v : Word) :
    s.SameConfig (writeReg s r v) := by
  unfold writeReg
  split
  · exact .refl s
  · rename_i hlock
    have hr : regIsConfig r = false := by simpa [hb] using hlock
    exact ⟨rfl, Regs.write_config hr s.regs v⟩

theorem hostStore_sameConfig {a : BitVec 32} {b : Byte} {s t : State} (h : hostStore a b s = .next t) :
    s.SameConfig t := by
  obtain ⟨-, rfl⟩ | ⟨-, -, as, r, -, rfl | ⟨-, rfl⟩, rfl⟩ := hostStore_next h <;> exact .refl s

/-- No word written to CMD changes a configuration register, but SOFT_RESET. -/
theorem CommandCase.sameConfig {cw : Word} {s t : State} (h : CommandCase cw s t) :
    s.SameConfig t ∨ (decodeCmd cw = .instr .softReset ∧ t = resetBlock s) := by
  cases h
  case aborted => exact .inl (raiseError_sameConfig none _ s)
  case softReset hcw => exact .inr ⟨hcw, rfl⟩
  all_goals exact .inl (.refl s)

theorem ChanUpdate.sameConfig {w : WorkerId} {s u : State} (h : ChanUpdate w s u) : s.SameConfig u := by
  cases h <;> exact .refl s

theorem MicroCase.sameConfig {w : WorkerId} {s t : State} (h : MicroCase w s t) : s.SameConfig t := by
  cases h with
  | disabled => exact .refl s
  | failed u e _ hu => exact hu.sameConfig.trans (raiseError_sameConfig _ e u)
  | loaded u _ hu => exact hu.sameConfig
  | wrote u a word _ hu _ => exact hu.sameConfig

theorem orchStep_sameConfig {s t : State} (h : orchStep s = .next t) : s.SameConfig t := by
  obtain rfl | ⟨-, -, hf⟩ | ⟨-, -, rfl⟩ | ⟨-, -, -, rfl⟩ | ⟨-, -, rfl⟩ := orchStep_next h
  case inr.inl =>
    obtain ⟨-, rfl⟩ | rfl := fillWrite_next hf
    · exact .refl s
    · exact raiseError_sameConfig none _ s
  all_goals exact .refl _

theorem haltStep_sameConfig (w : WorkerId) (s : State) : s.SameConfig (haltStep w s) := by
  unfold haltStep
  split <;> exact .refl s

/-- No step of an agent of the block changes a configuration register. -/
theorem agentStep_sameConfig {a : AgentMove} {s t : State} (h : agentStep a s = .next t) : s.SameConfig t := by
  cases a with
  | orch => exact orchStep_sameConfig h
  | micro w => exact (microStep_case h).sameConfig
  | halt w => cases h; exact haltStep_sameConfig w s

/-- Settles O50: of all a step can do, only a reset changes a locked configuration. -/
theorem configurationIsLockedWhileBusy : Obligations.ConfigurationIsLockedWhileBusy := by
  unfold Obligations.ConfigurationIsLockedWhileBusy
  intro s t hb h
  have kept (hc : s.SameConfig t) :
      t.params = s.params ∧ (t.regs.config = s.regs.config ∨ (resetsNext s ∧ t.regs = Regs.reset)) := ⟨hc.1, .inl hc.2⟩
  cases step_case h with
  | powerOn rest hm ht => exact ht ▸ ⟨rfl, .inr ⟨⟨rest, .inl hm⟩, rfl⟩⟩
  | store rest a b _ ht => exact kept (hostStore_sameConfig (s := { s with moves := rest }) ht)
  | command rest cw hm ht =>
    obtain hc | ⟨hcw, rfl⟩ := ht.sameConfig
    · exact kept hc
    · exact ⟨rfl, .inr ⟨⟨rest, .inr ⟨cw, hm, hcw⟩⟩, rfl⟩⟩
  | register rest r v _ _ ht => exact kept (ht ▸ writeReg_sameConfig (s := { s with moves := rest }) hb r v)
  | quiet ht => exact kept ht.sameConfig
  | agent u a hu ht => exact kept (hu.sameConfig.trans (agentStep_sameConfig ht))

end Sys2Proof.Machine

/-! ### PROOFS. Arithmetic and cursor facts the invariant needs (R130, R170 to R175, R194) -/

namespace Sys2Proof.Machine

/-- The samples of the complete blocks are among the samples of the stream (R174, R177). -/
theorem blocks_mul_spb_le_totalSamples {r : Regs} (hc : 1 ≤ r.c) (hb : 0 < r.bs) (hm : r.bs % (4 * r.c) = 0) :
    blockCount r * spb r ≤ totalSamples r := by
  have hlen : blockCount r * r.bs ≤ r.len := Nat.div_mul_le_self _ _
  have hsize : blockCount r * spb r * r.c ≤ 2 * (blockCount r * r.bs) := by
    rw [bs_eq hc hb hm, spb]
    calc blockCount r * (1 + 8 * chunkCount r) * r.c
        ≤ blockCount r * (8 * (chunkCount r + 1)) * r.c := by gcongr; omega
      _ = 2 * (blockCount r * (4 * r.c * (chunkCount r + 1))) := by ring
  exact (Nat.le_div_iff_mul_le hc).mpr (by omega)

/-- In an accepted DECODE the output base of every block is a 32-bit number (R256). -/
theorem blockBase_lt {p : Params} {r : Regs} {k : Nat} (hcheck : checkConfig p r .stream = none) (hk : k < blockCount r) :
    k * spb r < 2 ^ 32 := by
  obtain ⟨⟨hc, -⟩, ⟨hb, hm⟩, -, -, -, hlen, -⟩ := checkConfig_none.mp hcheck
  calc k * spb r ≤ blockCount r * spb r := Nat.mul_le_mul_right _ hk.le
    _ ≤ totalSamples r := blocks_mul_spb_le_totalSamples hc hb hm
    _ < 2 ^ 32 := hlen rfl ▸ r.outLen.isLt

theorem rangeEnd_le (blocks w i : Nat) : rangeEnd blocks w i ≤ blocks := Nat.min_le_right _ _

/-- The order of R130 stays in the ranges of R26. -/
theorem nextPhase_ok {c chunks : Nat} {ph ph' : CursorPhase} (hc : 1 ≤ c) (hok : ph.ok c chunks)
    (h : nextPhase c chunks ph = some ph') : ph'.ok c chunks := by
  cases ph with
  | hchk ch =>
    cases h
    split
    · assumption
    · exact hc
  | hwr ch =>
    simp only [nextPhase] at h
    split_ifs at h with hch hg <;> cases h
    · exact hch
    · exact ⟨hg, hc, by decide, by decide⟩
  | body g ch b half =>
    obtain ⟨hg, hch, hb, -⟩ := hok
    simp only [nextPhase] at h
    split_ifs at h with _ hb' hch' hg' <;> cases h
    · exact ⟨hg, hch, hb, by decide⟩
    · exact ⟨hg, hch, hb', by decide⟩
    · exact ⟨hg, hch', by decide, by decide⟩
    · exact ⟨hg', hc, by decide, by decide⟩

theorem Worker.csOk_of_cs_eq {p : Params} {wk x : Worker} (h : wk.csOk p) (hcs : x.cs = wk.cs) : x.csOk p := by
  unfold Worker.csOk
  rw [hcs]
  exact h

theorem Worker.csOk_setChan {p : Params} {wk : Worker} {ch : Nat} {x : Chan} (h : wk.csOk p) (hx : x.idx.toNat ≤ 88) :
    (wk.setChan ch x).csOk p := by
  obtain ⟨hlen, hidx⟩ := h
  refine ⟨by simp [hlen], fun c hc => ?_⟩
  obtain hc | rfl := List.mem_or_eq_of_mem_set hc
  · exact hidx c hc
  · exact hx

/-- A worker started at a block of its range is in that range (R130, R192, R194). -/
theorem Worker.startBlock_activeOk {p : Params} {r : Regs} {o : Orch} {w : WorkerId} {wk : Worker} {k : Nat}
    (hkind : o.kind = .stream) (hcheck : checkConfig p r .stream = none) (hwk : wk.kind = .stream) (hw : w.num < o.w.toNat)
    (hlo : rangeStart (blockCount r) o.w.toNat w.num ≤ k) (hhi : k < rangeEnd (blockCount r) o.w.toNat w.num)
    (hstop : wk.stop.toNat = rangeEnd (blockCount r) o.w.toNat w.num) :
    (wk.startBlock k (k * spb r)).activeOk r o w := by
  obtain ⟨⟨hc, -⟩, -⟩ := checkConfig_none.mp hcheck
  have hk : k < blockCount r := lt_of_lt_of_le hhi (rangeEnd_le _ _ _)
  have hblk : (BitVec.ofNat 32 k).toNat = k := Nat.mod_eq_of_lt (hk.trans (blockCount_lt r))
  have hbase : (BitVec.ofNat 32 (k * spb r)).toNat = k * spb r := Nat.mod_eq_of_lt (blockBase_lt hcheck hk)
  refine ⟨hwk.trans hkind.symm, hc, ?_⟩
  simp only [Worker.rangeOk, hkind, Worker.startBlock_blk, Worker.startBlock_stop, Worker.startBlock_obase, hblk, hbase]
  exact ⟨hw, hlo, hhi, hstop, trivial⟩

/-- A cursor that moves on stays in its ranges, or its worker stops (R130, R194). -/
theorem advanceWorker_activeOk {p : Params} {r : Regs} {o : Orch} {w : WorkerId} {wk : Worker}
    (hcheck : checkConfig p r o.kind = none) (hok : wk.activeOk r o w) (ha : (advanceWorker r wk).active = true) :
    (advanceWorker r wk).activeOk r o w := by
  obtain ⟨hkind, hphase, hrange⟩ := hok
  obtain ⟨⟨hc, -⟩, -⟩ := checkConfig_none.mp hcheck
  unfold advanceWorker at ha ⊢
  split at ha
  · exact ⟨hkind, nextPhase_ok hc hphase ‹_›, hrange⟩
  · unfold blockEnd at ha ⊢
    split_ifs at ha ⊢ with hnext
    obtain ⟨hstream, hlt⟩ := hnext
    have hk : o.kind = .stream := hkind.symm.trans hstream
    simp only [Worker.rangeOk, hk] at hrange
    obtain ⟨hw, hlo, hhi, hstop, -⟩ := hrange
    exact Worker.startBlock_activeOk hk (hk ▸ hcheck) hstream hw (by omega) (by omega) hstop

theorem advanceWorker_cs (r : Regs) (wk : Worker) : (advanceWorker r wk).cs = wk.cs := by
  unfold advanceWorker
  split
  · rfl
  · unfold blockEnd
    split <;> rfl

/-- Moving a cursor never starts a worker. -/
theorem active_of_advanceWorker {r : Regs} {wk : Worker} (h : (advanceWorker r wk).active = true) : wk.active = true := by
  unfold advanceWorker at h
  split at h
  · exact h
  · unfold blockEnd at h
    split at h
    · exact h
    · cases h

theorem dispatchWorker_cs (r : Regs) (w i : Nat) (wk : Worker) : (dispatchWorker r w i wk).cs = wk.cs := by
  unfold dispatchWorker
  split <;> rfl

/-- A worker that DISPATCH starts is at the first block of its range (R175, R192). -/
theorem dispatchWorker_activeOk {p : Params} {r : Regs} {o : Orch} {w : WorkerId} {wk : Worker} (hkind : o.kind = .stream)
    (hcheck : checkConfig p r .stream = none) (hstopped : wk.active = false)
    (ha : (dispatchWorker r o.w.toNat w.num wk).active = true) :
    (dispatchWorker r o.w.toNat w.num wk).activeOk r o w := by
  unfold dispatchWorker at ha ⊢
  split at ha
  · rename_i hstart
    rw [if_pos hstart]
    have hend : rangeEnd (blockCount r) o.w.toNat w.num < 2 ^ 33 :=
      lt_of_le_of_lt (rangeEnd_le _ _ _) ((blockCount_lt r).trans (by decide))
    exact Worker.startBlock_activeOk hkind hcheck rfl hstart.1 le_rfl hstart.2 (Nat.mod_eq_of_lt hend)
  · exact absurd ha (by simp [hstopped])

theorem workerCount_range {workers : BitVec 3} (h : workers.toNat ≤ Config.wMax) :
    1 ≤ (BitVec.ofNat 3 (workerCount workers)).toNat ∧
    (BitVec.ofNat 3 (workerCount workers)).toNat ≤ Config.wMax := by
  revert workers
  decide

end Sys2Proof.Machine

/-! ### PROOFS. Every operation keeps the invariant of the machine (R24 to R27, R51, R83, R144, R175) -/

namespace Sys2Proof.Machine

/-! #### One rule for each part of the state an operation replaces -/

section parts
variable {s : State} (hi : Inv s)
include hi

theorem Inv.sameBlock {t : State} (h : s.SameBlock t) : Inv t := by
  obtain ⟨dl, mv, k, d, hd, rfl⟩ := h
  exact { hi with
    dutiesOk := fun x hx => hd.elim (fun h => hi.dutiesOk x (h ▸ hx)) (fun h => absurd (h ▸ hx) List.not_mem_nil) }

theorem Inv.setTurn (w : WorkerId) : Inv { s with turn := w } := { hi with }

theorem Inv.setMem {m : Memory} (hm : m.wf = true) : Inv { s with mem := m } := { hi with memWf := hm }

/-- The same change to the present memory and to every earlier one. -/
theorem Inv.mapMems {f : Memory → Memory} (hf : ∀ m : Memory, m.wf = true → (f m).wf = true) :
    Inv { s with mem := f s.mem, earlier := s.earlier.map f } :=
  { hi with
    memWf := hf _ hi.memWf
    earlierWf := fun m hm => by
      obtain ⟨m', hm', rfl⟩ := List.mem_map.mp hm
      exact hf m' (hi.earlierWf m' hm')
    doneSettled := fun h => congrArg (List.map f) (hi.doneSettled h) }

/-- One worker replaced: it may stop, and may stay active only in its range. -/
theorem Inv.setWorker {w : WorkerId} {x : Worker} (hcs : x.csOk s.params)
    (hact : x.active = true → (s.worker w).active = true ∧ x.activeOk s.regs s.orch w) : Inv (s.setWorker w x) :=
  { hi with
    csOk := fun v => by
      rw [State.worker_setWorker]
      split
      · exact hcs
      · exact hi.csOk v
    quiet := fun hq v => by
      rw [State.worker_setWorker]
      split
      · exact Bool.eq_false_iff.mpr fun h => absurd (hi.quiet hq w) (by simp [(hact h).1])
      · exact hi.quiet hq v
    activeOk := fun v => by
      rw [State.worker_setWorker]
      split
      · rename_i hv
        exact fun h => hv ▸ (hact h).2
      · exact hi.activeOk v }

theorem Inv.haltWorker (w : WorkerId) : Inv (s.haltWorker w) :=
  hi.setWorker (hi.csOk w) fun h => absurd h Bool.false_ne_true

theorem inv_haltRaiser (who : Option WorkerId) : Inv (haltRaiser who s) := by
  cases who with
  | none => exact hi
  | some w => exact hi.haltWorker w

theorem Inv.setChan (w : WorkerId) (ch : Nat) {x : Chan} (hx : x.idx.toNat ≤ 88) :
    Inv (s.setWorker w ((s.worker w).setChan ch x)) :=
  hi.setWorker (Worker.csOk_setChan (hi.csOk w) hx) fun h => ⟨h, hi.activeOk w h⟩

theorem Inv.running_of_active {w : WorkerId} (ha : (s.worker w).active = true) : s.orch.phase ≠ .idle := fun h =>
  absurd (hi.quiet (.inl h) w) (by simp [ha])

theorem inv_advance (w : WorkerId) : Inv (advance w s) :=
  hi.setWorker (Worker.csOk_of_cs_eq (hi.csOk w) (advanceWorker_cs s.regs _)) fun h => by
    have ha := active_of_advanceWorker h
    exact ⟨ha, advanceWorker_activeOk (hi.accepted (hi.running_of_active ha)) (hi.activeOk w ha) h⟩

/-! #### The flags while idle and outside DRAIN -/

theorem Inv.not_busy (h : s.orch.phase = .idle) : s.regs.status.busy = false :=
  Bool.eq_false_iff.mpr fun hb => hi.busyIff.mp hb h

theorem Inv.idle_of_not_busy (h : ¬s.regs.status.busy = true) : s.orch.phase = .idle :=
  not_not.mp fun hp => h (hi.busyIff.mpr hp)

theorem Inv.not_drain (h : s.orch.phase ≠ .drain) : s.regs.status.drain = false :=
  Bool.eq_false_iff.mpr fun hd => h (hi.drainIff.mp hd)

theorem Inv.not_latched (h : s.orch.phase ≠ .drain) : s.orch.latched = false :=
  Bool.eq_false_iff.mpr fun hl => h (hi.latchedIff.mp hl)

/-- The state an operation leaves IDLE, with no worker active: only the flags and the error registers are left to check.
Every completion, reset and register update while idle is one. -/
theorem Inv.toIdle {r : Regs} {o : Orch} {ws : Workers} {ml : List Memory} (hml : ml = s.earlier ∨ ml = [])
    (hphase : o.phase = .idle) (hlatched : o.latched = false) (hbusy : r.status.busy = false)
    (hdrain : r.status.drain = false) (hsettled : r.status.done = true → ml = [])
    (hdone : r.status.err = true → r.status.done = true)
    (hrecord : r.status.err = false → r.errInfo = 0 ∧ r.errBlock = 0)
    (hcs : ∀ w, (ws.get w).cs = (s.worker w).cs) (hstopped : ∀ w, (ws.get w).active = false) :
    Inv { s with regs := r, orch := o, workers := ws, earlier := ml } where
  memWf := hi.memWf
  earlierWf := fun m hm => hml.elim (fun h => hi.earlierWf m (h ▸ hm)) (fun h => absurd (h ▸ hm) List.not_mem_nil)
  doneSettled := hsettled
  dutiesOk := hi.dutiesOk
  paramsWf := hi.paramsWf
  csOk := fun w => Worker.csOk_of_cs_eq (hi.csOk w) (hcs w)
  busyIff := by simp [hphase, hbusy]
  drainIff := by simp [hphase, hdrain]
  latchedIff := by simp [hphase, hlatched]
  errDone := hdone
  runningNotDone := fun h => absurd hphase h
  noError := fun _ => hrecord
  accepted := fun h => absurd hphase h
  workersUsed := fun h => absurd hphase h
  trailIff := fun h => absurd hphase h
  fillOk := fun h => absurd (hphase.symm.trans h) (by decide)
  quiet := fun _ => hstopped
  activeOk := fun w h => absurd h (by simp [hstopped w])

/-- The registers replaced while idle. -/
theorem Inv.setIdleRegs (hidle : s.orch.phase = .idle) {r : Regs} (hbusy : r.status.busy = s.regs.status.busy)
    (hdrain : r.status.drain = s.regs.status.drain) (hsettled : r.status.done = true → s.earlier = [])
    (hdone : r.status.err = true → r.status.done = true)
    (hrecord : r.status.err = false → r.errInfo = 0 ∧ r.errBlock = 0) : Inv { s with regs := r } :=
  have hquiet : s.orch.phase ≠ .drain := by simp [hidle]
  hi.toIdle (.inl rfl) hidle (hi.not_latched hquiet) (hbusy.trans (hi.not_busy hidle))
    (hdrain.trans (hi.not_drain hquiet)) hsettled hdone hrecord (fun _ => rfl) (hi.quiet (.inl hidle))

/-! #### Errors, completions and resets -/

/-- An error latched and recorded, DRAIN started (R196 (b)). -/
theorem Inv.startDrain (e : ErrRec) (hrun : s.orch.phase ≠ .idle) :
    Inv { s with
      orch := { s.orch with latched := true, phase := .drain }
      regs := { s.regs.recordError e with status := { s.regs.status with drain := true } } } :=
  { hi with
    busyIff := by simp [hi.busyIff, hrun]
    drainIff := by simp
    latchedIff := by simp
    runningNotDone := fun _ => hi.runningNotDone hrun
    noError := fun h => absurd rfl h
    accepted := fun _ => hi.accepted hrun
    workersUsed := fun _ => hi.workersUsed hrun
    trailIff := fun _ => hi.trailIff hrun
    fillOk := fun h => absurd h (by simp)
    quiet := fun h => absurd h (by simp) }

/-- The first error of a running command starts DRAIN; a later one only halts its worker (R196). -/
theorem inv_raiseError (who : Option WorkerId) (e : ErrRec) (hrun : s.orch.phase ≠ .idle) : Inv (raiseError who e s) := by
  cases hl : s.orch.latched
  · rw [raiseError_first hl]
    cases who with
    | none => exact hi.startDrain e hrun
    | some w => exact (hi.haltWorker w).startDrain e hrun
  · rw [raiseError_latched hl]
    exact inv_haltRaiser hi who

theorem inv_resetBlock : Inv (resetBlock s) :=
  hi.toIdle (.inl rfl) rfl rfl rfl rfl (fun h => absurd h Bool.false_ne_true) (fun h => absurd h Bool.false_ne_true)
    (fun _ => ⟨rfl, rfl⟩) (fun w => by simp) (fun w => by simp)

theorem inv_startClear (hidle : s.orch.phase = .idle) : Inv (startClear s) :=
  hi.setIdleRegs hidle rfl rfl (fun h => absurd h Bool.false_ne_true) (fun h => absurd h Bool.false_ne_true)
    (fun _ => ⟨rfl, rfl⟩)

theorem inv_clearAll (hidle : s.orch.phase = .idle) : Inv { s with regs := s.regs.clearAll } :=
  hi.setIdleRegs hidle rfl rfl (fun h => absurd h Bool.false_ne_true) (fun h => absurd h Bool.false_ne_true)
    (fun _ => ⟨rfl, rfl⟩)

theorem inv_dropWord : Inv (dropWord s) := { hi with }

/-- A completion at acceptance makes every earlier write visible as it sets DONE (R83, R229; log 35). -/
theorem inv_completeErr (hidle : s.orch.phase = .idle) (e : ErrCause) : Inv (completeErr e s) :=
  have hquiet : s.orch.phase ≠ .drain := by simp [hidle]
  hi.toIdle (.inr rfl) hidle (hi.not_latched hquiet) (hi.not_busy hidle) (hi.not_drain hquiet) (fun _ => rfl)
    (fun _ => rfl) (fun h => absurd h.symm Bool.false_ne_true) (fun _ => rfl) (hi.quiet (.inl hidle))

theorem inv_completeFailed (hnone : s.noneActive = true) : Inv (completeFailed s) :=
  hi.toIdle (.inr rfl) rfl rfl rfl rfl (fun _ => rfl) (fun _ => rfl) (fun h => absurd h.symm Bool.false_ne_true)
    (fun _ => rfl) (noneActive_iff.mp hnone)

/-- At the join no error is reported, so none is recorded (R195). -/
theorem inv_completeOk (hphase : s.orch.phase = .run) (hnone : s.noneActive = true) : Inv (completeOk s) :=
  have hquiet : s.orch.phase ≠ .drain := by simp [hphase]
  hi.toIdle (.inr rfl) rfl (hi.not_latched hquiet) rfl (hi.not_drain hquiet) (fun _ => rfl) (fun _ => rfl)
    (hi.noError hquiet) (fun _ => rfl) (noneActive_iff.mp hnone)

/-! #### Acceptance -/

/-- An accepted DECODE starts to fill, with its configuration checked and its worker count in range (R222). -/
theorem inv_acceptDecode {w : Nat} (hidle : s.orch.phase = .idle) (hdone : s.regs.status.done = false)
    (htrail : s.regs.status.trail = false) (hcheck : checkConfig s.params s.regs .stream = none)
    (hw : 1 ≤ (BitVec.ofNat 3 w).toNat ∧ (BitVec.ofNat 3 w).toNat ≤ Config.wMax) : Inv (acceptDecode w s) :=
  have hquiet : s.orch.phase ≠ .drain := by simp [hidle]
  { hi with
    earlierWf := List.forall_mem_cons.mpr ⟨hi.memWf, hi.earlierWf⟩
    doneSettled := fun h => absurd (hdone.symm.trans h) (by decide)
    dutiesOk := List.forall_mem_cons.mpr ⟨hcheck, hi.dutiesOk⟩
    busyIff := by simp [acceptDecode]
    drainIff := by simp [acceptDecode, hi.not_drain hquiet]
    latchedIff := by simp [acceptDecode]
    runningNotDone := fun _ => hdone
    noError := fun _ => hi.noError hquiet
    accepted := fun _ => hcheck
    workersUsed := fun _ => ⟨hw.1, hw.2, rfl⟩
    trailIff := fun _ => by
      change (s.regs.status.trail || s.regs.hasTrail) = true ↔ Kind.stream = .stream ∧ s.regs.hasTrail = true
      simp [htrail]
    fillOk := fun _ => ⟨rfl, le_rfl, lt_or_ge _ _⟩
    quiet := fun _ => hi.quiet (.inl hidle)
    activeOk := fun v h => absurd h (by simp [acceptDecode, hi.quiet (.inl hidle) v]) }

/-- An accepted DECODE_BLOCK has started worker 0 on the one block at OUT_OFFSET (R201, R223). -/
theorem inv_acceptDecodeBlock (hidle : s.orch.phase = .idle) (hdone : s.regs.status.done = false)
    (htrail : s.regs.status.trail = false) (hcheck : checkConfig s.params s.regs .single = none) :
    Inv (acceptDecodeBlock s) := by
  have hquiet : s.orch.phase ≠ .drain := by simp [hidle]
  have hstopped := hi.quiet (.inl hidle)
  have hw0 : (acceptDecodeBlock s).worker .w0 =
      { s.worker .w0 with
        active := true, kind := .single, stop := BitVec.ofNat 33 (s.regs.blkIndex.toNat + 1)
        blk := s.regs.blkIndex, obase := s.regs.outOffset, phase := .hchk 0 } := by
    simp [acceptDecodeBlock, Worker.startBlock]
  have hother (v : WorkerId) (hv : v ≠ .w0) : (acceptDecodeBlock s).worker v = s.worker v := by
    simp [acceptDecodeBlock, hv]
  exact { hi with
    earlierWf := List.forall_mem_cons.mpr ⟨hi.memWf, hi.earlierWf⟩
    doneSettled := fun h => absurd (hdone.symm.trans h) (by decide)
    dutiesOk := List.forall_mem_cons.mpr ⟨hcheck, hi.dutiesOk⟩
    csOk := fun v => by
      by_cases hv : v = .w0
      · rw [hv, hw0]
        exact hi.csOk .w0
      · rw [hother v hv]
        exact hi.csOk v
    busyIff := by simp [acceptDecodeBlock]
    drainIff := by simp [acceptDecodeBlock, hi.not_drain hquiet]
    latchedIff := by simp [acceptDecodeBlock]
    runningNotDone := fun _ => hdone
    noError := fun _ => hi.noError hquiet
    accepted := fun _ => hcheck
    workersUsed := fun _ => ⟨le_rfl, (by decide : 1 ≤ Config.wMax), rfl⟩
    trailIff := fun _ => by simp [acceptDecodeBlock, htrail]
    fillOk := fun h => absurd h (by simp [acceptDecodeBlock])
    quiet := fun h => absurd h (by simp [acceptDecodeBlock])
    activeOk := fun v => by
      by_cases hv : v = .w0
      · rw [hv, hw0]
        obtain ⟨⟨hc, -⟩, -⟩ := checkConfig_none.mp hcheck
        have hstop : (BitVec.ofNat 33 (s.regs.blkIndex.toNat + 1)).toNat = s.regs.blkIndex.toNat + 1 :=
          Nat.mod_eq_of_lt (by have := s.regs.blkIndex.isLt; omega)
        exact fun _ => ⟨rfl, hc, rfl, rfl, hstop, rfl⟩
      · rw [hother v hv]
        exact fun h => absurd h (by simp [hstopped v]) }

/-! #### Fill and dispatch -/

/-- A fill write moves the cursor to the next slot of the tail (R191). -/
theorem inv_advanceFill : Inv { s with orch := advanceFill s.regs s.orch } := by
  unfold advanceFill
  split
  · rename_i hlt
    exact { hi with
      fillOk := fun h => by
        obtain ⟨hkind, hlo, -⟩ := hi.fillOk h
        exact ⟨hkind, Nat.le_succ_of_le hlo, .inl hlt⟩ }
  · exact { hi with
      fillOk := fun h => ⟨(hi.fillOk h).1, le_rfl, lt_or_ge _ _⟩ }

theorem inv_fillWrite {t : State} (hphase : s.orch.phase = .fill) (h : fillWrite s = .next t) : Inv t := by
  obtain ⟨ha, rfl⟩ | rfl := fillWrite_next h
  · exact inv_advanceFill (hi.setMem (Memory.wf_write32 0 ha hi.memWf))
  · exact inv_raiseError hi none _ (by simp [hphase])

/-- DISPATCH starts each worker of a nonempty range on its first block (R175, R192). -/
theorem inv_dispatch (hphase : s.orch.phase = .fill) : Inv (dispatch s) := by
  have hrun : s.orch.phase ≠ .idle := by simp [hphase]
  have hquiet : s.orch.phase ≠ .drain := by simp [hphase]
  have hkind := (hi.fillOk hphase).1
  have hworker (v : WorkerId) : (dispatch s).worker v = dispatchWorker s.regs s.orch.w.toNat v.num (s.worker v) := by
    simp [dispatch]
  exact { hi with
    csOk := fun v => Worker.csOk_of_cs_eq (hi.csOk v) (hworker v ▸ dispatchWorker_cs _ _ _ _)
    busyIff := by simp [dispatch, hi.busyIff, hphase]
    drainIff := by simp [dispatch, hi.not_drain hquiet]
    latchedIff := by simp [dispatch, hi.not_latched hquiet]
    runningNotDone := fun _ => hi.runningNotDone hrun
    noError := fun _ => hi.noError hquiet
    accepted := fun _ => hi.accepted hrun
    workersUsed := fun _ => hi.workersUsed hrun
    trailIff := fun _ => hi.trailIff hrun
    fillOk := fun h => absurd h (by simp [dispatch])
    quiet := fun h => absurd h (by simp [dispatch])
    activeOk := fun v => by
      rw [hworker v]
      exact dispatchWorker_activeOk hkind (hkind ▸ hi.accepted hrun) (hi.quiet (.inr hphase) v) }

/-! #### The host -/

/-- A register write keeps the invariant: while BUSY it changes only IRQ_EN, which no clause reads (R51). -/
theorem inv_writeReg (r : Reg) (v : Word) : Inv (writeReg s r v) := by
  unfold writeReg
  split
  · exact hi
  · rename_i hlock
    by_cases hb : s.regs.status.busy = true
    · have hr : regIsConfig r = false := by simpa [hb] using hlock
      cases r <;> cases hr <;> exact { hi with }
    · have hidle := hi.idle_of_not_busy hb
      have hquiet : s.orch.phase ≠ .drain := by simp [hidle]
      exact hi.setIdleRegs hidle (by simp) (by simp) (by simpa using hi.doneSettled) (by simpa using hi.errDone)
        (by simpa using hi.noError hquiet)

/-- A host store keeps the invariant: a duty's output words lie in memory, and a recorded error becomes a free value only
with ERR set (R82; log 37). -/
theorem inv_hostStore {a : BitVec 32} {b : Byte} {t : State} (h : hostStore a b s = .next t) : Inv t := by
  have hstored : Inv (s.storeByte a.toNat b) := hi.mapMems fun _ hm => Memory.wf_write b a.isLt hm
  obtain ⟨-, rfl⟩ | ⟨hidle, -, as, r, has, hr, rfl⟩ := hostStore_next h
  · exact hstored
  · have hinside : ∀ x ∈ as, x + 4 ≤ Memory.size := fun x hx => by
      obtain ⟨d, hd, -, hx⟩ := (has x).mp hx
      exact Duty.outputs_inside (hi.dutiesOk d hd) x hx
    have hfreed := hstored.mapMems fun m hm => Memory.wf_freeWords (k := s.tick) hinside hm
    have hnext := hfreed.sameBlock (.ofFields _ s.moves (s.tick + 1) s.rdata)
    obtain rfl | ⟨herr, rfl⟩ := hr
    · exact hnext
    · simp only [Regs.hasRunError, Bool.and_eq_true] at herr
      obtain ⟨⟨-, herr⟩, -⟩ := herr
      exact hnext.setIdleRegs hidle rfl rfl hnext.doneSettled hnext.errDone
        fun h => absurd (herr.symm.trans h) (by decide)

/-- Every word the host writes to CMD keeps the invariant. -/
theorem inv_command {cw : Word} {t : State} (h : CommandCase cw s t) : Inv t := by
  cases h with
  | nothing => exact hi
  | dropped _ => exact inv_dropWord hi
  | rejected hidle e => exact inv_completeErr (inv_startClear hi hidle) hidle e
  | acceptedDecode hidle workers _ hw hcheck =>
    exact inv_acceptDecode (inv_startClear hi hidle) hidle rfl rfl hcheck (workerCount_range hw)
  | acceptedDecodeBlock hidle _ hcheck => exact inv_acceptDecodeBlock (inv_startClear hi hidle) hidle rfl rfl hcheck
  | aborted hrun => exact inv_raiseError hi none _ hrun
  | cleared hidle => exact inv_clearAll hi hidle
  | softReset _ => exact inv_resetBlock hi

/-! #### The agents of the block -/

theorem inv_chanUpdate {w : WorkerId} {u : State} (h : ChanUpdate w s u) : Inv u := by
  cases h with
  | none => exact hi.setTurn w
  | chan ch x hx => exact (hi.setTurn w).setChan w ch hx

theorem inv_micro {w : WorkerId} {t : State} (h : MicroCase w s t) : Inv t := by
  cases h with
  | disabled => exact hi
  | failed u e hon hu =>
    have hrun : u.orch.phase ≠ .idle := hu.orch ▸ hi.running_of_active (active_of_microEnabled hon)
    exact inv_raiseError (inv_chanUpdate hi hu) (some w) e hrun
  | loaded u _ hu => exact inv_advance (inv_chanUpdate hi hu) w
  | wrote u a word _ hu ha =>
    have hu := inv_chanUpdate hi hu
    exact inv_advance (hu.setMem (Memory.wf_write32 word ha hu.memWf)) w

theorem inv_orchStep {t : State} (h : orchStep s = .next t) : Inv t := by
  obtain rfl | ⟨hphase, -, hf⟩ | ⟨hphase, -, rfl⟩ | ⟨hphase, hnone, -, rfl⟩ | ⟨-, hnone, rfl⟩ := orchStep_next h
  · exact hi
  · exact inv_fillWrite hi hphase hf
  · exact inv_dispatch hi hphase
  · exact inv_completeOk hi hphase hnone
  · exact inv_completeFailed hi hnone

theorem inv_haltStep (w : WorkerId) : Inv (haltStep w s) := by
  unfold haltStep
  split
  · exact hi.haltWorker w
  · exact hi

theorem inv_agentStep {a : AgentMove} {t : State} (h : agentStep a s = .next t) : Inv t := by
  cases a with
  | orch => exact inv_orchStep hi h
  | micro w => exact inv_micro hi (microStep_case h)
  | halt w => cases h; exact inv_haltStep hi w

end parts

/-- Settles O48, by cases on what the step does: each operation keeps the invariant. -/
theorem everyStepKeepsTheInvariant : Obligations.EveryStepKeepsTheInvariant := by
  unfold Obligations.EveryStepKeepsTheInvariant
  intro s t hi h
  have hrest (rest : List Move) : Inv { s with moves := rest } := hi.sameBlock (.ofFields s rest _ _)
  cases step_case h with
  | powerOn rest _ ht => exact ht ▸ inv_resetBlock (hrest rest)
  | store rest a b _ ht => exact inv_hostStore (hrest rest) ht
  | command rest cw _ ht => exact inv_command (hrest rest) ht
  | register rest r v _ _ ht => exact ht ▸ inv_writeReg (hrest rest) r v
  | quiet ht => exact hi.sameBlock ht
  | agent u a hu ht => exact inv_agentStep (hi.sameBlock hu) ht

end Sys2Proof.Machine

/-! ### PROOFS. Host accesses to the register window (20_memory.md R77; 10_state.md R28 to R50) -/

namespace Sys2Proof.Machine

/-! #### The register at an offset -/

theorem windowOffset_window (p : Params) {off : Nat} (h : off < 0x80) : windowOffset p (p.regBase + off) = some off := by
  unfold windowOffset
  rw [if_pos (by omega), Nat.add_sub_cancel_left]

theorem regOffset_lt (r : Reg) : regOffset r < 0x54 := by cases r <;> decide

theorem regOffset_aligned (r : Reg) : regOffset r % 4 = 0 := by cases r <;> rfl

/-- The offsets of the registers differ, so each finds its own register (R28). -/
@[simp] theorem regAtOffset_regOffset (r : Reg) : regAtOffset (regOffset r) = some r := by cases r <;> rfl

/-- Misaligned and reserved offsets name no register (R77 (c)). -/
theorem regAtOffset_none {off : Nat} (h : off % 4 ≠ 0 ∨ 0x54 ≤ off) : regAtOffset off = none := by
  refine Option.eq_none_iff_forall_ne_some.mpr fun r hr => ?_
  have hoff := regAtOffset_some hr
  have := regOffset_lt r
  have := regOffset_aligned r
  omega

/-! #### Writes -/

/-- A write that is narrow, misaligned or to a reserved offset is ignored (R77). -/
theorem busWrite_ignored {s : State} {off : Nat} {size : AccSize} (v : Word) (hoff : off < 0x80)
    (h : size ≠ .word ∨ off % 4 ≠ 0 ∨ 0x54 ≤ off) : busWrite (s.params.regBase + off) size v s = .next s := by
  unfold busWrite
  rw [windowOffset_window _ hoff]
  cases size with
  | byte => rfl
  | half => rfl
  | word => simp [regAtOffset_none (h.resolve_left (not_not.mpr rfl))]

/-- An aligned 32-bit write of a register other than CMD updates it (R77). -/
theorem busWrite_register {s : State} {r : Reg} (v : Word) (hr : r ≠ .cmd) :
    busWrite (s.params.regBase + regOffset r) .word v s = .next (writeReg s r v) := by
  have hoff : regOffset r < 0x80 := (regOffset_lt r).trans (by decide)
  unfold busWrite
  rw [windowOffset_window _ hoff]
  -- `hr` selects the arm of the registers other than CMD
  simp only [regAtOffset_regOffset]

/-- Settles O9: such a write is ignored by the window. -/
theorem narrowAndReservedWritesDoNothing : Obligations.NarrowAndReservedWritesDoNothing := by
  unfold Obligations.NarrowAndReservedWritesDoNothing
  intro s off size v rest hm hoff h
  simp only [step, hm, runMove]
  exact busWrite_ignored (s := { s with moves := rest }) v hoff h

/-- The registers after a write with the configuration lock (R51). -/
def Regs.lockedWrite (regs : Regs) (v : Word) (r : Reg) : Regs :=
  if regs.status.busy ∧ regIsConfig r = true then regs else regs.write v r

theorem writeReg_eq (s : State) (r : Reg) (v : Word) : writeReg s r v = { s with regs := s.regs.lockedWrite v r } := by
  unfold writeReg Regs.lockedWrite
  split <;> rfl

/-- A register that is neither IRQ_EN nor one of the configuration has no field the host can write (R29). -/
theorem Regs.write_readOnly {r : Reg} (hc : regIsConfig r = false) (hi : r ≠ .irqEn) (regs : Regs) (v : Word) :
    regs.write v r = regs := by
  cases r <;> cases hc
  case irqEn => exact absurd rfl hi
  all_goals rfl

theorem Regs.lockedWrite_locked {regs : Regs} {r : Reg} (hc : regIsConfig r = true) (hb : regs.status.busy = true)
    (v : Word) : regs.lockedWrite v r = regs := if_pos ⟨hb, hc⟩

theorem Regs.lockedWrite_readOnly {r : Reg} (hc : regIsConfig r = false) (hi : r ≠ .irqEn) (regs : Regs) (v : Word) :
    regs.lockedWrite v r = regs := by
  rw [Regs.lockedWrite, if_neg (by simp [hc]), Regs.write_readOnly hc hi]

theorem Regs.lockedWrite_writable {regs : Regs} {r : Reg}
    (h : r = .irqEn ∨ (regIsConfig r = true ∧ regs.status.busy = false)) (v : Word) :
    regs.lockedWrite v r = regs.write v r := by
  refine if_neg ?_
  rintro ⟨hb, hc⟩
  rcases h with rfl | ⟨-, hidle⟩
  · cases hc
  · cases hidle.symm.trans hb

/-- A value cut to its low `k` bits and read back as a word is the value masked. -/
theorem setWidth_setWidth_eq_and (v : Word) {k : Nat} (h : k ≤ 32) :
    (v.setWidth k).setWidth 32 = v &&& BitVec.ofNat 32 (2 ^ k - 1) := by
  have hmask : 2 ^ k - 1 < 2 ^ 32 := Nat.sub_one_lt_of_le (by positivity) (Nat.pow_le_pow_right (by decide) h)
  refine BitVec.eq_of_toNat_eq ?_
  rw [BitVec.toNat_setWidth_of_le h, BitVec.toNat_setWidth, BitVec.toNat_and, BitVec.toNat_ofNat,
    Nat.mod_eq_of_lt hmask, Nat.and_two_pow_sub_one_eq_mod]

/-- A writable register reads back the bits that its fields have (R34 to R43). -/
theorem readReg_write_same (s : State) {r : Reg} (h : r = .irqEn ∨ regIsConfig r = true) (v : Word) :
    readReg { s with regs := s.regs.write v r } r =
      if r = .irqEn then v &&& 0x3 else if r = .chCount then v &&& 0xFFFF else v := by
  rcases h with rfl | hc
  · exact setWidth_setWidth_eq_and v (k := 2) (by decide)
  · cases r <;> cases hc
    case inr.chCount.refl => exact setWidth_setWidth_eq_and v (k := 16) (by decide)
    all_goals rfl

/-- A register write leaves what every other register reads as, but for those computed from the configuration. -/
theorem readReg_write_ne (s : State) {r r' : Reg} (hne : r' ≠ r) (hbc : r' ≠ .blockCount) (hspb : r' ≠ .spb)
    (hts : r' ≠ .totalSamples) (v : Word) :
    readReg { s with regs := s.regs.write v r } r' = readReg s r' := by
  cases r' <;> cases r <;> first | rfl | contradiction

/-- Settles O8: the register after the write is the locked one, the read-only one, or the one written. -/
theorem hostWritesUpdateRegisters : Obligations.HostWritesUpdateRegisters := by
  unfold Obligations.HostWritesUpdateRegisters
  intro s r v rest hm hr
  refine ⟨s.regs.lockedWrite v r, ?_, fun hc hb => Regs.lockedWrite_locked hc hb v,
    fun hc hi => Regs.lockedWrite_readOnly hc hi s.regs v, fun hw => ?_⟩
  · simp only [step, hm, runMove]
    exact (busWrite_register (s := { s with moves := rest }) v hr).trans (congrArg _ (writeReg_eq _ r v))
  · rw [Regs.lockedWrite_writable hw]
    exact ⟨readReg_write_same s (hw.imp_right And.left) v,
      fun r' hne hbc hspb hts => readReg_write_ne s hne hbc hspb hts v⟩

/-! #### Reads -/

theorem windowRead_register (s : State) (r : Reg) : windowRead s (regOffset r) .word = readReg s r := by
  simp [windowRead]

/-- A narrow, misaligned or reserved-offset read returns 0 (R77 (c)). -/
theorem windowRead_zero (s : State) {off : Nat} {size : AccSize} (h : size ≠ .word ∨ off % 4 ≠ 0 ∨ 0x54 ≤ off) :
    windowRead s off size = 0 := by
  cases size with
  | byte => rfl
  | half => rfl
  | word => simp [windowRead, regAtOffset_none (h.resolve_left (not_not.mpr rfl))]

/-- Of all reads of the window, only one of STATUS can end the host's duties (R82). -/
theorem readsDone_window (s : State) {off : Nat} (size : AccSize) (hoff : off < 0x80) :
    readsDone (s.params.regBase + off) size s = true ↔
      size = .word ∧ off = 0x0C ∧ s.regs.status.done = true ∧ s.regs.status.busy = false := by
  simp [readsDone, windowOffset_window _ hoff, regOffset, and_assoc]

/-- A read of the window gives its word to the host and ends its duties, where it does: nothing else changes (R77 (d)). -/
theorem busRead_window (s : State) {off : Nat} (size : AccSize) (hoff : off < 0x80) :
    busRead (s.params.regBase + off) size s = { s with
      rdata := windowRead s off size
      duties := if size = .word ∧ off = 0x0C ∧ s.regs.status.done = true ∧ s.regs.status.busy = false then []
        else s.duties } := by
  unfold busRead acknowledge
  simp only [windowOffset_window _ hoff, readsDone_window s size hoff]
  split <;> rfl

theorem Status.toWord_getLsbD (st : Status) :
    st.toWord.getLsbD 0 = st.busy ∧ st.toWord.getLsbD 1 = st.done ∧ st.toWord.getLsbD 2 = st.err ∧
    st.toWord.getLsbD 3 = st.ovr ∧ st.toWord.getLsbD 4 = st.trail ∧ st.toWord.getLsbD 5 = st.drain := by
  simp only [Status.toWord, BitVec.append_ofBool, BitVec.getLsbD_concat_succ, BitVec.getLsbD_concat_zero, and_self]

theorem Status.toWord_reserved (st : Status) {i : Nat} (h : 6 ≤ i) : st.toWord.getLsbD i = false := by
  obtain ⟨j, rfl⟩ := Nat.exists_eq_add_of_le' h
  simp only [Status.toWord, BitVec.append_ofBool, BitVec.getLsbD_concat_succ, BitVec.getLsbD_zero]

/-- Settles O7: the read by what the window returns, the registers by their fields. -/
theorem hostReadsReturnRegisters : Obligations.HostReadsReturnRegisters := by
  unfold Obligations.HostReadsReturnRegisters
  refine ⟨fun s off size rest hm hoff => ⟨windowRead s off size, ?_, ?_, windowRead_zero s⟩, fun s => ?_⟩
  · simp only [step, hm, runMove]
    exact congrArg _ (busRead_window { s with moves := rest } size hoff)
  · rintro rfl r rfl
    exact windowRead_register s r
  · obtain ⟨h0, h1, h2, h3, h4, h5⟩ := s.regs.status.toWord_getLsbD
    exact ⟨⟨h0, h1, h2, h3, h4, h5, fun _ => s.regs.status.toWord_reserved⟩, rfl,
      BitVec.toNat_setWidth_of_le (by decide), BitVec.toNat_setWidth_of_le (by decide), rfl, rfl, rfl, rfl, rfl, rfl,
      rfl, rfl, rfl, rfl, rfl, BitVec.toNat_setWidth_of_le (by decide)⟩

end Sys2Proof.Machine

/-! ### PROOFS. Words of memory and what the host loads (20_memory.md R72, R74, R83) -/

namespace Sys2Proof.Machine

theorem word_of_bytes (w : Word) :
    w.extractLsb' 24 8 ++ w.extractLsb' 16 8 ++ w.extractLsb' 8 8 ++ w.extractLsb' 0 8 = w := by
  rw [BitVec.extractLsb'_append_extractLsb'_eq_extractLsb' (by rfl),
    BitVec.extractLsb'_append_extractLsb'_eq_extractLsb' (by rfl),
    BitVec.extractLsb'_append_extractLsb'_eq_extractLsb' (by rfl), BitVec.extractLsb'_eq_self]

/-- Reading back a word just written. -/
theorem Memory.read32_write32 {m : Memory} {a : Nat} (w : Word) (hs : a + 4 ≤ Memory.size) (hw : m.wf = true) :
    (m.write32 a w).read32 a = w := by
  simp [Memory.read32, Memory.read_write32 _ w hs hw, word_of_bytes]

/-- What a host access sees of memory, be it a byte or a word: its present value, or that of an acceptance since the last
DONE; the present one where all agree, and once DONE is set (R83). -/
theorem hostView_value {α : Type} (f : Memory → α) (s : State) (n : Nat) :
    (f (hostView s n) = f s.mem ∨ ∃ m ∈ s.earlier, f (hostView s n) = f m) ∧
    ((∀ m ∈ s.earlier, f m = f s.mem) ∨ (Inv s ∧ s.regs.status.done = true) → f (hostView s n) = f s.mem) := by
  have hcases := hostView_cases s n
  constructor
  · exact hcases.imp (congrArg f) fun h => ⟨_, h, rfl⟩
  · rintro (hagree | ⟨hi, hdone⟩)
    · exact hcases.elim (congrArg f) (hagree _)
    · rw [hostView_settled (hi.doneSettled hdone)]

/-- Settles O47: a load is a value of the memory the host sees. -/
theorem wordsAreLittleEndian : Obligations.WordsAreLittleEndian := by
  unfold Obligations.WordsAreLittleEndian
  refine ⟨fun m a w hw hs => ?_, fun s n rest hm => ?_, fun s a rest hm => ?_⟩
  · have hread (c : Nat) := Memory.read_write32 c w (a := a) hs hw
    exact ⟨by simp [hread], by simp [hread], by simp [hread], by simp [hread], Memory.read32_write32 w hs hw⟩
  · exact ⟨hostWord s n.toNat, by simp only [step, hm, runMove]; rfl,
      hostView_value (Memory.read32 · (4 * n.toNat)) s n.toNat⟩
  · exact ⟨hostByte s a.toNat, by simp only [step, hm, runMove]; rfl,
      hostView_value (Memory.read · a.toNat) s (a.toNat / 4)⟩

/-! ### PROOFS. Where the output slots lie (20_memory.md R75, R80, R81; 43_orchestrator.md R200) -/

/-- A slot of one channel buffer ends before every slot of a later one: the stride is no smaller than the length (R81). -/
theorem outAddr_channel_lt {r : Regs} (hstride : r.c = 1 ∨ r.outLen.toNat ≤ r.outStride.toNat) {c c' i : Nat} (i' : Nat)
    (hc : c < c') (hc' : c' < r.c) (hi : i < r.outLen.toNat) : outAddr r c i + 4 ≤ outAddr r c' i' := by
  have hlen : r.outLen.toNat ≤ r.outStride.toNat := by omega
  have hrow : (c + 1) * r.outStride.toNat ≤ c' * r.outStride.toNat := Nat.mul_le_mul_right _ hc
  rw [Nat.add_one_mul] at hrow
  unfold outAddr
  omega

theorem outAddr_slot_lt (r : Regs) (c : Nat) {i i' : Nat} (h : i < i') : outAddr r c i + 4 ≤ outAddr r c i' := by
  unfold outAddr
  omega

/-- Different slots share no byte. -/
theorem outAddr_disjoint {r : Regs} (hstride : r.c = 1 ∨ r.outLen.toNat ≤ r.outStride.toNat) {c c' i i' : Nat}
    (hc : c < r.c) (hc' : c' < r.c) (hi : i < r.outLen.toNat) (hi' : i' < r.outLen.toNat) (hne : (c, i) ≠ (c', i')) :
    outAddr r c i + 4 ≤ outAddr r c' i' ∨ outAddr r c' i' + 4 ≤ outAddr r c i := by
  rcases lt_trichotomy c c' with hlt | rfl | hgt
  · exact .inl (outAddr_channel_lt hstride i' hlt hc' hi)
  · rcases lt_trichotomy i i' with hlt | rfl | hgt
    · exact .inl (outAddr_slot_lt r c hlt)
    · exact absurd rfl hne
    · exact .inr (outAddr_slot_lt r c hgt)
  · exact .inr (outAddr_channel_lt hstride i hgt hc hi')

theorem outAddr_aligned {r : Regs} (h : r.outBase.toNat % 4 = 0) (c i : Nat) : outAddr r c i % 4 = 0 := by
  unfold outAddr
  omega

theorem outBase_le_outAddr (r : Regs) (c i : Nat) : r.outBase.toNat ≤ outAddr r c i := Nat.le_add_right _ _

/-- A slot of an accepted command lies in memory (R80, R256). -/
theorem outAddr_inside {p : Params} {r : Regs} {k : Kind} (h : checkConfig p r k = none) {c i : Nat} (hc : c < r.c)
    (hi : i < r.outLen.toNat) : outAddr r c i + 4 ≤ Memory.size := by
  obtain ⟨-, -, -, -, -, -, -, ⟨-, hfit⟩, -⟩ := checkConfig_none.mp h
  exact (outAddr_le hc hi).trans hfit

/-- A slot of an accepted command shares no byte with the input region (R81). -/
theorem outAddr_outside_input {p : Params} {r : Regs} {k : Kind} (h : checkConfig p r k = none) {c i a : Nat}
    (hc : c < r.c) (hi : i < r.outLen.toNat) (ha : inInRgn r a = true) : a < outAddr r c i ∨ outAddr r c i + 4 ≤ a := by
  obtain ⟨-, -, -, -, -, -, -, -, hapart⟩ := checkConfig_none.mp h
  have hlo := outBase_le_outAddr r c i
  have hhi := outAddr_le hc hi
  have ha := of_decide_eq_true ha
  omega

/-- Settles O46, from the tests of the acceptance check. -/
theorem outputSlotsAreDisjoint : Obligations.OutputSlotsAreDisjoint := by
  unfold Obligations.OutputSlotsAreDisjoint
  intro p r kind h c i hc hi
  obtain ⟨-, -, halign, hstride, -⟩ := checkConfig_none.mp h
  exact ⟨outAddr_aligned halign c i, outAddr_inside h hc hi, fun a => outAddr_outside_input h hc hi,
    fun c' i' hc' hi' => outAddr_disjoint hstride hc hc' hi hi'⟩

/-! ### PROOFS. What an agent's step writes (20_memory.md R71; 43_orchestrator.md R200) -/

/-- The slots of an active worker's block are output slots of the configuration (R174, R201, R256). -/
theorem Worker.block_fits {p : Params} {r : Regs} {o : Orch} {w : WorkerId} {wk : Worker}
    (hcheck : checkConfig p r o.kind = none) (hok : wk.rangeOk r o w) : wk.obase.toNat + spb r ≤ r.outLen.toNat := by
  obtain ⟨⟨hc, -⟩, ⟨hb, hm⟩, -, -, -, hstream, hsingle, -⟩ := checkConfig_none.mp hcheck
  unfold Worker.rangeOk at hok
  cases hkind : o.kind <;> simp only [hkind] at hok
  case single =>
    obtain ⟨-, -, -, hobase⟩ := hok
    exact hobase ▸ hsingle hkind
  case stream =>
    obtain ⟨-, -, hlt, -, hobase⟩ := hok
    have hblk : wk.blk.toNat + 1 ≤ blockCount r := lt_of_lt_of_le hlt (rangeEnd_le _ _ _)
    calc wk.obase.toNat + spb r = (wk.blk.toNat + 1) * spb r := by rw [hobase, Nat.add_one_mul]
      _ ≤ blockCount r * spb r := Nat.mul_le_mul_right _ hblk
      _ ≤ totalSamples r := blocks_mul_spb_le_totalSamples hc hb hm
      _ = r.outLen.toNat := (hstream hkind).symm

/-- A nibble's slot is one of its block (R139, R173). -/
theorem bodySlot_lt {r : Regs} {g b h : Nat} (obase : Nat) (hg : g < chunkCount r) (hb : b < 4) (hh : h < 2) :
    bodySlot obase g b h < obase + spb r := by
  unfold bodySlot spb
  omega

/-- Memory `m` is that of `s` with one word written in an output slot, while a command runs. -/
def State.WritesSlot (s : State) (m : Memory) : Prop :=
  s.orch.phase ≠ .idle ∧ ∃ c i word, c < s.regs.c ∧ i < s.regs.outLen.toNat ∧ m = s.mem.write32 (outAddr s.regs c i) word

theorem writeSample_mem {w : WorkerId} {ch i : Nat} {word : Word} {s t : State} (h : writeSample w ch i word s = .next t) :
    t.mem = s.mem ∨ t.mem = s.mem.write32 (outAddr s.regs ch i) word := by
  obtain ⟨-, -, rfl⟩ | ⟨-, rfl⟩ := writeSample_next h
  · exact .inr rfl
  · exact .inl (raiseError_mem _ _ s)

theorem checkHeader_mem (w : WorkerId) (ch : Nat) (h0 h1 h2 h3 : Byte) (s : State) :
    (checkHeader w ch h0 h1 h2 h3 s).mem = s.mem := by
  obtain ⟨-, heq⟩ | ⟨-, -, heq⟩ | ⟨-, -, heq⟩ := checkHeader_cases w ch h0 h1 h2 h3 s
  · rw [heq, raiseError_mem]
  · rw [heq, raiseError_mem]
  · rw [heq, advance_mem, State.setWorker_mem]

theorem hdrCheck_mem {w : WorkerId} {ch : Nat} {s t : State} (h : hdrCheck w ch s = .next t) : t.mem = s.mem := by
  obtain ⟨h0, h1, h2, h3, -, -, -, -, rfl⟩ | rfl := hdrCheck_next h
  · exact checkHeader_mem w ch h0 h1 h2 h3 s
  · exact raiseError_mem _ _ s

section agents
variable {s : State} (hi : Inv s)
include hi

/-- A micro-operation writes only in the slots of its worker's block (R132, R138). -/
theorem microStep_mem {w : WorkerId} {t : State} (h : microStep w s = .next t) : t.mem = s.mem ∨ s.WritesSlot t.mem := by
  unfold microStep at h
  split at h
  · rename_i hon
    have ha := active_of_microEnabled hon
    have hrun := hi.running_of_active ha
    obtain ⟨-, hphase, hrange⟩ := hi.activeOk w ha
    have hfits := Worker.block_fits (hi.accepted hrun) hrange
    split at h
    · exact .inl (hdrCheck_mem (s := { s with turn := w }) h)
    · rename_i ch hp
      rw [hp] at hphase
      have hslot : (s.worker w).obase.toNat < s.regs.outLen.toNat := by unfold spb at hfits; omega
      exact (writeSample_mem h).imp_right fun heq => ⟨hrun, _, _, _, hphase, hslot, heq⟩
    · rename_i g ch b half hp
      rw [hp] at hphase
      obtain ⟨hg, hch, hb, hh⟩ := hphase
      have hslot := (bodySlot_lt (s.worker w).obase.toNat hg hb hh).trans_le hfits
      split at h
      · rw [exec_decodeNibble, bodySample_at (s := { s with turn := w }) ha hp] at h
        exact (writeSample_mem h).imp_right fun heq => ⟨hrun, _, _, _, hch, hslot, heq⟩
      · cases h; exact .inl (raiseError_mem _ _ _)
      · cases h
  · cases h; exact .inl rfl

/-- A fill write is one in the tail of a channel buffer (R178, R191). -/
theorem fillWrite_mem {t : State} (hphase : s.orch.phase = .fill) (hpending : fillPending s = true)
    (h : fillWrite s = .next t) : t.mem = s.mem ∨ s.WritesSlot t.mem := by
  have hrun : s.orch.phase ≠ .idle := by simp [hphase]
  obtain ⟨hch, hslot⟩ := of_decide_eq_true hpending
  obtain ⟨-, -, -, -, -, hlen, -⟩ := checkConfig_none.mp (hi.accepted hrun)
  rw [← hlen (hi.fillOk hphase).1] at hslot
  obtain ⟨-, rfl⟩ | rfl := fillWrite_next h
  · exact .inr ⟨hrun, _, _, _, hch, hslot, rfl⟩
  · exact .inl (raiseError_mem _ _ s)

theorem orchStep_mem {t : State} (h : orchStep s = .next t) : t.mem = s.mem ∨ s.WritesSlot t.mem := by
  obtain rfl | ⟨hphase, hpending, hf⟩ | ⟨-, -, rfl⟩ | ⟨-, -, -, rfl⟩ | ⟨-, -, rfl⟩ := orchStep_next h
  case inr.inl => exact fillWrite_mem hi hphase hpending hf
  all_goals exact .inl rfl

/-- An agent's step leaves memory alone or writes one word, in an output slot (R71). -/
theorem agentStep_mem {a : AgentMove} {t : State} (h : agentStep a s = .next t) : t.mem = s.mem ∨ s.WritesSlot t.mem := by
  cases a with
  | orch => exact orchStep_mem hi h
  | micro w => exact microStep_mem hi h
  | halt w =>
    cases h
    unfold haltStep
    split <;> exact .inl rfl

end agents

/-- A word written in a slot leaves every byte that is in no slot. -/
theorem State.WritesSlot.read_outside {s : State} {m : Memory} {a : Nat} (hi : Inv s) (h : s.WritesSlot m)
    (ha : ¬isSlotByte s.regs a) : m.read a = s.mem.read a := by
  obtain ⟨hrun, c, i, word, hc, hs, rfl⟩ := h
  refine Memory.read_write32_outside word (outAddr_inside (hi.accepted hrun) hc hs) hi.memWf ?_
  by_contra hin
  exact ha ⟨c, i, hc, hs, by omega, by omega⟩

/-- Settles O54: an agent's step leaves memory alone or writes a slot. -/
theorem agentsWriteOnlyOutputSlots : Obligations.AgentsWriteOnlyOutputSlots := by
  unfold Obligations.AgentsWriteOnlyOutputSlots
  intro s t x a hi h ha
  obtain heq | hslot := agentStep_mem hi h
  · rw [heq]
  · exact hslot.read_outside hi ha

end Sys2Proof.Machine

/-! ### PROOFS. Command words and nibble codes (30_encoding.md R100 to R104, R109, R110) -/

namespace Sys2Proof

/-! #### The fields of a command word (R101) -/

theorem toNat_cmdOpcode (cw : Word) : (cmdOpcode cw).toNat = cw.toNat % 16 := by
  simp [cmdOpcode]

theorem toNat_cmdWorkers (cw : Word) : (cmdWorkers cw).toNat = cw.toNat / 16 % 8 := by
  simp [cmdWorkers, Nat.shiftRight_eq_div_pow]

theorem toNat_cmdReserved (cw : Word) : (cmdReserved cw).toNat = cw.toNat / 128 := by
  simp only [cmdReserved, BitVec.extractLsb'_toNat, Nat.shiftRight_eq_div_pow]
  omega

theorem cmdOpcode_eq_one_iff {cw : Word} : cmdOpcode cw = 1 ↔ cw.toNat % 16 = 1 := by
  rw [← BitVec.toNat_inj, toNat_cmdOpcode]
  rfl

theorem cmdWorkers_eq_zero_iff {cw : Word} : cmdWorkers cw = 0 ↔ cw.toNat / 16 % 8 = 0 := by
  rw [← BitVec.toNat_inj, toNat_cmdWorkers]
  rfl

theorem cmdReserved_eq_zero_iff {cw : Word} : cmdReserved cw = 0 ↔ cw.toNat / 128 = 0 := by
  rw [← BitVec.toNat_inj, toNat_cmdReserved]
  rfl

/-- A command word is its three fields. -/
theorem append_fields (cw : Word) : cmdReserved cw ++ cmdWorkers cw ++ cmdOpcode cw = cw := by
  unfold cmdReserved cmdWorkers cmdOpcode
  rw [BitVec.extractLsb'_append_extractLsb'_eq_extractLsb' (by rfl),
    BitVec.extractLsb'_append_extractLsb'_eq_extractLsb' (by rfl), BitVec.extractLsb'_eq_self]

section append
variable (reserved : BitVec 25) (workers : BitVec 3) (opcode : BitVec 4)

@[simp] theorem cmdOpcode_append : cmdOpcode (reserved ++ workers ++ opcode) = opcode :=
  BitVec.extractLsb'_append_eq_right

@[simp] theorem cmdWorkers_append : cmdWorkers (reserved ++ workers ++ opcode) = workers :=
  (BitVec.extractLsb'_append_eq_of_le (by decide)).trans BitVec.extractLsb'_append_eq_right

@[simp] theorem cmdReserved_append : cmdReserved (reserved ++ workers ++ opcode) = reserved :=
  (BitVec.extractLsb'_append_eq_of_le (by decide)).trans BitVec.extractLsb'_append_eq_left

end append

/-! #### The legality tests and the opcode map (R103, R104) -/

/-- What the test for reserved bits asks of a word. -/
theorem reservedBits_passes {cw : Word} (h : ¬(cmdReserved cw ≠ 0 ∨ (cmdOpcode cw ≠ 1 ∧ cmdWorkers cw ≠ 0))) :
    cmdReserved cw = 0 ∧ (cmdOpcode cw ≠ 1 → cmdWorkers cw = 0) := by
  simpa only [ne_eq, not_or, not_and, not_not] using h

/-- The one opcode above those of CLEAR and the reserved ones is that of SOFT_RESET. -/
theorem opcode_eq_softReset {op : BitVec 4} (hreserved : ¬(5 ≤ op.toNat ∧ op.toNat ≤ 14)) (h0 : op ≠ 0) (h1 : op ≠ 1)
    (h2 : op ≠ 2) (h3 : op ≠ 3) (h4 : op ≠ 4) : op = 0xF := by
  bv_omega

theorem decodeCmd_reservedOpcode {cw : Word} (h : 5 ≤ (cmdOpcode cw).toNat ∧ (cmdOpcode cw).toNat ≤ 14) :
    decodeCmd cw = .illegal .reservedOpcode := if_pos h

theorem decodeCmd_reservedBits {cw : Word} (hop : ¬(5 ≤ (cmdOpcode cw).toNat ∧ (cmdOpcode cw).toNat ≤ 14))
    (h : cmdReserved cw ≠ 0 ∨ (cmdOpcode cw ≠ 1 ∧ cmdWorkers cw ≠ 0)) : decodeCmd cw = .illegal .reservedBits := by
  rw [decodeCmd, if_neg hop, if_pos h]

theorem decodeCmd_tooManyWorkers {cw : Word} (hres : cmdReserved cw = 0) (hop : cmdOpcode cw = 1)
    (h : Config.wMax < (cmdWorkers cw).toNat) : decodeCmd cw = .illegal .tooManyWorkers := by
  simp [decodeCmd, hres, hop, h]

theorem decodeCmd_decode {cw : Word} (hres : cmdReserved cw = 0) (hop : cmdOpcode cw = 1)
    (h : (cmdWorkers cw).toNat ≤ Config.wMax) : decodeCmd cw = .instr (.decode (cmdWorkers cw)) := by
  simp [decodeCmd, hres, hop, Nat.not_lt.mpr h]

/-- Settles O2: the fields as numbers, then one equation of the decoder for each clause. -/
theorem commandWordsFollowTheOpcodeMap : Obligations.CommandWordsFollowTheOpcodeMap := by
  unfold Obligations.CommandWordsFollowTheOpcodeMap
  intro cw
  simp only [← cmdOpcode_eq_one_iff, ← cmdReserved_eq_zero_iff, ne_eq, ← cmdWorkers_eq_zero_iff]
  simp only [← toNat_cmdOpcode, ← toNat_cmdWorkers]
  refine ⟨decodeCmd_reservedOpcode, decodeCmd_reservedBits, decodeCmd_tooManyWorkers, fun hres hop hle => ?_,
    ?_, ?_, ?_, ?_, ?_⟩
  · rw [decodeCmd_decode hres hop hle, BitVec.ofNat_toNat, BitVec.setWidth_eq]
  all_goals rintro rfl; rfl

/-! #### Decoding and encoding -/

/-- A word that passes the test for reserved bits and is no DECODE is its opcode. -/
theorem eq_append_opcode {cw : Word} {op : BitVec 4}
    (hbits : ¬(cmdReserved cw ≠ 0 ∨ (cmdOpcode cw ≠ 1 ∧ cmdWorkers cw ≠ 0))) (hop : cmdOpcode cw = op) (h1 : op ≠ 1) :
    0#25 ++ 0#3 ++ op = cw := by
  obtain ⟨hres, hworkers⟩ := reservedBits_passes hbits
  have hcw := append_fields cw
  rwa [hres, hworkers (hop ▸ h1), hop] at hcw

/-- A command word that decodes to an instruction is its encoding: the tests and the opcode fix every bit but the WORKERS
of a DECODE. -/
theorem encode_of_decodeCmd {cw : Word} {i : Instr} (h : decodeCmd cw = .instr i) :
    i.wellFormed = true ∧ encode i = .cmd cw := by
  unfold decodeCmd at h
  split_ifs at h with hreserved hbits hmany h0 h1 h2 h3 h4 <;> cases h
  · exact ⟨rfl, congrArg Code.cmd (eq_append_opcode hbits h0 (by decide))⟩
  · have hle : (cmdWorkers cw).toNat ≤ Config.wMax := Nat.not_lt.mp fun hlt => hmany ⟨h1, hlt⟩
    have hcw := append_fields cw
    rw [(reservedBits_passes hbits).1, h1] at hcw
    exact ⟨decide_eq_true hle, congrArg Code.cmd hcw⟩
  · exact ⟨rfl, congrArg Code.cmd (eq_append_opcode hbits h2 (by decide))⟩
  · exact ⟨rfl, congrArg Code.cmd (eq_append_opcode hbits h3 (by decide))⟩
  · exact ⟨rfl, congrArg Code.cmd (eq_append_opcode hbits h4 (by decide))⟩
  · exact ⟨rfl, congrArg Code.cmd (eq_append_opcode hbits (opcode_eq_softReset hreserved h0 h1 h2 h3 h4) (by decide))⟩

/-- Each of the sixteen codes is the encoding of its instruction (R110). -/
theorem encode_decodeNibble : ∀ n : BitVec 4,
    (decodeNibble n).wellFormed = true ∧ encode (decodeNibble n) = .nibble n := by
  decide

theorem decode_encode {i : Instr} (h : i.wellFormed = true) : decode (encode i) = .instr i := by
  cases i
  case decode workers =>
    have hle : (cmdWorkers (0#25 ++ workers ++ 0x1#4)).toNat ≤ Config.wMax := by
      rw [cmdWorkers_append]
      exact of_decide_eq_true h
    have hdecode := decodeCmd_decode (cmdReserved_append _ _ _) (cmdOpcode_append _ _ _) hle
    rwa [cmdWorkers_append] at hdecode
  all_goals rfl

/-- Settles O1: the encodings decode to their instructions, and each kind of code is the encoding of what it decodes to. -/
theorem decodeAndEncodeAgree : Obligations.DecodeAndEncodeAgree := by
  unfold Obligations.DecodeAndEncodeAgree
  refine ⟨fun _ => decode_encode, fun c i h => ?_⟩
  cases c with
  | cmd cw => exact encode_of_decodeCmd h
  | nibble n =>
    cases h
    exact encode_decodeNibble n

/-- Settles O3, by evaluating the decoder. -/
theorem wordsOfTheSpecDecode : Obligations.WordsOfTheSpecDecode := by
  unfold Obligations.WordsOfTheSpecDecode
  decide

/-- A code of the table decodes to its instruction (R110). -/
theorem decodeNibble_of_mem {n : BitVec 4} {i : Instr} (h : (n, i) ∈ Machine.nibbleCodes) : decodeNibble n = i := by
  have hall : ∀ p ∈ Machine.nibbleCodes, decodeNibble p.1 = p.2 := by decide
  exact hall _ h

end Sys2Proof

/-! ### PROOFS. The deltas of the nibble codes, and the code a worker fetches (30_encoding.md R109, R110;
41_block_decoder.md R133, R138) -/

namespace Sys2Proof.Machine

/-- The magnitude of a delta rests on the low three bits of the code (R133). -/
theorem nibbleMag_congr {n m : BitVec 4} (h : ∀ i < 3, n.getLsbD i = m.getLsbD i) (step : Nat) :
    nibbleMag n step = nibbleMag m step := by
  simp only [nibbleMag, h 0 (by decide), h 1 (by decide), h 2 (by decide)]

theorem nibbleDelta_of_positive {n : BitVec 4} (h : n.getLsbD 3 = false) (step : Nat) :
    nibbleDelta n step = (nibbleMag n step : Int) := by
  rw [nibbleDelta, h, if_neg (by decide)]

theorem nibbleDelta_of_negative {n : BitVec 4} (h : n.getLsbD 3 = true) (step : Nat) :
    nibbleDelta n step = -(nibbleMag n step : Int) := by
  rw [nibbleDelta, h, if_pos rfl]

/-- Bit 3 of a code negates the delta of its low three bits (R110, R133). -/
theorem nibbleDelta_sign (n : BitVec 4) (step : Nat) : nibbleDelta (n ||| 0x8) step = -nibbleDelta (n &&& 0x7) step := by
  have hlow : ∀ i < 3, (n ||| 0x8).getLsbD i = (n &&& 0x7).getLsbD i := by
    intro i hi
    interval_cases i <;> simp
  rw [nibbleDelta_of_negative (by simp), nibbleDelta_of_positive (by simp), nibbleMag_congr hlow]

/-- Settles O24: a positive code's delta is its magnitude, and bit 3 negates. -/
theorem nibbleDeltasAreTheTable : Obligations.NibbleDeltasAreTheTable := by
  unfold Obligations.NibbleDeltasAreTheTable
  intro step
  refine ⟨?_, ?_, ?_, ?_, ?_, ?_, ?_, ?_, fun n => nibbleDelta_sign n step⟩
  all_goals
    rw [nibbleDelta_of_positive rfl]
    simp [nibbleMag]

/-- A micro-operation at a BODY cursor whose byte can be read executes the code in the cursor's half of it (R109, R138). -/
theorem microStep_body {s : State} {w : WorkerId} {g ch b h : Nat} {x : Byte} (hon : microEnabled s w = true)
    (hp : (s.worker w).phase = .body g ch b h) (hx : readBodyByte s w g ch b = .ok x) :
    microStep w s = exec (decodeNibble (nibbleOf x h)) { s with turn := w } := by
  simp only [microStep, if_pos hon, hp, hx]

/-- Settles O5: the byte at the cursor is read, and its nibble is the code that decodes to the instruction. -/
theorem stepRunsTheDecodedNibble : Obligations.StepRunsTheDecodedNibble := by
  unfold Obligations.StepRunsTheDecodedNibble
  intro s w g ch b h n i rest hm ha hrun hp hlt hok hn hmem
  have hon : microEnabled { s with moves := rest } w = true := by
    simp [microEnabled, ha, hrun]
  have hread : readBodyByte { s with moves := rest } w g ch b =
      .ok (s.mem.read (inAddr s.regs (s.worker w).blk.toNat (bodyByte s.regs g ch b))) :=
    memRead8_ok.mpr ⟨hlt, hok, rfl⟩
  have hcode : decodeNibble (nibbleOf (s.mem.read (inAddr s.regs (s.worker w).blk.toNat (bodyByte s.regs g ch b))) h) = i :=
    (congrArg decodeNibble hn).symm.trans (decodeNibble_of_mem hmem)
  simp only [step, hm, runMove, agentStep]
  rw [microStep_body hon hp hread, hcode]

end Sys2Proof.Machine

/-! ### PROOFS. What the block function reads, and the words a running command is to leave (41_block_decoder.md R139, R141;
43_orchestrator.md R202) -/

namespace Sys2Proof.Machine

/-! #### The block function reads only the input region -/

/-- Two memories have the same input stream. -/
def Regs.SameInput (r : Regs) (m m' : Memory) : Prop := ∀ a, inInRgn r a = true → m'.read a = m.read a

/-- Block `k` has the shape of R105 and lies in the input stream. -/
def Regs.blockIn (r : Regs) (k : Nat) : Prop := r.bs = 4 * r.c * (chunkCount r + 1) ∧ (k + 1) * r.bs ≤ r.len

section congr
variable {m m' : Memory} {r : Regs} {k c : Nat} (hin : r.SameInput m m') (hk : r.blockIn k) (hc : c < r.c)
include hin hk

theorem inByte_congr {j : Nat} (hj : j < r.bs) : inByte m' r k j = inByte m r k j :=
  hin _ (decide_eq_true ⟨by unfold inAddr; omega, inAddr_lt hk.2 hj⟩)

include hc

theorem inByte_header_congr {j : Nat} (hj : j < 4) :
    inByte m' r k (headerByte c j) = inByte m r k (headerByte c j) :=
  inByte_congr hin hk (headerByte_lt hk.1 hc hj)

theorem headerFault_congr : headerFault m' r k c = headerFault m r k c := by
  simp only [headerFault, inByte_header_congr hin hk hc (by decide : 2 < 4),
    inByte_header_congr hin hk hc (by decide : 3 < 4)]

theorem headerChan_congr : headerChan m' r k c = headerChan m r k c := by
  simp only [headerChan, inByte_header_congr hin hk hc (by decide : 0 < 4),
    inByte_header_congr hin hk hc (by decide : 1 < 4), inByte_header_congr hin hk hc (by decide : 2 < 4)]

theorem nibbleAt_congr {t : Nat} (ht : t < 8 * chunkCount r) : nibbleAt m' r k c t = nibbleAt m r k c t := by
  unfold nibbleAt
  rw [inByte_congr hin hk (bodyByte_lt hk.1 (by omega) hc (by omega))]

theorem chanAfter_congr {t : Nat} (ht : t ≤ 8 * chunkCount r) : chanAfter m' r k c t = chanAfter m r k c t := by
  induction t with
  | zero => exact headerChan_congr hin hk hc
  | succ t ih => rw [chanAfter, chanAfter, ih (by omega), nibbleAt_congr hin hk hc (by omega)]

theorem blockWord_congr {i : Nat} (hi : i < spb r) : blockWord m' r k c i = blockWord m r k c i := by
  unfold spb at hi
  rw [blockWord, blockWord, chanAfter_congr hin hk hc (by omega)]

end congr

/-! #### Nothing of the block function rests on a register that is no configuration register -/

section config
variable {r r' : Regs} (h : r'.config = r.config)
include h

theorem Regs.fields_config :
    r'.c = r.c ∧ r'.bs = r.bs ∧ r'.inBase.toNat = r.inBase.toNat ∧ r'.len = r.len ∧
    r'.outBase.toNat = r.outBase.toNat ∧ r'.outStride.toNat = r.outStride.toNat ∧ r'.outLen.toNat = r.outLen.toNat ∧
    r'.blkIndex.toNat = r.blkIndex.toNat ∧ r'.outOffset.toNat = r.outOffset.toNat := by
  simp only [Regs.config, List.cons.injEq, and_true] at h
  exact h

theorem Regs.c_config : r'.c = r.c := (Regs.fields_config h).1

theorem inAddr_config (k j : Nat) : inAddr r' k j = inAddr r k j := by
  obtain ⟨-, hbs, hbase, -⟩ := Regs.fields_config h
  simp only [inAddr, hbs, hbase]

theorem inByte_config (m : Memory) (k j : Nat) : inByte m r' k j = inByte m r k j :=
  congrArg m.read (inAddr_config h k j)

theorem outAddr_config (c i : Nat) : outAddr r' c i = outAddr r c i := by
  obtain ⟨-, -, -, -, hbase, hstride, -⟩ := Regs.fields_config h
  simp only [outAddr, hbase, hstride]

theorem spb_config : spb r' = spb r := by
  obtain ⟨hc, hbs, -⟩ := Regs.fields_config h
  simp only [spb, chunkCount, hc, hbs]

theorem blockCount_config : blockCount r' = blockCount r := by
  obtain ⟨-, hbs, -, hlen, -⟩ := Regs.fields_config h
  simp only [blockCount, hbs, hlen]

theorem totalSamples_config : totalSamples r' = totalSamples r := by
  obtain ⟨hc, -, -, hlen, -⟩ := Regs.fields_config h
  simp only [totalSamples, hc, hlen]

theorem slotWord_config (m : Memory) (c i : Nat) : slotWord m r' c i = slotWord m r c i := by
  rw [slotWord, slotWord, outAddr_config h]

theorem headerFault_config (m : Memory) (k c : Nat) : headerFault m r' k c = headerFault m r k c := by
  simp only [headerFault, inByte_config h]

theorem chanAfter_config (m : Memory) (k c t : Nat) : chanAfter m r' k c t = chanAfter m r k c t := by
  induction t with
  | zero => simp only [chanAfter, headerChan, inByte_config h]
  | succ t ih => simp only [chanAfter, ih, nibbleAt, bodyByte, Regs.c_config h, inByte_config h]

theorem Worker.progress_config (m : Memory) (wk : Worker) : wk.progress m r' ↔ wk.progress m r := by
  simp only [Worker.progress, blockWord, Regs.c_config h, headerFault_config h, chanAfter_config h, slotWord_config h]

theorem blockWritten_config (m : Memory) (k obase : Nat) : blockWritten m r' k obase ↔ blockWritten m r k obase := by
  simp only [Machine.blockWritten, blockWord, Regs.c_config h, spb_config h, headerFault_config h, chanAfter_config h,
    slotWord_config h]

end config

/-! #### The word each slot is to get -/

theorem Worker.rangeOk_stream {r : Regs} {o : Orch} (hkind : o.kind = .stream) {w : WorkerId} {wk : Worker} :
    wk.rangeOk r o w ↔
      w.num < o.w.toNat ∧ rangeStart (blockCount r) o.w.toNat w.num ≤ wk.blk.toNat ∧
      wk.blk.toNat < rangeEnd (blockCount r) o.w.toNat w.num ∧
      wk.stop.toNat = rangeEnd (blockCount r) o.w.toNat w.num ∧ wk.obase.toNat = wk.blk.toNat * spb r := by
  rw [Worker.rangeOk, hkind]

theorem Worker.rangeOk_single {r : Regs} {o : Orch} (hkind : o.kind = .single) {w : WorkerId} {wk : Worker} :
    wk.rangeOk r o w ↔
      w = .w0 ∧ wk.blk = r.blkIndex ∧ wk.stop.toNat = r.blkIndex.toNat + 1 ∧ wk.obase = r.outOffset := by
  rw [Worker.rangeOk, hkind]

/-- Every block below the block count is in the stream of an accepted command (R170, R256). -/
theorem Regs.blockIn_of_lt {p : Params} {r : Regs} {kind : Kind} {k : Nat} (h : checkConfig p r kind = none)
    (hk : k < blockCount r) : r.blockIn k := by
  obtain ⟨⟨hc, -⟩, ⟨hb, hm⟩, -⟩ := checkConfig_none.mp h
  exact ⟨bs_eq hc hb hm, block_in_stream hk⟩

/-- The one block of an accepted DECODE_BLOCK is in the stream (R201, R256). -/
theorem Regs.blockIn_single {p : Params} {r : Regs} (h : checkConfig p r .single = none) :
    r.blockIn r.blkIndex.toNat := by
  obtain ⟨⟨hc, -⟩, ⟨hb, hm⟩, -, -, hblk, -⟩ := checkConfig_none.mp h
  exact ⟨bs_eq hc hb hm, hblk rfl⟩

theorem Worker.blockIn {p : Params} {r : Regs} {o : Orch} {w : WorkerId} {wk : Worker}
    (hcheck : checkConfig p r o.kind = none) (hok : wk.rangeOk r o w) : r.blockIn wk.blk.toNat := by
  cases hkind : o.kind with
  | stream =>
    obtain ⟨-, -, hlt, -⟩ := (Worker.rangeOk_stream hkind).mp hok
    exact Regs.blockIn_of_lt hcheck (hlt.trans_le (rangeEnd_le _ _ _))
  | single =>
    obtain ⟨-, hblk, -⟩ := (Worker.rangeOk_single hkind).mp hok
    exact hblk ▸ Regs.blockIn_single (hkind ▸ hcheck)

/-- The slots of the blocks of an accepted DECODE are slots of the channel buffers (R174, R177). -/
theorem blocks_fit {p : Params} {r : Regs} {kind : Kind} (h : checkConfig p r kind = none) :
    blockCount r * spb r ≤ totalSamples r := by
  obtain ⟨⟨hc, -⟩, ⟨hb, hm⟩, -⟩ := checkConfig_none.mp h
  exact blocks_mul_spb_le_totalSamples hc hb hm

theorem block_slot_lt {r : Regs} {k i : Nat} (hk : k < blockCount r) (hi : i < spb r) :
    k * spb r + i < blockCount r * spb r :=
  calc k * spb r + i < (k + 1) * spb r := by rw [Nat.add_one_mul]; omega
    _ ≤ blockCount r * spb r := Nat.mul_le_mul_right _ hk

/-- In a DECODE the slot of sample `i` of block `k` gets that sample (R139, R202). -/
theorem successWord_block {s : State} {p : Params} {kind : Kind} (hkind : s.orch.kind = .stream)
    (hcheck : checkConfig p s.regs kind = none) {k i : Nat} (c : Nat) (hk : k < blockCount s.regs) (hi : i < spb s.regs) :
    successWord s c (k * spb s.regs + i) = some (blockWord s.mem s.regs k c i) := by
  have hslot := block_slot_lt hk hi
  have hdiv : (k * spb s.regs + i) / spb s.regs = k := by
    rw [Nat.mul_comm, Nat.mul_add_div (by omega), Nat.div_eq_of_lt hi, Nat.add_zero]
  have hmod : (k * spb s.regs + i) % spb s.regs = i := by
    rw [Nat.mul_comm, Nat.mul_add_mod, Nat.mod_eq_of_lt hi]
  simp only [successWord, hkind, streamWord, if_pos (hslot.trans_le (blocks_fit hcheck)), if_pos hslot, hdiv, hmod]

/-- In a DECODE a tail slot gets +0.0 (R178, R202). -/
theorem successWord_tail {s : State} (hkind : s.orch.kind = .stream) {i : Nat} (c : Nat)
    (hlo : blockCount s.regs * spb s.regs ≤ i) (hhi : i < totalSamples s.regs) : successWord s c i = some 0 := by
  simp only [successWord, hkind, streamWord, if_pos hhi, if_neg hlo.not_gt]

/-- In a DECODE_BLOCK the slots from OUT_OFFSET on get the samples of the block (R143, R201). -/
theorem successWord_single {s : State} (hkind : s.orch.kind = .single) {i : Nat} (c : Nat) (hi : i < spb s.regs) :
    successWord s c (s.regs.outOffset.toNat + i) = some (blockWord s.mem s.regs s.regs.blkIndex.toNat c i) := by
  simp only [successWord, hkind, Nat.le_add_right, Nat.add_lt_add_left hi, and_self, if_true, Nat.add_sub_cancel_left]

/-- The slots of an active worker's block get the samples of that block (R139, R202). -/
theorem successWord_worker {s : State} {p : Params} {w : WorkerId} {wk : Worker}
    (hcheck : checkConfig p s.regs s.orch.kind = none) (hok : wk.rangeOk s.regs s.orch w) {i : Nat} (c : Nat)
    (hi : i < spb s.regs) :
    successWord s c (wk.obase.toNat + i) = some (blockWord s.mem s.regs wk.blk.toNat c i) := by
  cases hkind : s.orch.kind with
  | stream =>
    obtain ⟨-, -, hlt, -, hobase⟩ := (Worker.rangeOk_stream hkind).mp hok
    rw [hobase]
    exact successWord_block hkind hcheck c (hlt.trans_le (rangeEnd_le _ _ _)) hi
  | single =>
    obtain ⟨-, hblk, -, hobase⟩ := (Worker.rangeOk_single hkind).mp hok
    rw [hobase, hblk]
    exact successWord_single hkind c hi

/-! #### Memory that a running command leaves right -/

/-- Memory `m` has the input of `s`, and in every output slot the word `s` has there or the one a successful run leaves. -/
def State.KeepsOutput (s : State) (m : Memory) : Prop :=
  s.regs.SameInput s.mem m ∧
  ∀ c i, c < s.regs.c → i < s.regs.outLen.toNat →
    slotWord m s.regs c i = slotWord s.mem s.regs c i ∨ some (slotWord m s.regs c i) = successWord s c i

/-- A slot that holds its right word goes on holding it. -/
theorem State.KeepsOutput.slot {s : State} {m : Memory} (hm : s.KeepsOutput m) {c i : Nat} {word : Word}
    (hc : c < s.regs.c) (hi : i < s.regs.outLen.toNat) (hright : successWord s c i = some word)
    (h : slotWord s.mem s.regs c i = word) : slotWord m s.regs c i = word := by
  obtain hold | hnew := hm.2 c i hc hi
  · exact hold.trans h
  · exact Option.some.inj (hnew.trans hright)

theorem Memory.read32_congr {m m' : Memory} {a : Nat} (h : ∀ j < 4, m'.read (a + j) = m.read (a + j)) :
    m'.read32 a = m.read32 a := by
  have h0 : m'.read a = m.read a := h 0 (by decide)
  simp only [Memory.read32, h 3 (by decide), h 2 (by decide), h 1 (by decide), h0]

/-- A running command that writes a slot's right word leaves memory right. -/
theorem State.KeepsOutput.write {s : State} (hi : Inv s) (hrun : s.orch.phase ≠ .idle) {c i : Nat} {word : Word}
    (hc : c < s.regs.c) (hslot : i < s.regs.outLen.toNat) (hright : successWord s c i = some word) :
    s.KeepsOutput (s.mem.write32 (outAddr s.regs c i) word) := by
  have hcheck := hi.accepted hrun
  have hinside := outAddr_inside hcheck hc hslot
  obtain ⟨-, -, -, hstride, -⟩ := checkConfig_none.mp hcheck
  refine ⟨fun a ha => Memory.read_write32_outside word hinside hi.memWf (outAddr_outside_input hcheck hc hslot ha),
    fun c' i' hc' hi' => ?_⟩
  by_cases heq : (c, i) = (c', i')
  · cases heq
    exact .inr ((congrArg some (Memory.read32_write32 word hinside hi.memWf)).trans hright.symm)
  · refine .inl (Memory.read32_congr fun j hj => Memory.read_write32_outside word hinside hi.memWf ?_)
    have := outAddr_disjoint hstride hc hc' hslot hi' heq
    omega

end Sys2Proof.Machine

/-! ### PROOFS. Every operation keeps what a running command has written right (R139, R141, R191 to R194, R201) -/

namespace Sys2Proof.Machine

/-! #### A block in progress -/

/-- No more samples of a channel are done than a block has (R130, R139). -/
theorem CursorPhase.samplesDone_le {r : Regs} {ph : CursorPhase} (hok : ph.ok r.c (chunkCount r)) (c : Nat) :
    ph.samplesDone c ≤ spb r := by
  unfold spb
  cases ph with
  | hchk ch => exact Nat.zero_le _
  | hwr ch => simp only [samplesDone]; split <;> omega
  | body g ch b h =>
    obtain ⟨hg, -, hb, hh⟩ := hok
    simp only [samplesDone]
    split_ifs <;> omega

theorem Worker.progress_setMem {s : State} {m : Memory} {w : WorkerId} {wk : Worker} (hm : s.KeepsOutput m)
    {p : Params} (hcheck : checkConfig p s.regs s.orch.kind = none) (hok : wk.activeOk s.regs s.orch w)
    (h : wk.progress s.mem s.regs) : wk.progress m s.regs := by
  obtain ⟨-, hphase, hrange⟩ := hok
  have hk := Worker.blockIn hcheck hrange
  have hfits := Worker.block_fits hcheck hrange
  intro c hc
  have hdone := CursorPhase.samplesDone_le hphase c
  obtain ⟨hload, hsamples⟩ := h c hc
  refine ⟨fun hl => ?_, fun i hi => ?_⟩
  · have hnib : wk.phase.nibblesDone c ≤ 8 * chunkCount s.regs := by
      unfold CursorPhase.nibblesDone; unfold spb at hdone; omega
    rw [headerFault_congr hm.1 hk hc, chanAfter_congr hm.1 hk hc hnib]
    exact hload hl
  · rw [blockWord_congr hm.1 hk hc (hi.trans_le hdone)]
    exact hm.slot hc (by omega) (successWord_worker hcheck hrange c (hi.trans_le hdone)) (hsamples i hi)

/-- Where the blocks of a DECODE that a worker has passed end (R194). -/
def Worker.passedTo (r : Regs) (o : Orch) (w : WorkerId) (wk : Worker) : Nat :=
  if wk.active then wk.blk.toNat else rangeEnd (blockCount r) o.w.toNat w.num

theorem Worker.passedTo_le {r : Regs} {o : Orch} {w : WorkerId} {wk : Worker} (hkind : o.kind = .stream)
    (hok : wk.active = true → wk.activeOk r o w) : wk.passedTo r o w ≤ blockCount r := by
  unfold Worker.passedTo
  split
  · obtain ⟨-, -, hrange⟩ := hok ‹_›
    obtain ⟨-, -, hlt, -⟩ := (Worker.rangeOk_stream hkind).mp hrange
    exact hlt.le.trans (rangeEnd_le _ _ _)
  · exact rangeEnd_le _ _ _

/-- A written block stays written: its slots have their right words. -/
theorem blockWritten_setMem {s : State} {m : Memory} {k obase : Nat} (hm : s.KeepsOutput m) (hk : s.regs.blockIn k)
    (hfits : obase + spb s.regs ≤ s.regs.outLen.toNat)
    (hright : ∀ c i, i < spb s.regs → successWord s c (obase + i) = some (blockWord s.mem s.regs k c i))
    (h : blockWritten s.mem s.regs k obase) : blockWritten m s.regs k obase := by
  intro c hc
  obtain ⟨hvalid, hsamples⟩ := h c hc
  refine ⟨(headerFault_congr hm.1 hk hc).trans hvalid, fun i hi => ?_⟩
  rw [blockWord_congr hm.1 hk hc hi]
  exact hm.slot hc (by omega) (hright c i hi) (hsamples i hi)

theorem CursorPhase.not_loaded_start (c : Nat) : ¬(CursorPhase.hchk 0).loaded c := Nat.not_lt_zero c

/-- A worker that has just started its block has nothing to answer for (R130). -/
theorem Worker.progress_start {wk : Worker} (h : wk.phase = .hchk 0) (m : Memory) (r : Regs) : wk.progress m r := by
  intro c _
  rw [h]
  exact ⟨fun hl => absurd hl (CursorPhase.not_loaded_start c), fun i hi => absurd hi (Nat.not_lt_zero i)⟩

/-! #### Where there is little to keep: IDLE, DRAIN, the model's own fields -/

theorem outputInv_of_idle {s : State} (hi : Inv s) (hidle : s.orch.phase = .idle) : OutputInv s where
  progress := fun w ha => absurd ha (by simp [hi.quiet (.inl hidle) w])
  tail := fun _ h => absurd h (by simp [hidle])
  blocks := fun _ h => absurd h (by simp [hidle])
  single := fun _ h => absurd h (by simp [hidle])

/-- Once an error is latched only the blocks in progress are left to keep right (R196, R200). -/
theorem outputInv_of_drain {s : State} (hdrain : s.orch.phase = .drain)
    (h : ∀ w, (s.worker w).active = true → (s.worker w).progress s.mem s.regs) : OutputInv s where
  progress := h
  tail := fun _ h => absurd h (by simp [hdrain])
  blocks := fun _ h => absurd h (by simp [hdrain])
  single := fun _ h => absurd h (by simp [hdrain])

theorem OutputInv.sameBlock {s t : State} (ho : OutputInv s) (h : s.SameBlock t) : OutputInv t := by
  obtain ⟨dl, mv, k, d, -, rfl⟩ := h
  exact { ho with }

theorem OutputInv.setTurn {s : State} (ho : OutputInv s) (w : WorkerId) : OutputInv { s with turn := w } := { ho with }

/-- A register update outside the configuration leaves right what a running command has written. -/
theorem OutputInv.setRegs {s : State} (ho : OutputInv s) {r : Regs} (h : r.config = s.regs.config) :
    OutputInv { s with regs := r } where
  progress := fun w ha => (Worker.progress_config h s.mem _).mpr (ho.progress w ha)
  tail := fun hk hp => by
    have htail := ho.tail hk hp
    simp only [tailWritten, Regs.c_config h, blockCount_config h, spb_config h, totalSamples_config h,
      slotWord_config h] at htail ⊢
    exact htail
  blocks := fun hk hp => by
    simp only [blockCount_config h, spb_config h, blockWritten_config h]
    exact ho.blocks hk hp
  single := fun hk hp ha => by
    obtain ⟨-, -, -, -, -, -, -, hblk, hoffset⟩ := Regs.fields_config h
    change blockWritten s.mem r r.blkIndex.toNat r.outOffset.toNat
    rw [blockWritten_config h, hblk, hoffset]
    exact ho.single hk hp ha

section running
variable {s : State} (hi : Inv s) (ho : OutputInv s)
include hi ho

/-- Memory that keeps the input and the right words keeps everything a running command has written right. -/
theorem OutputInv.setMem (hrun : s.orch.phase ≠ .idle) {m : Memory} (hm : s.KeepsOutput m) :
    OutputInv { s with mem := m } := by
  have hcheck := hi.accepted hrun
  obtain ⟨-, -, -, -, -, hlen, hsingle, -⟩ := checkConfig_none.mp hcheck
  have hkept (w : WorkerId) (ha : (s.worker w).active = true) : (s.worker w).progress m s.regs :=
    Worker.progress_setMem hm hcheck (hi.activeOk w ha) (ho.progress w ha)
  have htail (hk : s.orch.kind = .stream) (hp : s.orch.phase = .fill ∨ s.orch.phase = .run) :
      tailWritten { s with mem := m } := fun c i hc hlo hhi hcur =>
    hm.slot hc (hlen hk ▸ hhi) (successWord_tail hk c hlo hhi) (ho.tail hk hp c i hc hlo hhi hcur)
  have hblocks (hk : s.orch.kind = .stream) {k : Nat} (hlt : k < blockCount s.regs)
      (h : blockWritten s.mem s.regs k (k * spb s.regs)) : blockWritten m s.regs k (k * spb s.regs) := by
    refine blockWritten_setMem hm (Regs.blockIn_of_lt hcheck hlt) ?_ (fun c i => successWord_block hk hcheck c hlt) h
    rw [hlen hk, ← Nat.add_one_mul]
    exact (Nat.mul_le_mul_right _ hlt).trans (blocks_fit hcheck)
  exact {
    progress := hkept
    tail := htail
    blocks := fun hk hp w k hlo hw hhi =>
      hblocks hk (lt_of_lt_of_le hhi (Worker.passedTo_le hk (hi.activeOk w))) (ho.blocks hk hp w k hlo hw hhi)
    single := fun (hk : s.orch.kind = .single) hp ha =>
      blockWritten_setMem (s := s) hm (Regs.blockIn_single (hk ▸ hcheck)) (hsingle hk) (fun c i => successWord_single hk c)
        (ho.single hk hp ha) }

end running

/-! #### Workers -/

/-- One worker replaced: it answers for the block it is in, and for every block it has passed by the change (R194). -/
theorem OutputInv.setWorker {s : State} (ho : OutputInv s) {w : WorkerId} {x : Worker}
    (hprog : x.active = true → x.progress s.mem s.regs)
    (hpassed : s.orch.kind = .stream → ∀ k, k < x.passedTo s.regs s.orch w →
      k < (s.worker w).passedTo s.regs s.orch w ∨ blockWritten s.mem s.regs k (k * spb s.regs))
    (hsingle : s.orch.kind = .single → w = .w0 → x.active = false →
      (s.worker .w0).active = false ∨ blockWritten s.mem s.regs s.regs.blkIndex.toNat s.regs.outOffset.toNat) :
    OutputInv (s.setWorker w x) where
  progress := fun v => by
    rw [State.worker_setWorker]
    split
    · exact hprog
    · exact ho.progress v
  tail := ho.tail
  blocks := fun hk hp v k hlo hv => by
    rw [State.worker_setWorker]
    split
    · subst v
      intro hhi
      obtain hold | hnew := hpassed hk k hhi
      · exact ho.blocks hk hp w k hlo hv hold
      · exact hnew
    · exact ho.blocks hk hp v k hlo hv
  single := fun hk hp => by
    rw [State.worker_setWorker]
    split
    · rename_i hw
      intro ha
      obtain hold | hnew := hsingle hk hw.symm ha
      · exact ho.single hk hp hold
      · exact hnew
    · exact ho.single hk hp

/-- An error of a running command leaves it in DRAIN, where only the workers still active answer for their blocks (R196). -/
theorem outputInv_raiseError {u : State} (hi : Inv u) (who : Option WorkerId) (e : ErrRec)
    (h : ∀ v, who ≠ some v → (u.worker v).active = true → (u.worker v).progress u.mem u.regs) :
    OutputInv (raiseError who e u) := by
  refine outputInv_of_drain ?_ fun v ha => ?_
  · cases hl : u.orch.latched
    · rw [raiseError_first hl]
    · rw [raiseError_latched hl, haltRaiser_orch, hi.latchedIff.mp hl]
  · rw [worker_raiseError] at ha ⊢
    rw [Worker.progress_config (raiseError_sameConfig who e u).2, raiseError_mem]
    split at ha
    · exact absurd ha Bool.false_ne_true
    · rw [if_neg ‹_›]
      exact h v ‹_› ha

/-! #### The cursor moved on (R130, R194) -/

/-- Whether channel `c` is loaded after the micro-operation of a phase (R130). -/
def CursorPhase.loadedAfter (c : Nat) : CursorPhase → Prop
  | .hchk ch => c ≤ ch
  | .hwr _ => True
  | .body _ _ _ _ => True

/-- How many samples of channel `c` a block has written after the micro-operation of a phase (R130, R139). -/
def CursorPhase.samplesAfter (c : Nat) : CursorPhase → Nat
  | .hchk _ => 0
  | .hwr ch => if c ≤ ch then 1 else 0
  | .body g ch b h =>
    if c < ch then 1 + 8 * (g + 1) else if c = ch then 1 + 8 * g + 2 * b + h + 1 else 1 + 8 * g

/-- The successor of a phase starts where the micro-operation ends. -/
theorem nextPhase_some {c chunks k : Nat} {ph ph' : CursorPhase} (hok : ph.ok c chunks) (hk : k < c)
    (h : nextPhase c chunks ph = some ph') :
    (ph'.loaded k → ph.loadedAfter k) ∧ ph'.samplesDone k = ph.samplesAfter k := by
  cases ph with
  | hchk ch =>
    cases h
    split
    · exact ⟨Nat.lt_succ_iff.mp, rfl⟩
    · exact ⟨fun _ => by change k ≤ ch; omega, rfl⟩
  | hwr ch =>
    simp only [nextPhase] at h
    split_ifs at h with hch hg <;> cases h
    all_goals
      refine ⟨fun _ => trivial, ?_⟩
      simp only [CursorPhase.samplesDone, CursorPhase.samplesAfter]
      split_ifs <;> omega
  | body g ch b half =>
    obtain ⟨-, hch, hb, hh⟩ := hok
    simp only [nextPhase] at h
    split_ifs at h <;> cases h
    all_goals
      refine ⟨fun _ => trivial, ?_⟩
      simp only [CursorPhase.samplesDone, CursorPhase.samplesAfter]
      split_ifs <;> omega

/-- The last micro-operation of a block leaves every channel loaded and all its samples written. -/
theorem nextPhase_none {c chunks k : Nat} {ph : CursorPhase} (hok : ph.ok c chunks) (hk : k < c)
    (h : nextPhase c chunks ph = none) : ph.loadedAfter k ∧ ph.samplesAfter k = 1 + 8 * chunks := by
  cases ph with
  | hchk ch => cases h
  | hwr ch =>
    simp only [nextPhase] at h
    split_ifs at h
    exact ⟨trivial, by simp only [CursorPhase.samplesAfter]; split_ifs <;> omega⟩
  | body g ch b half =>
    obtain ⟨hg, hch, hb, hh⟩ := hok
    simp only [nextPhase] at h
    split_ifs at h
    exact ⟨trivial, by simp only [CursorPhase.samplesAfter]; split_ifs <;> omega⟩

/-- A worker's ChannelState and output after its micro-operation, its cursor not yet moved, are those of the block
function (R141). -/
def Worker.progressAfter (m : Memory) (r : Regs) (wk : Worker) : Prop :=
  ∀ c, c < r.c →
    (wk.phase.loadedAfter c →
      headerFault m r wk.blk.toNat c = none ∧
      wk.chan c = chanAfter m r wk.blk.toNat c (wk.phase.samplesAfter c - 1)) ∧
    ∀ i, i < wk.phase.samplesAfter c →
      slotWord m r c (wk.obase.toNat + i) = blockWord m r wk.blk.toNat c i

section advance
variable {m : Memory} {r : Regs} {wk : Worker} (hok : wk.phase.ok r.c (chunkCount r)) (h : wk.progressAfter m r)
include hok h

theorem Worker.progressAfter.next {ph : CursorPhase} (hph : nextPhase r.c (chunkCount r) wk.phase = some ph) :
    { wk with phase := ph }.progress m r := by
  intro c hc
  obtain ⟨hload, hsamples⟩ := nextPhase_some hok hc hph
  obtain ⟨hchan, hwords⟩ := h c hc
  simp only [CursorPhase.nibblesDone, hsamples]
  exact ⟨fun hl => hchan (hload hl), hwords⟩

theorem Worker.progressAfter.blockWritten (hph : nextPhase r.c (chunkCount r) wk.phase = none) :
    blockWritten m r wk.blk.toNat wk.obase.toNat := by
  intro c hc
  obtain ⟨hload, hsamples⟩ := nextPhase_none hok hc hph
  obtain ⟨hchan, hwords⟩ := h c hc
  exact ⟨(hchan hload).1, fun i hi => hwords i (hsamples.symm ▸ hi)⟩

end advance

/-- Where a cursor goes: to the successor phase, to the next block of a STREAM range, or nowhere (R130, R194). -/
theorem advanceWorker_cases (r : Regs) (wk : Worker) :
    (∃ ph, nextPhase r.c (chunkCount r) wk.phase = some ph ∧ advanceWorker r wk = { wk with phase := ph }) ∨
    (nextPhase r.c (chunkCount r) wk.phase = none ∧ wk.kind = .stream ∧ wk.blk.toNat + 1 < wk.stop.toNat ∧
      advanceWorker r wk = wk.startBlock (wk.blk.toNat + 1) ((wk.blk.toNat + 1) * spb r)) ∨
    (nextPhase r.c (chunkCount r) wk.phase = none ∧ ¬(wk.kind = .stream ∧ wk.blk.toNat + 1 < wk.stop.toNat) ∧
      advanceWorker r wk = { wk with active := false }) := by
  unfold advanceWorker
  split
  · exact .inl ⟨_, ‹_›, rfl⟩
  · unfold blockEnd
    split
    · rename_i hnext
      exact .inr (.inl ⟨‹_›, hnext.1, hnext.2, rfl⟩)
    · exact .inr (.inr ⟨‹_›, ‹_›, rfl⟩)

section moved
variable {s : State} (hi : Inv s) (ho : OutputInv s)
include hi ho

/-- A worker that is right after its micro-operation moves its cursor: it stays right in its block, or has written the
block whole (R141, R194). Worker `x` is the one in `s` with its channels updated. -/
theorem OutputInv.advance {w : WorkerId} {x : Worker} (ha : (s.worker w).active = true)
    (hx : x = { s.worker w with cs := x.cs }) (hafter : x.progressAfter s.mem s.regs) :
    OutputInv (s.setWorker w (advanceWorker s.regs x)) := by
  have hact : x.active = true := hx ▸ ha
  have hblk : (s.worker w).blk = x.blk := by rw [hx]
  obtain ⟨hkind, hphase, hrange⟩ : x.activeOk s.regs s.orch w := hx ▸ hi.activeOk w ha
  have hpassed : (s.worker w).passedTo s.regs s.orch w = x.blk.toNat := by rw [Worker.passedTo, if_pos ha, hblk]
  obtain ⟨ph, hph, heq⟩ | ⟨hph, hstream, hlt, heq⟩ | ⟨hph, hlast, heq⟩ := advanceWorker_cases s.regs x <;> rw [heq]
  · refine ho.setWorker (fun _ => hafter.next hphase hph) (fun _ k hk => .inl ?_)
      fun _ _ hoff => absurd (hact.symm.trans hoff) (by decide)
    rw [Worker.passedTo, if_pos hact] at hk
    exact hpassed.symm ▸ hk
  · have hk := hkind.symm.trans hstream
    have hwritten := hafter.blockWritten hphase hph
    obtain ⟨-, -, -, hstop, hobase⟩ := (Worker.rangeOk_stream hk).mp hrange
    have hnext : (BitVec.ofNat 32 (x.blk.toNat + 1)).toNat = x.blk.toNat + 1 :=
      Nat.mod_eq_of_lt ((hlt.trans_le (hstop.le.trans (rangeEnd_le _ _ _))).trans (blockCount_lt _))
    refine ho.setWorker (fun _ => Worker.progress_start rfl _ _) (fun _ k hk' => ?_)
      fun h => absurd (hk.symm.trans h) (by decide)
    rw [Worker.passedTo, Worker.startBlock_active, if_pos hact, Worker.startBlock_blk, hnext] at hk'
    rw [hpassed]
    obtain hlt | rfl := Nat.lt_succ_iff_lt_or_eq.mp hk'
    · exact .inl hlt
    · exact .inr (hobase ▸ hwritten)
  · have hwritten := hafter.blockWritten hphase hph
    refine ho.setWorker (fun h => absurd h Bool.false_ne_true) (fun hk k hk' => ?_) fun hk hw _ => .inr ?_
    · obtain ⟨-, -, -, hstop, hobase⟩ := (Worker.rangeOk_stream hk).mp hrange
      have hend : x.stop.toNat ≤ x.blk.toNat + 1 := not_lt.mp fun h => hlast ⟨hkind.trans hk, h⟩
      rw [Worker.passedTo, if_neg Bool.false_ne_true, ← hstop] at hk'
      rw [hpassed]
      obtain hlt | rfl := Nat.lt_succ_iff_lt_or_eq.mp (hk'.trans_le hend)
      · exact .inl hlt
      · exact .inr (hobase ▸ hwritten)
    · obtain ⟨-, hblk, -, hobase⟩ := (Worker.rangeOk_single hk).mp hrange
      rw [← hblk, ← hobase]
      exact hwritten

end moved

/-! #### The micro-operations (R131, R132, R138) -/

/-- A header is valid when its index is at most 88 and its reserved byte is 0 (R107). -/
theorem headerFault_none {m : Memory} {r : Regs} {k ch : Nat} :
    headerFault m r k ch = none ↔
      (inByte m r k (headerByte ch 2)).toNat ≤ 88 ∧ inByte m r k (headerByte ch 3) = 0 := by
  simp only [headerFault, guarded_none, not_lt, not_not, and_true]

theorem headerChan_idx_le {m : Memory} {r : Regs} {k ch : Nat} (h : headerFault m r k ch = none) :
    (headerChan m r k ch).idx.toNat ≤ 88 := by
  obtain ⟨hidx, -⟩ := headerFault_none.mp h
  exact (BitVec.toNat_setWidth _ _).trans_le ((Nat.mod_le _ _).trans hidx)

/-- The nibble a BODY cursor is at, as the block function counts them (R108, R109). -/
theorem nibbleAt_body (m : Memory) (r : Regs) (k g ch : Nat) {b half : Nat} (hb : b < 4) (hh : half < 2) :
    nibbleAt m r k ch (8 * g + 2 * b + half) = nibbleOf (inByte m r k (bodyByte r g ch b)) half := by
  have hgroup : (8 * g + 2 * b + half) / 8 = g := by omega
  have hbyte : (8 * g + 2 * b + half) % 8 / 2 = b := by omega
  have hhalf : (8 * g + 2 * b + half) % 2 = half := by omega
  rw [nibbleAt, hgroup, hbyte, hhalf]

section progressAfter
variable {m : Memory} {r : Regs} {wk : Worker} (h : wk.progress m r)
include h

/-- HDR_CHECK loads the channel the block function starts from (R131). -/
theorem Worker.progress.load {ch : Nat} (hp : wk.phase = .hchk ch) (hlen : ch < wk.cs.length)
    (hvalid : headerFault m r wk.blk.toNat ch = none) :
    (wk.setChan ch (headerChan m r wk.blk.toNat ch)).progressAfter m r := by
  intro c hc
  have hold := h c hc
  simp only [Worker.setChan_phase, Worker.setChan_blk, hp] at hold ⊢
  refine ⟨fun hload => ?_, fun i hi => absurd hi (Nat.not_lt_zero i)⟩
  obtain hlt | rfl := Nat.lt_or_eq_of_le hload
  · rw [Worker.chan_setChan_ne _ _ _ hlt.ne]
    exact hold.1 hlt
  · exact ⟨hvalid, Worker.chan_setChan_same _ _ _ hlen⟩

/-- HDR_WRITE leaves the header sample written (R132). -/
theorem Worker.progress.header {ch : Nat} (hp : wk.phase = .hwr ch)
    (hword : slotWord m r ch wk.obase.toNat = blockWord m r wk.blk.toNat ch 0) : wk.progressAfter m r := by
  intro c hc
  have hold := h c hc
  simp only [hp, CursorPhase.nibblesDone, CursorPhase.samplesDone, CursorPhase.samplesAfter] at hold ⊢
  refine ⟨fun _ => ?_, fun i hi => ?_⟩
  · have hbefore : (if c < ch then 1 else 0) - 1 = 0 := by split <;> rfl
    have hafter : (if c ≤ ch then 1 else 0) - 1 = 0 := by split <;> rfl
    rw [hafter]
    exact hbefore ▸ hold.1 trivial
  · split at hi
    · obtain rfl : i = 0 := by omega
      obtain hlt | rfl := Nat.lt_or_eq_of_le ‹c ≤ ch›
      · exact hold.2 0 (by rw [if_pos hlt]; exact Nat.one_pos)
      · exact hword
    · exact absurd hi (Nat.not_lt_zero i)

/-- BODY_SAMPLE leaves the channel one nibble further, and its sample written (R138, R139). -/
theorem Worker.progress.body {g ch b half : Nat} {n : BitVec 4} (hp : wk.phase = .body g ch b half) (hb : b < 4)
    (hh : half < 2) (hlen : ch < wk.cs.length) (hn : n = nibbleAt m r wk.blk.toNat ch (8 * g + 2 * b + half))
    (hword : slotWord m r ch (bodySlot wk.obase.toNat g b half) =
      blockWord m r wk.blk.toNat ch (8 * g + 2 * b + half + 1)) :
    (wk.setChan ch (nibbleStep n (wk.chan ch))).progressAfter m r := by
  intro c hc
  have hold := h c hc
  simp only [Worker.setChan_phase, Worker.setChan_blk, Worker.setChan_obase, hp, CursorPhase.nibblesDone,
    CursorPhase.samplesDone, CursorPhase.samplesAfter] at hold ⊢
  by_cases hcc : c = ch
  · subst hcc
    simp only [lt_irrefl, if_false, if_true] at hold ⊢
    obtain ⟨hload, hsamples⟩ := hold
    obtain ⟨hvalid, hchan⟩ := hload trivial
    have hdone : 1 + 8 * g + 2 * b + half - 1 = 8 * g + 2 * b + half := by omega
    have hafter : 1 + 8 * g + 2 * b + half + 1 - 1 = 8 * g + 2 * b + half + 1 := by omega
    rw [hdone] at hchan
    rw [Worker.chan_setChan_same _ _ _ hlen, hafter, chanAfter, ← hchan, ← hn]
    refine ⟨fun _ => ⟨hvalid, rfl⟩, fun i hi => ?_⟩
    obtain hlt | rfl := Nat.lt_succ_iff_lt_or_eq.mp hi
    · exact hsamples i hlt
    · have hslot : wk.obase.toNat + (1 + 8 * g + 2 * b + half) = bodySlot wk.obase.toNat g b half := by
        unfold bodySlot; omega
      rw [hslot, hword, show 8 * g + 2 * b + half + 1 = 1 + 8 * g + 2 * b + half by omega]
  · simp only [if_neg hcc] at hold ⊢
    rw [Worker.chan_setChan_ne _ _ _ hcc]
    exact hold

end progressAfter

@[simp] theorem Workers.set_set (ws : Workers) (w : WorkerId) (x y : Worker) : (ws.set w x).set w y = ws.set w y := by
  cases w <;> rfl

section ChanUpdate
variable {w : WorkerId} {s u : State} (h : ChanUpdate w s u)
include h

theorem ChanUpdate.mem : u.mem = s.mem := by cases h <;> rfl

theorem ChanUpdate.regs : u.regs = s.regs := by cases h <;> rfl

theorem ChanUpdate.worker_ne {v : WorkerId} (hv : v ≠ w) : u.worker v = s.worker v := by
  cases h with
  | none => rfl
  | chan ch x _ => exact State.worker_setWorker_ne _ _ _ hv

theorem ChanUpdate.worker_same : u.worker w = { s.worker w with cs := (u.worker w).cs } := by
  cases h with
  | none => rfl
  | chan ch x _ => rw [State.worker_setWorker_same]; rfl

/-- The cursor moved after a channel update and a write: one worker of `s` replaced, from the memory written. -/
theorem ChanUpdate.advance_eq (m : Memory) :
    advance w { u with mem := m } =
      { ({ s with mem := m }.setWorker w (advanceWorker s.regs (u.worker w))) with turn := w } := by
  cases h with
  | none => rfl
  | chan ch x _ => simp [advance, State.setWorker]

end ChanUpdate

/-- Every channel of the configuration has its ChannelState (R24, R256). -/
theorem Inv.chan_lt {s : State} (hi : Inv s) {w : WorkerId} (ha : (s.worker w).active = true) {ch : Nat}
    (hch : ch < s.regs.c) : ch < (s.worker w).cs.length := by
  obtain ⟨⟨-, hmax⟩, -⟩ := checkConfig_none.mp (hi.accepted (hi.running_of_active ha))
  exact (hch.trans_le hmax).trans_eq (hi.csOk w).1.symm

section micro
variable {s : State} (hi : Inv s) (ho : OutputInv s) {w : WorkerId}
include hi ho

/-- An error a micro-operation raises leaves right what the other workers have written. -/
theorem outputInv_microFailed {u : State} (hu : ChanUpdate w s u) (e : ErrRec) : OutputInv (raiseError (some w) e u) := by
  refine outputInv_raiseError (inv_chanUpdate hi hu) (some w) e fun v hv hact => ?_
  have hne : v ≠ w := fun h => hv (congrArg some h.symm)
  rw [hu.worker_ne hne] at hact ⊢
  rw [hu.mem, hu.regs]
  exact ho.progress v hact

variable (ha : (s.worker w).active = true)
include ha

theorem outputInv_loaded {u : State} (hu : ChanUpdate w s u) (hafter : (u.worker w).progressAfter s.mem s.regs) :
    OutputInv (advance w u) := by
  have heq := hu.advance_eq s.mem
  rw [← hu.mem] at heq
  exact heq ▸ OutputInv.setTurn (hu.mem.symm ▸ OutputInv.advance hi ho ha hu.worker_same hafter) w

/-- A sample written where the block function has it, and the cursor moved. -/
theorem outputInv_writeSample {u t : State} {ch i : Nat} {word : Word} (hu : ChanUpdate w s u) (hch : ch < s.regs.c)
    (hi' : i < spb s.regs) (hword : word = blockWord s.mem s.regs (s.worker w).blk.toNat ch i)
    (hafter : ∀ m, s.regs.SameInput s.mem m → (s.worker w).progress m s.regs →
      slotWord m s.regs ch ((s.worker w).obase.toNat + i) = blockWord m s.regs (s.worker w).blk.toNat ch i →
      (u.worker w).progressAfter m s.regs)
    (h : writeSample w ch ((s.worker w).obase.toNat + i) word u = .next t) : OutputInv t := by
  obtain ⟨-, -, rfl⟩ | ⟨-, rfl⟩ := writeSample_next h
  case inr => exact outputInv_microFailed hi ho hu _
  have hrun := hi.running_of_active ha
  have hcheck := hi.accepted hrun
  obtain ⟨-, -, hrange⟩ := hi.activeOk w ha
  have hslot : (s.worker w).obase.toNat + i < s.regs.outLen.toNat :=
    (Nat.add_lt_add_left hi' _).trans_le (Worker.block_fits hcheck hrange)
  have hinside := outAddr_inside hcheck hch hslot
  have hkeeps := State.KeepsOutput.write hi hrun hch hslot (hword ▸ successWord_worker hcheck hrange ch hi')
  have hread := Memory.read32_write32 word hinside hi.memWf
  have hmem := Memory.wf_write32 word hinside hi.memWf
  have hom := ho.setMem hi hrun hkeeps
  rw [hu.advance_eq, hu.regs, hu.mem]
  refine OutputInv.setTurn (OutputInv.advance (hi.setMem hmem) hom ha hu.worker_same ?_) w
  exact hafter _ hkeeps.1 (hom.progress w ha)
    (hread.trans (hword.trans (blockWord_congr hkeeps.1 (Worker.blockIn hcheck hrange) hch hi').symm))

/-- HDR_WRITE writes the sample of the header (R132). -/
theorem outputInv_hdrWrite {t : State} {ch : Nat} (hp : (s.worker w).phase = .hwr ch)
    (h : hdrWrite w ch { s with turn := w } = .next t) : OutputInv t := by
  obtain ⟨-, hphase, -⟩ := hi.activeOk w ha
  rw [hp] at hphase
  have hload := ((ho.progress w ha) ch hphase).1
  simp only [hp, CursorPhase.nibblesDone, CursorPhase.samplesDone, lt_irrefl, if_false] at hload
  obtain ⟨-, hchan⟩ := hload trivial
  refine outputInv_writeSample hi ho ha (i := 0) .none hphase (by unfold spb; omega) ?_
    (fun m _ hprog hword => hprog.header hp hword) h
  rw [blockWord, ← hchan]
  rfl

/-- HDR_CHECK of a valid header loads the block function's first ChannelState (R131). -/
theorem outputInv_hdrCheck {t : State} {ch : Nat} (hp : (s.worker w).phase = .hchk ch)
    (h : hdrCheck w ch { s with turn := w } = .next t) : OutputInv t := by
  obtain ⟨-, hphase, -⟩ := hi.activeOk w ha
  rw [hp] at hphase
  obtain ⟨h0, h1, h2, h3, hr0, hr1, hr2, hr3, rfl⟩ | rfl := hdrCheck_next h
  case inr => exact outputInv_microFailed hi ho .none _
  obtain ⟨-, heq⟩ | ⟨-, -, heq⟩ | ⟨hidx, hres, heq⟩ := checkHeader_cases w ch h0 h1 h2 h3 { s with turn := w } <;> rw [heq]
  · exact outputInv_microFailed hi ho .none _
  · exact outputInv_microFailed hi ho .none _
  obtain ⟨-, -, rfl⟩ := memRead8_ok.mp hr0
  obtain ⟨-, -, rfl⟩ := memRead8_ok.mp hr1
  obtain ⟨-, -, rfl⟩ := memRead8_ok.mp hr2
  obtain ⟨-, -, rfl⟩ := memRead8_ok.mp hr3
  have hvalid := headerFault_none.mpr ⟨hidx, hres⟩
  have hafter := (ho.progress w ha).load hp (hi.chan_lt ha hphase) hvalid
  have hu : ChanUpdate w s ({ s with turn := w }.setWorker w
      ((s.worker w).setChan ch (headerChan s.mem s.regs (s.worker w).blk.toNat ch))) :=
    .chan ch _ (headerChan_idx_le hvalid)
  exact outputInv_loaded hi ho ha hu (State.worker_setWorker_same { s with turn := w } w _ ▸ hafter)

/-- BODY_SAMPLE on the block function's next nibble writes its next sample (R138). -/
theorem outputInv_bodySample {t : State} {g ch b half : Nat} {n : BitVec 4} (hp : (s.worker w).phase = .body g ch b half)
    (hn : n = nibbleAt s.mem s.regs (s.worker w).blk.toNat ch (8 * g + 2 * b + half))
    (h : bodySample n { s with turn := w } = .next t) : OutputInv t := by
  obtain ⟨-, hphase, hrange⟩ := hi.activeOk w ha
  have hblock := Worker.blockIn (hi.accepted (hi.running_of_active ha)) hrange
  rw [hp] at hphase
  obtain ⟨hg, hch, hb, hh⟩ := hphase
  have hload := ((ho.progress w ha) ch hch).1
  have hdone : 1 + 8 * g + 2 * b + half - 1 = 8 * g + 2 * b + half := by omega
  simp only [hp, CursorPhase.nibblesDone, CursorPhase.samplesDone, lt_irrefl, if_false, if_true, hdone] at hload
  obtain ⟨-, hchan⟩ := hload trivial
  have hslot : bodySlot (s.worker w).obase.toNat g b half =
      (s.worker w).obase.toNat + (8 * g + 2 * b + half + 1) := by unfold bodySlot; omega
  have hu : ChanUpdate w s (stepChan w ch n { s with turn := w }) := .chan ch _ (nibbleStep_idx_le n _)
  rw [bodySample_at (s := { s with turn := w }) ha hp] at h
  refine outputInv_writeSample hi ho ha hu hch (by unfold spb; omega) ?_ (fun m hin hprog hword => ?_) (hslot ▸ h)
  · rw [blockWord, chanAfter, ← hn, ← hchan]
    rfl
  · rw [worker_stepChan, if_pos rfl]
    refine hprog.body hp hb hh (hi.chan_lt ha hch) ?_ (hslot ▸ hword)
    rw [hn, nibbleAt_congr hin hblock hch (by omega)]

end micro

theorem microStep_disabled {s : State} {w : WorkerId} (hoff : ¬microEnabled s w = true) : microStep w s = .next s := by
  rw [microStep, if_neg hoff]

/-- A micro-operation at an HCHK cursor is HDR_CHECK (R131). -/
theorem microStep_hchk {s : State} {w : WorkerId} {ch : Nat} (hon : microEnabled s w = true)
    (hp : (s.worker w).phase = .hchk ch) : microStep w s = hdrCheck w ch { s with turn := w } := by
  simp only [microStep, if_pos hon, hp]

/-- A micro-operation at an HWR cursor is HDR_WRITE (R132). -/
theorem microStep_hwr {s : State} {w : WorkerId} {ch : Nat} (hon : microEnabled s w = true)
    (hp : (s.worker w).phase = .hwr ch) : microStep w s = hdrWrite w ch { s with turn := w } := by
  simp only [microStep, if_pos hon, hp]

/-- What a micro-operation at a BODY cursor does: the nibble in its half of the byte read, or BUS_ERROR subcode 1 (R138,
R271). -/
theorem microStep_body_next {s t : State} {w : WorkerId} {g ch b half : Nat} (hon : microEnabled s w = true)
    (hp : (s.worker w).phase = .body g ch b half) (h : microStep w s = .next t) :
    bodySample (nibbleOf (inByte s.mem s.regs (s.worker w).blk.toNat (bodyByte s.regs g ch b)) half)
      { s with turn := w } = .next t ∨
    t = raiseError (some w) (busErrorRec 1 ch (s.worker w).blk) { s with turn := w } := by
  cases hx : readBodyByte s w g ch b with
  | ok x =>
    rw [microStep_body hon hp hx, exec_decodeNibble] at h
    obtain ⟨-, -, rfl⟩ := memRead8_ok.mp hx
    exact .inl h
  | busError =>
    simp only [microStep, if_pos hon, hp, hx] at h
    exact .inr (by simpa using h.symm)
  | outside =>
    simp only [microStep, if_pos hon, hp, hx] at h
    cases h

/-! #### What the orchestrator and the host do to the output -/

theorem advanceFill_phase (r : Regs) (o : Orch) : (advanceFill r o).phase = o.phase := by
  unfold advanceFill
  split <;> rfl

/-- The tail slots before the advanced cursor are those before the cursor, and the one at it (R191). -/
theorem beforeFill_advanceFill {r : Regs} {o : Orch} {c i : Nat} (h : beforeFill (advanceFill r o) c i)
    (hlo : blockCount r * spb r ≤ i) (hhi : i < totalSamples r) : beforeFill o c i ∨ (c = o.fillCh ∧ i = o.fillI) := by
  unfold advanceFill at h
  unfold beforeFill at h ⊢
  split at h
  · simp only at h; omega
  · simp only at h; omega

/-- A worker that is active after DISPATCH has just started (R192). -/
theorem dispatchWorker_started {r : Regs} {w i : Nat} {wk : Worker} (hstopped : wk.active = false)
    (h : (dispatchWorker r w i wk).active = true) : (dispatchWorker r w i wk).phase = .hchk 0 := by
  unfold dispatchWorker at h ⊢
  split at h
  · rw [if_pos ‹_›]; rfl
  · exact absurd h (by simp [hstopped])

/-- After DISPATCH no worker has passed a block of its range: it is at the first, or the range is empty (R175, R192). -/
theorem dispatchWorker_passedTo_le {r : Regs} {o : Orch} {w : WorkerId} {wk : Worker} (hstopped : wk.active = false)
    (hw : w.num < o.w.toNat) :
    (dispatchWorker r o.w.toNat w.num wk).passedTo r o w ≤ rangeStart (blockCount r) o.w.toNat w.num := by
  unfold dispatchWorker
  split
  · rw [Worker.passedTo, Worker.startBlock_active, if_pos rfl, Worker.startBlock_blk, BitVec.toNat_ofNat]
    exact Nat.mod_le _ _
  · rename_i hempty
    rw [Worker.passedTo, hstopped, if_neg Bool.false_ne_true]
    exact not_lt.mp fun h => hempty ⟨hw, h⟩

/-- While a command runs the host stores outside its regions (R82, R204). -/
theorem hostStore_outside_regions {a : BitVec 32} {b : Byte} {s t : State} (hrun : s.orch.phase ≠ .idle)
    (h : hostStore a b s = .next t) : inInRgn s.regs a.toNat = false ∧ inOutRgn s.regs a.toNat = false := by
  unfold hostStore at h
  split at h
  · cases h
  · rename_i hallowed
    simp only [storeForbidden, hrun, ne_eq, not_false_eq_true, decide_true, Bool.true_and, Bool.or_eq_true, not_or,
      Bool.not_eq_true] at hallowed
    exact hallowed.1

/-- A byte outside the regions of the running command leaves its memory right (R82). -/
theorem State.KeepsOutput.writeByte {s : State} (hi : Inv s) {a : Nat} (b : Byte) (hin : inInRgn s.regs a = false)
    (hout : inOutRgn s.regs a = false) : s.KeepsOutput (s.mem.write a b) := by
  have hread (a' : Nat) (hne : a' ≠ a) : (s.mem.write a b).read a' = s.mem.read a' := by
    rw [Memory.read_write a a' b hi.memWf, if_neg hne]
  refine ⟨fun a' ha' => hread a' fun h => by simp [h, hin] at ha', fun c i hc hslot => .inl ?_⟩
  refine Memory.read32_congr fun j hj => hread _ fun h => ?_
  have hlo := outBase_le_outAddr s.regs c i
  have hhi := outAddr_le hc hslot
  exact absurd ⟨by omega, by omega⟩ (of_decide_eq_false hout)

section parts
variable {s : State} (hi : Inv s) (ho : OutputInv s)
include hi ho

theorem outputInv_microStep {w : WorkerId} {t : State} (h : microStep w s = .next t) : OutputInv t := by
  by_cases hon : microEnabled s w = true
  case neg =>
    rw [microStep_disabled hon] at h
    cases h
    exact ho
  have ha := active_of_microEnabled hon
  cases hp : (s.worker w).phase with
  | hchk ch => exact outputInv_hdrCheck hi ho ha hp (microStep_hchk hon hp ▸ h)
  | hwr ch => exact outputInv_hdrWrite hi ho ha hp (microStep_hwr hon hp ▸ h)
  | body g ch b half =>
    obtain hbody | rfl := microStep_body_next hon hp h
    · obtain ⟨-, hphase, -⟩ := hi.activeOk w ha
      rw [hp] at hphase
      obtain ⟨-, -, hb, hh⟩ := hphase
      exact outputInv_bodySample hi ho ha hp (nibbleAt_body s.mem s.regs _ g ch hb hh).symm hbody
    · exact outputInv_microFailed hi ho .none _

/-! #### The orchestrator (R191, R192) -/

/-- A fill write has the slot at the cursor 0, and moves the cursor past it (R191). -/
theorem outputInv_fillWrite {t : State} (hphase : s.orch.phase = .fill) (hpending : fillPending s = true)
    (h : fillWrite s = .next t) : OutputInv t := by
  have hstopped := hi.quiet (.inr hphase)
  obtain ⟨hin, rfl⟩ | rfl := fillWrite_next h
  case inr => exact outputInv_raiseError hi none _ fun v _ ha => absurd ha (by simp [hstopped v])
  have hrun : s.orch.phase ≠ .idle := by simp [hphase]
  obtain ⟨hkind, hlo, -⟩ := hi.fillOk hphase
  obtain ⟨hch, hhi⟩ : s.orch.fillCh < s.regs.c ∧ s.orch.fillI < totalSamples s.regs := of_decide_eq_true hpending
  obtain ⟨-, -, -, -, -, hlen, -⟩ := checkConfig_none.mp (hi.accepted hrun)
  have hkeeps := State.KeepsOutput.write hi hrun hch (hlen hkind ▸ hhi) (successWord_tail hkind s.orch.fillCh hlo hhi)
  have hread := Memory.read32_write32 0 hin hi.memWf
  have hom := ho.setMem hi hrun hkeeps
  have hnext : (advanceFill s.regs s.orch).phase = .fill := (advanceFill_phase _ _).trans hphase
  exact {
    progress := fun v ha => absurd ha (by simp [hstopped v])
    tail := fun _ _ c i hc hlo' hhi' hcur => by
      obtain hold | ⟨rfl, rfl⟩ := beforeFill_advanceFill (hcur hnext) hlo' hhi'
      · exact hom.tail hkind (.inl hphase) c i hc hlo' hhi' fun _ => hold
      · exact hread
    blocks := fun _ h => absurd h (by simp [hnext])
    single := fun _ h => absurd h (by simp [hnext]) }

/-- DISPATCH starts every worker at its first block; a worker with an empty range has passed it (R192). -/
theorem outputInv_dispatch (hphase : s.orch.phase = .fill) (hdone : fillPending s = false) : OutputInv (dispatch s) := by
  obtain ⟨hkind, -, htail⟩ := hi.fillOk hphase
  have hstopped := hi.quiet (.inr hphase)
  have hfilled : ¬(s.orch.fillCh < s.regs.c ∧ s.orch.fillI < totalSamples s.regs) := of_decide_eq_false hdone
  have hworker (v : WorkerId) : (dispatch s).worker v = dispatchWorker s.regs s.orch.w.toNat v.num (s.worker v) := by
    simp [dispatch]
  refine ⟨fun v ha => ?_, fun _ _ c i hc hlo hhi _ => ?_, fun _ _ v k hlo hw hhi => ?_,
    fun h => absurd (hkind.symm.trans h) (by decide)⟩
  · rw [hworker] at ha ⊢
    exact Worker.progress_start (dispatchWorker_started (hstopped v) ha) _ _
  · have hc' : c < s.regs.c := hc
    have hlo' : blockCount s.regs * spb s.regs ≤ i := hlo
    have hhi' : i < totalSamples s.regs := hhi
    exact ho.tail hkind (.inl hphase) c i hc hlo hhi fun _ => .inl (by omega)
  · rw [hworker] at hhi
    have hpassed := dispatchWorker_passedTo_le (r := s.regs) (hstopped v) hw
    exact absurd (lt_of_lt_of_le hhi hpassed) (not_lt.mpr hlo)

theorem outputInv_orchStep {t : State} (h : orchStep s = .next t) : OutputInv t := by
  have hit := inv_orchStep hi h
  obtain rfl | ⟨hphase, hpending, hf⟩ | ⟨hphase, hdone, rfl⟩ | ⟨-, -, -, rfl⟩ | ⟨-, -, rfl⟩ := orchStep_next h
  · exact ho
  · exact outputInv_fillWrite hi ho hphase hpending hf
  · exact outputInv_dispatch hi ho hphase hdone
  · exact outputInv_of_idle hit rfl
  · exact outputInv_of_idle hit rfl

omit hi in
theorem outputInv_haltStep (w : WorkerId) : OutputInv (haltStep w s) := by
  unfold haltStep
  split
  · rename_i hon
    simp only [haltEnabled, Bool.and_eq_true, decide_eq_true_eq] at hon
    refine outputInv_of_drain hon.2 fun v => ?_
    rw [State.worker_haltWorker]
    split
    · exact fun h => absurd h Bool.false_ne_true
    · exact ho.progress v
  · exact ho

theorem outputInv_agentStep {a : AgentMove} {t : State} (h : agentStep a s = .next t) : OutputInv t := by
  cases a with
  | orch => exact outputInv_orchStep hi ho h
  | micro w => exact outputInv_microStep hi ho h
  | halt w => cases h; exact outputInv_haltStep ho w

/-! #### The host -/

/-- While BUSY a register write changes no configuration register (R51). -/
theorem outputInv_writeReg (r : Reg) (v : Word) : OutputInv (writeReg s r v) := by
  by_cases hb : s.regs.status.busy = true
  · obtain ⟨-, hconfig⟩ := writeReg_sameConfig hb r v
    unfold writeReg at hconfig ⊢
    split at hconfig
    · rw [if_pos ‹_›]; exact ho
    · rw [if_neg ‹_›]; exact ho.setRegs hconfig
  · refine outputInv_of_idle (inv_writeReg hi r v) ?_
    unfold writeReg
    split <;> exact hi.idle_of_not_busy hb

/-- A host store changes no output of a running command, whose regions it has no move into (R82). -/
theorem outputInv_hostStore {a : BitVec 32} {b : Byte} {t : State} (h : hostStore a b s = .next t) : OutputInv t := by
  have hit := inv_hostStore hi h
  obtain ⟨-, rfl⟩ | ⟨hidle, -, as, r, -, -, rfl⟩ := hostStore_next h
  · by_cases hrun : s.orch.phase = .idle
    · exact outputInv_of_idle hit hrun
    · obtain ⟨hin, hout⟩ := hostStore_outside_regions hrun h
      exact { ho.setMem hi hrun (State.KeepsOutput.writeByte hi b hin hout) with }
  · exact outputInv_of_idle hit hidle

omit ho in
/-- An accepted DECODE has no tail slot to answer for yet (R222). -/
theorem outputInv_acceptDecode {w : Nat} (hidle : s.orch.phase = .idle) : OutputInv (acceptDecode w s) where
  progress := fun v ha => absurd ha (by simp [acceptDecode, hi.quiet (.inl hidle) v])
  tail := fun _ _ c i _ hlo _ hcur => by
    obtain hlt | ⟨-, hlt⟩ := hcur rfl
    · exact absurd hlt (Nat.not_lt_zero c)
    · exact absurd hlo hlt.not_ge
  blocks := fun _ h => absurd h (by simp [acceptDecode])
  single := fun _ h => absurd h (by simp [acceptDecode])

omit ho in
/-- An accepted DECODE_BLOCK has its worker at the start of the block (R223). -/
theorem outputInv_acceptDecodeBlock (hidle : s.orch.phase = .idle) : OutputInv (acceptDecodeBlock s) := by
  have hstarted : ((acceptDecodeBlock s).worker .w0).active = true ∧
      ((acceptDecodeBlock s).worker .w0).phase = .hchk 0 := by simp [acceptDecodeBlock]
  have hother (v : WorkerId) (hv : v ≠ .w0) : ((acceptDecodeBlock s).worker v).active = false := by
    simp [acceptDecodeBlock, hv, hi.quiet (.inl hidle) v]
  refine ⟨fun v ha => ?_, fun h => absurd h (by simp [acceptDecodeBlock]),
    fun h => absurd h (by simp [acceptDecodeBlock]), fun _ _ h => absurd (hstarted.1.symm.trans h) (by decide)⟩
  by_cases hv : v = .w0
  · subst v
    exact Worker.progress_start hstarted.2 _ _
  · exact absurd ha (by simp [hother v hv])

theorem outputInv_command {cw : Word} {t : State} (h : CommandCase cw s t) : OutputInv t := by
  have hit := inv_command hi h
  cases h with
  | nothing => exact ho
  | dropped _ => exact ho.setRegs rfl
  | rejected hidle e => exact outputInv_of_idle hit hidle
  | acceptedDecode hidle workers _ _ _ => exact outputInv_acceptDecode (inv_startClear hi hidle) hidle
  | acceptedDecodeBlock hidle _ _ => exact outputInv_acceptDecodeBlock (inv_startClear hi hidle) hidle
  | aborted hrun => exact outputInv_raiseError hi none _ fun v _ => ho.progress v
  | cleared hidle => exact outputInv_of_idle hit hidle
  | softReset _ => exact outputInv_of_idle hit rfl

end parts

/-- Settles O55, by cases on what the step does: each operation keeps what a running command has written right. -/
theorem everyStepKeepsTheOutputRight : Obligations.EveryStepKeepsTheOutputRight := by
  unfold Obligations.EveryStepKeepsTheOutputRight
  intro s t hi ho h
  have hrest (rest : List Move) : Inv { s with moves := rest } := hi.sameBlock (.ofFields s rest _ _)
  have horest (rest : List Move) : OutputInv { s with moves := rest } := ho.sameBlock (.ofFields s rest _ _)
  cases step_case h with
  | powerOn rest _ ht => exact ht ▸ outputInv_of_idle (inv_resetBlock (hrest rest)) rfl
  | store rest a b _ ht => exact outputInv_hostStore (hrest rest) (horest rest) ht
  | command rest cw _ ht => exact outputInv_command (hrest rest) (horest rest) ht
  | register rest r v _ _ ht => exact ht ▸ outputInv_writeReg (hrest rest) (horest rest) r v
  | quiet ht => exact ho.sameBlock ht
  | agent u a hu ht => exact outputInv_agentStep (hi.sameBlock hu) (ho.sameBlock hu) ht

end Sys2Proof.Machine

/-! ### PROOFS. A block whole: the order of its micro-operations, its slots, and the block function (41_block_decoder.md
R130, R139 to R143, R205) -/

namespace Sys2Proof.Machine

/-- Every micro-operation of a block comes before the block's end (R130, R205). -/
theorem CursorPhase.rank_lt {c chunks : Nat} {ph : CursorPhase} (hok : ph.ok c chunks) :
    ph.rank c < c * (2 + 8 * chunks) := by
  have htotal : c * (2 + 8 * chunks) = 2 * c + 8 * (c * chunks) := by ring
  cases ph with
  | hchk ch =>
    have hch : ch < c := hok
    simp only [rank]
    omega
  | hwr ch =>
    have hch : ch < c := hok
    simp only [rank]
    omega
  | body g ch b half =>
    obtain ⟨hg, hch, hb, hh⟩ := hok
    have hrow : c * (g + 1) ≤ c * chunks := Nat.mul_le_mul_left c hg
    rw [Nat.mul_add_one] at hrow
    simp only [rank]
    omega

/-- The successor comes next in the order (R130). -/
theorem nextPhase_rank {c chunks : Nat} {ph ph' : CursorPhase} (hok : ph.ok c chunks)
    (h : nextPhase c chunks ph = some ph') : ph'.rank c = ph.rank c + 1 := by
  cases ph with
  | hchk ch =>
    have hch : ch < c := hok
    cases h
    split
    · rfl
    · simp only [CursorPhase.rank]
      omega
  | hwr ch =>
    have hch : ch < c := hok
    simp only [nextPhase] at h
    split_ifs at h <;> cases h <;> simp only [CursorPhase.rank] <;> omega
  | body g ch b half =>
    obtain ⟨-, hch, hb, hh⟩ := hok
    have hrow : c * (g + 1) = c * g + c := Nat.mul_add_one c g
    simp only [nextPhase] at h
    split_ifs at h <;> cases h <;> simp only [CursorPhase.rank] <;> omega

/-- A phase without successor is the last of the order (R130, R205). -/
theorem nextPhase_none_rank {c chunks : Nat} {ph : CursorPhase} (hok : ph.ok c chunks) (h : nextPhase c chunks ph = none) :
    ph.rank c + 1 = c * (2 + 8 * chunks) := by
  have htotal : c * (2 + 8 * chunks) = 2 * c + 8 * (c * chunks) := by ring
  cases ph with
  | hchk ch => cases h
  | hwr ch =>
    have hch : ch < c := hok
    simp only [nextPhase] at h
    split_ifs at h with _ hnone
    obtain rfl : chunks = 0 := by omega
    simp only [CursorPhase.rank]
    omega
  | body g ch b half =>
    obtain ⟨hg, hch, hb, hh⟩ := hok
    simp only [nextPhase] at h
    split_ifs at h
    obtain rfl : chunks = g + 1 := by omega
    have hrow : c * (g + 1) = c * g + c := Nat.mul_add_one c g
    simp only [CursorPhase.rank]
    omega

/-- Settles O37: the successor comes next in the order, which ends with the last micro-operation of the block. -/
theorem microOperationsGoInOrder : Obligations.MicroOperationsGoInOrder := by
  unfold Obligations.MicroOperationsGoInOrder
  intro c chunks ph hc hok
  refine ⟨CursorPhase.rank_lt hok, fun ph' h => ⟨nextPhase_ok hc hok h, nextPhase_rank hok h⟩,
    nextPhase_none_rank hok, fun hlast => ?_⟩
  cases h : nextPhase c chunks ph with
  | none => rfl
  | some ph' =>
    have hlt := CursorPhase.rank_lt (nextPhase_ok hc hok h)
    rw [nextPhase_rank hok h, hlast] at hlt
    exact absurd hlt (lt_irrefl _)

/-- Settles O38: group, byte and half are the digits of a slot's distance from the header's. -/
theorem slotsOfABlockAreWrittenOnce : Obligations.SlotsOfABlockAreWrittenOnce := by
  unfold Obligations.SlotsOfABlockAreWrittenOnce
  intro chunks obase i hlo hhi
  unfold bodySlot
  exact ⟨(i - obase - 1) / 8, (i - obase - 1) % 8 / 2, (i - obase - 1) % 2, by omega, by omega⟩

/-- A block whose channels all have valid headers decodes (R141). -/
theorem blockFault_none {m : Memory} {r : Regs} {k : Nat} (h : ∀ c, c < r.c → headerFault m r k c = none) :
    blockFault m r k = none := by
  rw [blockFault, List.findSome?_eq_none_iff]
  intro c hc
  rw [h c (List.mem_range.mp hc), Option.map_none]

/-- A block written whole is what the block function gives, word by word (R140, R141). -/
theorem decodeBlock_of_blockWritten {m : Memory} {r : Regs} {k obase : Nat} (h : blockWritten m r k obase) :
    decodeBlock m r k =
      .ok ((List.range r.c).map fun c => (List.range (spb r)).map fun i => slotWord m r c (obase + i)) := by
  rw [decodeBlock, blockFault_none fun c hc => (h c hc).1]
  refine congrArg Except.ok (List.map_congr_left fun c hc => List.map_congr_left fun i hi => ?_)
  exact ((h c (List.mem_range.mp hc)).2 i (List.mem_range.mp hi)).symm

/-- Settles O57: the block of a DECODE_BLOCK whose worker has stopped is written whole. -/
theorem joinedDecodeBlockHasWrittenItsBlock : Obligations.JoinedDecodeBlockHasWrittenItsBlock := by
  unfold Obligations.JoinedDecodeBlockHasWrittenItsBlock
  intro s _ ho hrun hkind hstopped
  exact decodeBlock_of_blockWritten (ho.single hkind hrun hstopped)

end Sys2Proof.Machine

/-! ### PROOFS. The update pipeline NIBBLE_STEP on exact numbers (41_block_decoder.md R133 to R136) -/

namespace Sys2Proof.Machine

/-- A bit of a nibble code as arithmetic on its number. -/
theorem getLsbD_eq_decide (n : BitVec 4) (i : Nat) : n.getLsbD i = decide (n.toNat / 2 ^ i % 2 = 1) :=
  Nat.testBit_eq_decide_div_mod_eq

/-- The magnitude of the delta: each term shifted separately, selected by a bit of the code (R133). -/
theorem nibbleMag_eq (n : BitVec 4) (step : Nat) :
    (nibbleMag n step : Int) = step / 8 + (if n.toNat % 2 = 1 then (step : Int) / 4 else 0) +
      (if n.toNat / 2 % 2 = 1 then (step : Int) / 2 else 0) + (if n.toNat / 4 % 2 = 1 then (step : Int) else 0) := by
  simp only [nibbleMag, getLsbD_eq_decide, decide_eq_true_eq]
  norm_num

/-- Bit 3 of a code, its sign, is set from 8 on (R110). -/
theorem nibbleDelta_eq (n : BitVec 4) (step : Nat) :
    nibbleDelta n step = if 8 ≤ n.toNat then -(nibbleMag n step : Int) else (nibbleMag n step : Int) := by
  have hsign : n.getLsbD 3 = decide (8 ≤ n.toNat) := by
    rw [getLsbD_eq_decide]
    exact decide_eq_decide.mpr (by omega)
  simp only [nibbleDelta, hsign, decide_eq_true_eq]

theorem nibbleStep_pred (n : BitVec 4) (c : Chan) :
    (nibbleStep n c).pred.toInt =
      max (-32768) (min 32767 (c.pred.toInt + nibbleDelta n (Config.stepAt c.idx.toNat))) := by
  have hclamp : nextPred n c.pred.toInt (Config.stepAt c.idx.toNat) =
      max (-32768) (min 32767 (c.pred.toInt + nibbleDelta n (Config.stepAt c.idx.toNat))) := by
    unfold nextPred clampInt
    omega
  rw [nibbleStep, BitVec.toInt_ofInt_eq_self (by decide) (by omega) (by omega), hclamp]

theorem nibbleStep_idx (n : BitVec 4) (c : Chan) :
    ((nibbleStep n c).idx.toNat : Int) = max 0 (min 88 ((c.idx.toNat : Int) + Config.indexAt n)) := by
  have hclamp : nextIdx n c.idx.toNat = max 0 (min 88 ((c.idx.toNat : Int) + Config.indexAt n)) := by
    unfold nextIdx clampInt
    omega
  simp only [nibbleStep, BitVec.toNat_ofInt, hclamp]
  omega

theorem stepAt_eq {i step : Nat} (h : Config.stepTable[i]? = some step) : Config.stepAt i = step := by
  rw [Config.stepAt, h]

/-- Settles O23: the two clamps, with the step read before the index moves. -/
theorem nibbleStepIsTheRule : Obligations.NibbleStepIsTheRule := by
  unfold Obligations.NibbleStepIsTheRule
  intro n c hidx
  have hlt : c.idx.toNat < Config.stepTable.length := Nat.lt_succ_of_le hidx
  have hstep : Config.stepTable[c.idx.toNat]? = some Config.stepTable[c.idx.toNat] := List.getElem?_eq_getElem hlt
  refine ⟨_, hstep, ?_, nibbleStep_idx n c⟩
  rw [nibbleStep_pred, stepAt_eq hstep, nibbleDelta_eq, nibbleMag_eq]

theorem stepTable_range {i step : Nat} (h : Config.stepTable[i]? = some step) : i ≤ 88 ∧ 7 ≤ step ∧ step ≤ 32767 := by
  have hall : ∀ v ∈ Config.stepTable, 7 ≤ v ∧ v ≤ 32767 := by decide
  obtain ⟨hlt, -⟩ := List.getElem?_eq_some_iff.mp h
  exact ⟨Nat.le_of_lt_succ hlt, hall step (List.mem_of_getElem? h)⟩

theorem indexAt_range : ∀ n : BitVec 4, -1 ≤ Config.indexAt n ∧ Config.indexAt n ≤ 8 := by decide

/-- The delta of the largest step is the sum of its four terms (R134). -/
theorem nibbleMag_le (n : BitVec 4) {step : Nat} (h : step ≤ 32767) : nibbleMag n step ≤ 61436 := by
  unfold nibbleMag
  split_ifs <;> omega

/-- Settles O25: the ranges of the tables bound the sums. -/
theorem updateDatapathWidths : Obligations.UpdateDatapathWidths := by
  unfold Obligations.UpdateDatapathWidths
  intro n pred i step h
  obtain ⟨hi, hlo, hhi⟩ := stepTable_range h
  obtain ⟨hidxlo, hidxhi⟩ := indexAt_range n
  have hmag := nibbleMag_le n hhi
  have hdelta : -61436 ≤ nibbleDelta n step ∧ nibbleDelta n step ≤ 61436 := by
    rw [nibbleDelta_eq]
    split_ifs <;> omega
  have hpredlo := pred.le_toInt
  have hpredhi := pred.toInt_lt
  exact ⟨hi, hlo, hhi, hdelta.2, hdelta.1, by omega, by omega, by omega, by omega⟩

end Sys2Proof.Machine

/-! ### PROOFS. The sample normalization engine (41_block_decoder.md R137; 30_encoding.md R111) -/

namespace Sys2Proof.Machine

/-- Settles O29, by evaluating the engine. -/
theorem normHasTheListedValues : Obligations.NormHasTheListedValues := by
  unfold Obligations.NormHasTheListedValues
  decide

/-! #### The significand of a magnitude -/

/-- The shift gives the quotient a significand of 24 bits, when some shift within the fuel does. -/
theorem normShift_spec {a fuel k : Nat} (hlo : a * 2 ^ k < 32767 * 2 ^ 24) (hhi : 32767 * 2 ^ 23 ≤ a * 2 ^ (k + fuel)) :
    32767 * 2 ^ 23 ≤ a * 2 ^ normShift a fuel k ∧ a * 2 ^ normShift a fuel k < 32767 * 2 ^ 24 ∧
    k ≤ normShift a fuel k ∧ normShift a fuel k ≤ k + fuel := by
  induction fuel generalizing k with
  | zero => exact ⟨hhi, hlo, le_rfl, le_rfl⟩
  | succ fuel ih =>
    rw [normShift]
    split
    · exact ⟨‹_›, hlo, le_rfl, Nat.le_add_right _ _⟩
    · have hnext : a * 2 ^ (k + 1) < 32767 * 2 ^ 24 := by rw [pow_succ, ← mul_assoc]; omega
      obtain ⟨h1, h2, h3, h4⟩ := ih hnext (by rwa [Nat.add_right_comm])
      exact ⟨h1, h2, by omega, by omega⟩

/-- The shift of a magnitude of a sample (R137). -/
theorem normShift_sample {a : Nat} (ha : 1 ≤ a) (ha' : a ≤ 32768) :
    32767 * 2 ^ 23 ≤ a * 2 ^ normShift a 15 23 ∧ a * 2 ^ normShift a 15 23 < 32767 * 2 ^ 24 ∧
    23 ≤ normShift a 15 23 ∧ normShift a 15 23 ≤ 38 :=
  normShift_spec (by omega) (by omega)

/-- Rounding a quotient by an odd number is off by less than a half: there is no tie. -/
theorem roundEven_near (n : Nat) :
    2 * (32767 * (roundEven n 32767 : Int) - n) < 32767 ∧ -32767 < 2 * (32767 * (roundEven n 32767 : Int) - n) := by
  unfold roundEven
  split_ifs <;> omega

/-- The significand of a sample's magnitude, in units of its last place. -/
def normSig (a : Nat) : Nat := roundEven (a * 2 ^ normShift a 15 23) 32767

theorem normSig_range {a : Nat} (ha : 1 ≤ a) (ha' : a ≤ 32768) : 2 ^ 23 ≤ normSig a ∧ normSig a ≤ 2 ^ 24 := by
  obtain ⟨hlo, hhi, -⟩ := normShift_sample ha ha'
  obtain ⟨h1, h2⟩ := roundEven_near (a * 2 ^ normShift a 15 23)
  unfold normSig
  omega

theorem normMag_eq (a : Nat) : normMag a = (150 - normShift a 15 23) * 2 ^ 23 + (normSig a - 2 ^ 23) := rfl

/-- No sample's magnitude is above 2.0. -/
theorem normMag_le {a : Nat} (ha : 1 ≤ a) (ha' : a ≤ 32768) : normMag a ≤ 2 ^ 30 := by
  obtain ⟨-, -, hk, -⟩ := normShift_sample ha ha'
  obtain ⟨-, hs⟩ := normSig_range ha ha'
  rw [normMag_eq]
  omega

/-! #### The word -/

theorem natAbs_toInt_range {p : BitVec 16} (hp : p ≠ 0) : 1 ≤ p.toInt.natAbs ∧ p.toInt.natAbs ≤ 32768 := by
  have hne : p.toInt ≠ 0 := fun h => hp (BitVec.toInt_inj.mp h)
  have hlo := p.le_toInt
  have hhi := p.toInt_lt
  omega

/-- The word of a sample that is not 0: the sign in bit 31, the magnitude below. -/
theorem normWord_toNat {p : BitVec 16} (hp : p ≠ 0) :
    (normWord p).toNat = (if p.toInt < 0 then 2 ^ 31 else 0) + normMag p.toInt.natAbs := by
  obtain ⟨h1, h2⟩ := natAbs_toInt_range hp
  have hle := normMag_le h1 h2
  rw [normWord, if_neg hp, BitVec.toNat_ofNat]
  split_ifs <;> omega

theorem getLsbD_31 (u : Word) : u.getLsbD 31 = decide (2 ^ 31 ≤ u.toNat) := by
  have h := BitVec.msb_eq_decide u
  rwa [BitVec.msb_eq_getLsbD_last] at h

/-- Settles O28: negation changes the sign and keeps the magnitude. -/
theorem normIsSymmetric : Obligations.NormIsSymmetric := by
  unfold Obligations.NormIsSymmetric
  intro p hp
  have hne : p ≠ 0 := by rintro rfl; exact absurd hp (by decide)
  obtain ⟨h1, h2⟩ := natAbs_toInt_range hne
  have hle := normMag_le h1 h2
  have hmin : p ≠ BitVec.intMin 16 := by rintro rfl; exact absurd hp (by decide)
  have hneg : (-p).toInt = -p.toInt := BitVec.toInt_neg_of_ne_intMin hmin
  have hne' : -p ≠ 0 := by simpa using hne
  have hpos := normWord_toNat hne
  rw [if_neg (by omega), Nat.zero_add] at hpos
  constructor
  · apply BitVec.eq_of_toNat_eq
    rw [normWord_toNat hne', hneg, if_pos (by omega), Int.natAbs_neg, BitVec.toNat_or, hpos]
    have hor := Nat.two_pow_add_eq_or_of_lt (i := 31) (b := normMag p.toInt.natAbs) (by omega) 1
    rw [Nat.mul_one] at hor
    rw [hor, Nat.or_comm]
    rfl
  · rw [getLsbD_31, hpos]
    exact decide_eq_false (by omega)

/-! #### What a binary32 word is worth (R111) -/

/-- The magnitude of the value of a binary32 word of number `n`, in units of 2^-149. -/
def f32Mag (n : Nat) : Nat :=
  if n / 2 ^ 23 % 256 = 0 then n % 2 ^ 23 else (2 ^ 23 + n % 2 ^ 23) * 2 ^ (n / 2 ^ 23 % 256 - 1)

theorem f32Scaled_eq (u : Word) : f32Scaled u = (if u.getLsbD 31 then -1 else 1) * (f32Mag u.toNat : Int) := rfl

theorem f32Mag_sign (n : Nat) : f32Mag (2 ^ 31 + n) = f32Mag n := by
  have hexp : (2 ^ 31 + n) / 2 ^ 23 % 256 = n / 2 ^ 23 % 256 := by omega
  have hfrac : (2 ^ 31 + n) % 2 ^ 23 = n % 2 ^ 23 := by omega
  rw [f32Mag, hexp, hfrac, f32Mag]

/-- A fraction that rounds up to 2^23 carries into the exponent. -/
theorem f32Mag_carry {e f : Nat} (he : 1 ≤ e) (he' : e ≤ 254) (hf : f ≤ 2 ^ 23) :
    f32Mag (e * 2 ^ 23 + f) = (2 ^ 23 + f) * 2 ^ (e - 1) := by
  obtain hlt | rfl := Nat.lt_or_eq_of_le hf
  · have hexp : (e * 2 ^ 23 + f) / 2 ^ 23 % 256 = e := by omega
    have hfrac : (e * 2 ^ 23 + f) % 2 ^ 23 = f := by omega
    rw [f32Mag, hexp, hfrac, if_neg (by omega)]
  · have hexp : (e * 2 ^ 23 + 2 ^ 23) / 2 ^ 23 % 256 = e + 1 := by omega
    have hfrac : (e * 2 ^ 23 + 2 ^ 23) % 2 ^ 23 = 0 := by omega
    obtain ⟨e, rfl⟩ := Nat.exists_eq_add_of_le' he
    rw [f32Mag, hexp, hfrac, if_neg (by omega), Nat.add_sub_cancel, Nat.add_sub_cancel, pow_succ 2 e]
    ring

/-- Every value is a multiple of a power of two or below the words whose last place is that power. -/
theorem f32Mag_grid (n j : Nat) : 2 ^ j ∣ f32Mag n ∨ f32Mag n < 2 ^ 23 * 2 ^ j := by
  have hfrac : n % 2 ^ 23 < 2 ^ 23 := Nat.mod_lt _ (by decide)
  unfold f32Mag
  split
  · exact .inr (hfrac.trans_le (Nat.le_mul_of_pos_right _ (Nat.two_pow_pos j)))
  · generalize n / 2 ^ 23 % 256 = e at *
    by_cases hj : j ≤ e - 1
    · exact .inl ((Nat.pow_dvd_pow 2 hj).mul_left _)
    · right
      obtain ⟨e, rfl⟩ := Nat.exists_eq_add_one_of_ne_zero ‹e ≠ 0›
      have hpow : 2 ^ (e + 1) ≤ 2 ^ j := Nat.pow_le_pow_right (by decide) (by omega)
      calc (2 ^ 23 + n % 2 ^ 23) * 2 ^ e < (2 ^ 23 * 2) * 2 ^ e := by gcongr; omega
        _ = 2 ^ 23 * 2 ^ (e + 1) := by ring
        _ ≤ 2 ^ 23 * 2 ^ j := Nat.mul_le_mul_left _ hpow

/-- The value of a sample's word: its significand at its last place, 2^(149 - k) units (R137). -/
theorem f32Mag_normMag {a : Nat} (ha : 1 ≤ a) (ha' : a ≤ 32768) :
    f32Mag (normMag a) = normSig a * 2 ^ (149 - normShift a 15 23) := by
  obtain ⟨-, -, hk, hk'⟩ := normShift_sample ha ha'
  obtain ⟨hs, hs'⟩ := normSig_range ha ha'
  have hexp : 150 - normShift a 15 23 - 1 = 149 - normShift a 15 23 := by omega
  rw [normMag_eq, f32Mag_carry (by omega) (by omega) (by omega), Nat.add_sub_cancel' hs, hexp]

/-! #### The nearest value -/

/-- Of the values on a grid of step `d` and those below 2^23 steps, the rounded one is the strictly nearest to `t` steps. -/
theorem nearest_on_grid {d t m v : Int} (hd : 0 < d) (ht : 2 ^ 23 * 32767 ≤ t) (hm : 2 ^ 23 ≤ m)
    (hround : 2 * (32767 * m - t) < 32767 ∧ -32767 < 2 * (32767 * m - t)) (hne : v ≠ m * d)
    (hv : d ∣ v ∨ v < 2 ^ 23 * d) : (32767 * (m * d) - t * d).natAbs < (32767 * v - t * d).natAbs := by
  have hdist : 32767 * (m * d) - t * d = (32767 * m - t) * d := by ring
  rw [hdist, Int.natAbs_mul]
  obtain ⟨n, rfl⟩ | hlt := hv
  · have hn : n ≠ m := by rintro rfl; exact hne (mul_comm _ _)
    have hdist' : 32767 * (d * n) - t * d = (32767 * n - t) * d := by ring
    rw [hdist', Int.natAbs_mul]
    exact Nat.mul_lt_mul_of_pos_right (by omega) (by omega)
  · have hnear : |32767 * m - t| ≤ t - 2 ^ 23 * 32767 := by rw [abs_le]; omega
    zify
    calc |32767 * m - t| * |d| = |32767 * m - t| * d := by rw [abs_of_pos hd]
      _ ≤ (t - 2 ^ 23 * 32767) * d := mul_le_mul_of_nonneg_right hnear hd.le
      _ = t * d - 32767 * (2 ^ 23 * d) := by ring
      _ < t * d - 32767 * v := by omega
      _ ≤ |32767 * v - t * d| := by rw [abs_sub_comm]; exact le_abs_self _

/-- The sign of a sample. -/
def sampleSign (p : BitVec 16) : Int := if p.toInt < 0 then -1 else 1

theorem natAbs_sampleSign (p : BitVec 16) : (sampleSign p).natAbs = 1 := by
  unfold sampleSign
  split <;> rfl

theorem natAbs_toInt_eq (p : BitVec 16) : (p.toInt.natAbs : Int) = sampleSign p * p.toInt := by
  unfold sampleSign
  split <;> omega

/-- The value of a sample's word (R137). -/
theorem f32Scaled_normWord {p : BitVec 16} (hp : p ≠ 0) :
    f32Scaled (normWord p) =
      sampleSign p * ((normSig p.toInt.natAbs : Int) * ((2 ^ (149 - normShift p.toInt.natAbs 15 23) : Nat) : Int)) := by
  obtain ⟨h1, h2⟩ := natAbs_toInt_range hp
  have hle := normMag_le h1 h2
  have hword := normWord_toNat hp
  rw [f32Scaled_eq, getLsbD_31, hword, sampleSign]
  by_cases hneg : p.toInt < 0
  · rw [if_pos hneg, if_pos hneg, if_pos (decide_eq_true (by omega)), f32Mag_sign, f32Mag_normMag h1 h2]
    push_cast
    ring
  · rw [if_neg hneg, if_neg hneg, Nat.zero_add, if_neg (by simp; omega), f32Mag_normMag h1 h2]
    push_cast
    ring

/-- The distance of a word from a sample, measured on the sample's side of zero. -/
theorem f32Dist_eq (p : BitVec 16) (u : Word) :
    f32Dist p u = (32767 * (sampleSign p * f32Scaled u) - (p.toInt.natAbs : Int) * 2 ^ 149).natAbs := by
  have hside : 32767 * (sampleSign p * f32Scaled u) - sampleSign p * p.toInt * 2 ^ 149 =
      sampleSign p * (32767 * f32Scaled u - p.toInt * 2 ^ 149) := by ring
  rw [natAbs_toInt_eq, hside, Int.natAbs_mul, natAbs_sampleSign, Nat.one_mul, f32Dist]

theorem normWord_finite {p : BitVec 16} (hp : p ≠ 0) : f32Finite (normWord p) := by
  obtain ⟨h1, h2⟩ := natAbs_toInt_range hp
  have hle := normMag_le h1 h2
  rw [f32Finite, normWord_toNat hp]
  split_ifs <;> omega

/-- A value seen from a sample's side of zero is on a grid of powers of two, or below the words of that grid. -/
theorem sampleSign_mul_f32Scaled_grid (p : BitVec 16) (u : Word) (j : Nat) :
    ((2 ^ j : Nat) : Int) ∣ sampleSign p * f32Scaled u ∨ sampleSign p * f32Scaled u < 2 ^ 23 * ((2 ^ j : Nat) : Int) := by
  rw [f32Scaled_eq]
  obtain hdvd | hlt := f32Mag_grid u.toNat j
  · exact .inl (((Int.natCast_dvd_natCast.mpr hdvd).mul_left _).mul_left _)
  · right
    unfold sampleSign
    zify at hlt
    split_ifs <;> push_cast <;> omega

/-- The word of a sample that is not 0 is nearer to it than every word of another value. -/
theorem normWord_nearest {p : BitVec 16} (hp : p ≠ 0) {u : Word} (hne : f32Scaled u ≠ f32Scaled (normWord p)) :
    f32Dist p (normWord p) < f32Dist p u := by
  obtain ⟨h1, h2⟩ := natAbs_toInt_range hp
  obtain ⟨hlo, -, -, hk⟩ := normShift_sample h1 h2
  obtain ⟨hs, -⟩ := normSig_range h1 h2
  have hround := roundEven_near (p.toInt.natAbs * 2 ^ normShift p.toInt.natAbs 15 23)
  have hsquare : sampleSign p * sampleSign p = 1 := by unfold sampleSign; split <;> rfl
  have hown : sampleSign p * f32Scaled (normWord p) =
      (normSig p.toInt.natAbs : Int) * ((2 ^ (149 - normShift p.toInt.natAbs 15 23) : Nat) : Int) := by
    rw [f32Scaled_normWord hp, ← mul_assoc, hsquare, one_mul]
  have htarget : (p.toInt.natAbs : Int) * 2 ^ 149 =
      ((p.toInt.natAbs * 2 ^ normShift p.toInt.natAbs 15 23 : Nat) : Int) *
        ((2 ^ (149 - normShift p.toInt.natAbs 15 23) : Nat) : Int) := by
    have hpow : 2 ^ 149 = 2 ^ normShift p.toInt.natAbs 15 23 * 2 ^ (149 - normShift p.toInt.natAbs 15 23) := by
      rw [← pow_add, Nat.add_sub_cancel' (by omega)]
    rw [← Int.natCast_mul, mul_assoc, ← hpow]
    norm_num
  have hother : sampleSign p * f32Scaled u ≠ sampleSign p * f32Scaled (normWord p) := fun h =>
    hne (mul_left_cancel₀ (left_ne_zero_of_mul_eq_one hsquare) h)
  rw [f32Dist_eq, f32Dist_eq, htarget]
  rw [hown] at hother ⊢
  exact nearest_on_grid (by positivity) (by omega) (by omega) hround hother (sampleSign_mul_f32Scaled_grid p u _)

/-- Settles O27: zero is exact, and every other sample is on the grid of its word. -/
theorem normIsTheNearest : Obligations.NormIsTheNearest := by
  unfold Obligations.NormIsTheNearest
  refine ⟨rfl, fun p => ?_⟩
  by_cases hp : p = 0
  · subst hp
    refine ⟨(by decide : (0 : Word).toNat / 2 ^ 23 % 256 ≠ 255), fun u _ hne => ?_⟩
    have hne : f32Scaled u ≠ 0 := hne
    have hzero : f32Dist 0 (normWord 0) = 0 := rfl
    have hdist : f32Dist 0 u = (32767 * f32Scaled u).natAbs := congrArg Int.natAbs (Int.sub_zero _)
    omega
  · exact ⟨normWord_finite hp, fun u _ => normWord_nearest hp⟩

end Sys2Proof.Machine

/-! ### PROOFS. The micro-operations as steps of the machine (41_block_decoder.md R131, R132, R138, R142; 43_orchestrator.md
R194, R196, R203) -/

namespace Sys2Proof.Machine

/-! #### The equations of the shared operations -/

/-- A sample write that is answered OK (R132, R138). -/
theorem writeSample_ok {w : WorkerId} {ch i : Nat} (word : Word) {s : State}
    (hin : outAddr s.regs ch i + 4 ≤ Memory.size) (hok : busOk s.params (outAddr s.regs ch i) .write = true) :
    writeSample w ch i word s = .next (advance w { s with mem := s.mem.write32 (outAddr s.regs ch i) word }) := by
  rw [writeSample, memWrite32_ok.mpr ⟨hin, hok, rfl⟩]

/-- A sample write that gets an error response (R271). -/
theorem writeSample_busError {w : WorkerId} {ch i : Nat} (word : Word) {s : State}
    (hin : outAddr s.regs ch i + 4 ≤ Memory.size) (hok : busOk s.params (outAddr s.regs ch i) .write = false) :
    writeSample w ch i word s = .next (raiseError (some w) (busErrorRec 2 ch (s.worker w).blk) s) := by
  have herr : memWrite32 s (outAddr s.regs ch i) word = .busError := by
    rw [memWrite32, if_neg hin.not_gt, hok, if_neg Bool.false_ne_true]
  rw [writeSample, herr]

theorem advanceWorker_eq_after (r : Regs) (wk : Worker) : advanceWorker r wk = wk.after r wk.cs := by
  unfold advanceWorker Worker.after
  cases nextPhase r.c (chunkCount r) wk.phase <;> rfl

/-- A worker moved on after a channel update (R130, R194). -/
theorem advanceWorker_setChan (r : Regs) (wk : Worker) (ch : Nat) (x : Chan) :
    advanceWorker r (wk.setChan ch x) = wk.after r (wk.cs.set ch x) := advanceWorker_eq_after _ _

theorem advance_setChan (w : WorkerId) (ch : Nat) (x : Chan) (s : State) :
    advance w (s.setWorker w ((s.worker w).setChan ch x)) =
      s.setWorker w ((s.worker w).after s.regs ((s.worker w).cs.set ch x)) := by
  rw [advance, State.worker_setWorker_same, State.setWorker_regs, advanceWorker_setChan]
  simp [State.setWorker]

/-- The cursor moved on after a nibble's channel update and its write (R138). -/
theorem advance_stepChan (w : WorkerId) (ch : Nat) (n : BitVec 4) (s : State) (m : Memory) :
    advance w { stepChan w ch n s with mem := m } =
      { s with
        mem := m
        workers := s.workers.set w
          ((s.worker w).after s.regs ((s.worker w).cs.set ch (nibbleStep n ((s.worker w).chan ch)))) } :=
  advance_setChan w ch _ { s with mem := m }

/-- What a raised error does to the registers and the orchestrator: the first one of a command is recorded and starts
DRAIN, a later one is not recorded (R196, R253). -/
theorem raiseError_effect (who : Option WorkerId) (e : ErrRec) (s : State) :
    (s.orch.latched = false →
      (raiseError who e s).regs = s.regs.withError e.ch e.byte e.sub e.code.bits e.blk ∧
      (raiseError who e s).orch = { s.orch with phase := .drain, latched := true }) ∧
    (s.orch.latched = true → (raiseError who e s).regs = s.regs ∧ (raiseError who e s).orch = s.orch) := by
  refine ⟨fun h => ?_, fun h => ?_⟩
  · rw [raiseError_first h]
    exact ⟨rfl, rfl⟩
  · rw [raiseError_latched h]
    exact ⟨haltRaiser_regs who s, haltRaiser_orch who s⟩

/-- The raising worker halts, and the others stay as they are (R196, R203). -/
theorem worker_raiseError_some (w : WorkerId) (e : ErrRec) (s : State) (v : WorkerId) :
    (raiseError (some w) e s).worker v = if v = w then { s.worker w with active := false } else s.worker v := by
  rw [worker_raiseError]
  by_cases h : v = w
  · subst h; simp
  · simp [h, Ne.symm h]

/-! #### The nibble codes -/

theorem exec_of_mem_nibbleCodes {n : BitVec 4} {i : Instr} (h : (n, i) ∈ nibbleCodes) (s : State) :
    exec i s = bodySample n s := by
  rw [← decodeNibble_of_mem h, exec_decodeNibble]

/-- Settles O30: the channel's update, the write that is answered OK, and the cursor. -/
theorem nibbleCodesDecodeOneSample : Obligations.NibbleCodesDecodeOneSample := by
  unfold Obligations.NibbleCodesDecodeOneSample
  intro s n i g ch b h hmem ha hp hin hok
  have hwrite := writeSample_ok (w := s.turn) (s := stepChan s.turn ch n s)
    (normWord (nibbleStep n ((s.worker s.turn).chan ch)).pred) hin hok
  rw [exec_of_mem_nibbleCodes hmem, bodySample_at ha hp, bodySlot, hwrite]
  exact congrArg Host.Outcome.next (advance_stepChan s.turn ch n s _)

theorem active_of_bodySample {n : BitVec 4} {s t : State} (h : bodySample n s = .next t) :
    (s.worker s.turn).active = true := by
  unfold bodySample at h
  split at h
  · assumption
  · cases h

@[simp] theorem raiseError_turn (who : Option WorkerId) (e : ErrRec) (s : State) : (raiseError who e s).turn = s.turn := by
  cases hl : s.orch.latched
  · simp [raiseError_first hl]
  · simp [raiseError_latched hl]

@[simp] theorem raiseError_tick (who : Option WorkerId) (e : ErrRec) (s : State) : (raiseError who e s).tick = s.tick := by
  cases hl : s.orch.latched
  · simp [raiseError_first hl]
  · simp [raiseError_latched hl]

@[simp] theorem haltRaiser_rdata (who : Option WorkerId) (s : State) : (haltRaiser who s).rdata = s.rdata := by
  cases who <;> rfl

@[simp] theorem raiseError_rdata (who : Option WorkerId) (e : ErrRec) (s : State) :
    (raiseError who e s).rdata = s.rdata := by
  cases hl : s.orch.latched
  · simp [raiseError_first hl]
  · simp [raiseError_latched hl]

/-- A raised error touches no register but STATUS.DRAIN, ERR_INFO and ERR_BLOCK, and of the orchestrator only its phase
and whether an error is latched (R196). -/
theorem raiseError_frame (who : Option WorkerId) (e : ErrRec) (s : State) :
    (raiseError who e s).regs = { s.regs with
      status := { s.regs.status with drain := (raiseError who e s).regs.status.drain }
      errInfo := (raiseError who e s).regs.errInfo
      errBlock := (raiseError who e s).regs.errBlock } ∧
    (raiseError who e s).orch = { s.orch with
      phase := (raiseError who e s).orch.phase, latched := (raiseError who e s).orch.latched } := by
  obtain ⟨hfirst, hlater⟩ := raiseError_effect who e s
  cases hl : s.orch.latched
  · obtain ⟨hr, ho⟩ := hfirst hl
    rw [hr, ho]
    exact ⟨rfl, rfl⟩
  · obtain ⟨hr, ho⟩ := hlater hl
    rw [hr, ho]
    exact ⟨rfl, rfl⟩

/-- Settles O31, by the two ways the sample write can end. -/
theorem nibbleCodesFrame : Obligations.NibbleCodesFrame := by
  unfold Obligations.NibbleCodesFrame
  intro s t n i g ch b h hmem hp hwf hx
  rw [exec_of_mem_nibbleCodes hmem] at hx
  rw [bodySample_at (active_of_bodySample hx) hp] at hx
  have hchan (v : WorkerId) (hv : v ≠ s.turn) : (stepChan s.turn ch n s).worker v = s.worker v := by
    rw [worker_stepChan, if_neg hv]
  have hother (c : Nat) (hc : c ≠ ch) :
      ((stepChan s.turn ch n s).worker s.turn).chan c = (s.worker s.turn).chan c := by
    rw [worker_stepChan, if_pos rfl, Worker.chan_setChan_ne _ _ _ hc]
  obtain ⟨hin, -, rfl⟩ | ⟨-, rfl⟩ := writeSample_next hx
  · refine ⟨rfl, rfl, rfl, rfl, rfl, rfl, rfl, rfl, rfl, fun v hv => ?_, fun c hc => ?_, fun a ha => ?_⟩
    · rw [worker_advance, if_neg hv]
      exact hchan v hv
    · rw [worker_advance, if_pos rfl, Worker.chan, advanceWorker_cs]
      exact hother c hc
    · exact Memory.read_write32_outside _ hin hwf ha
  · obtain ⟨hregs, horch⟩ := raiseError_frame (some s.turn)
      (busErrorRec 2 ch ((stepChan s.turn ch n s).worker s.turn).blk) (stepChan s.turn ch n s)
    refine ⟨by simp, by simp, by simp, by simp, by simp, by simp, by simp, hregs, horch, fun v hv => ?_, fun c hc => ?_,
      fun a _ => by simp⟩
    · rw [worker_raiseError_some, if_neg hv]
      exact hchan v hv
    · rw [worker_raiseError_some, if_pos rfl]
      exact hother c hc

/-! #### HDR_CHECK -/

theorem step_micro {s : State} {w : WorkerId} {rest : List Move} (h : s.moves = .agent (.micro w) :: rest) :
    step s = microStep w { s with moves := rest } := by
  rw [step, h]
  rfl

theorem microEnabled_of {s : State} {w : WorkerId} (ha : (s.worker w).active = true)
    (hrun : s.orch.phase = .run ∨ s.orch.phase = .drain) : microEnabled s w = true := by
  simp [microEnabled, ha, hrun]

/-- HDR_CHECK whose four reads are answered OK tests and loads the bytes read (R131). -/
theorem hdrCheck_ok {w : WorkerId} {ch : Nat} {s : State}
    (h : ∀ j, j < 4 → inAddr s.regs (s.worker w).blk.toNat (4 * ch + j) < 2 ^ 32 ∧
      busOk s.params (inAddr s.regs (s.worker w).blk.toNat (4 * ch + j)) .read = true) :
    hdrCheck w ch s = .next (checkHeader w ch
      (inByte s.mem s.regs (s.worker w).blk.toNat (headerByte ch 0))
      (inByte s.mem s.regs (s.worker w).blk.toNat (headerByte ch 1))
      (inByte s.mem s.regs (s.worker w).blk.toNat (headerByte ch 2))
      (inByte s.mem s.regs (s.worker w).blk.toNat (headerByte ch 3)) s) := by
  have hread (j : Nat) (hj : j < 4) :
      readHeaderByte s w ch j = .ok (inByte s.mem s.regs (s.worker w).blk.toNat (headerByte ch j)) :=
    memRead8_ok.mpr ⟨(h j hj).1, (h j hj).2, rfl⟩
  simp only [hdrCheck, hread 0 (by decide), hread 1 (by decide), hread 2 (by decide), hread 3 (by decide)]

/-- A header the block function takes is loaded (R131). -/
theorem hdrCheck_valid {w : WorkerId} {ch : Nat} {s : State}
    (hread : ∀ j, j < 4 → inAddr s.regs (s.worker w).blk.toNat (4 * ch + j) < 2 ^ 32 ∧
      busOk s.params (inAddr s.regs (s.worker w).blk.toNat (4 * ch + j)) .read = true)
    (hvalid : headerFault s.mem s.regs (s.worker w).blk.toNat ch = none) :
    hdrCheck w ch s =
      .next (advance w (s.setWorker w
        ((s.worker w).setChan ch (headerChan s.mem s.regs (s.worker w).blk.toNat ch)))) := by
  obtain ⟨hidx, hres⟩ := headerFault_none.mp hvalid
  rw [hdrCheck_ok hread, checkHeader, if_neg hidx.not_gt, if_neg (not_not.mpr hres)]
  rfl

/-- A header the block function refuses raises its subcode and byte; a bad index comes before a bad reserved byte (R131). -/
theorem hdrCheck_invalid {w : WorkerId} {ch : Nat} {s : State} {sub : BitVec 4} {byte : Byte}
    (hread : ∀ j, j < 4 → inAddr s.regs (s.worker w).blk.toNat (4 * ch + j) < 2 ^ 32 ∧
      busOk s.params (inAddr s.regs (s.worker w).blk.toNat (4 * ch + j)) .read = true)
    (hfault : headerFault s.mem s.regs (s.worker w).blk.toNat ch = some (sub, byte)) :
    hdrCheck w ch s = .next (raiseError (some w) (malformedRec sub byte ch (s.worker w).blk) s) := by
  rw [hdrCheck_ok hread, checkHeader]
  unfold headerFault at hfault
  split_ifs at hfault with hidx hres
  · cases hfault
    rw [if_pos hidx]
  · cases hfault
    rw [if_neg hidx, if_pos hres]

/-- Settles O33: the four bytes are read, pass the tests, and load the channel. -/
theorem headerCheckLoadsTheChannel : Obligations.HeaderCheckLoadsTheChannel := by
  unfold Obligations.HeaderCheckLoadsTheChannel
  intro s w ch rest hm ha hrun hp hread hidx hres
  have hon : microEnabled { s with moves := rest } w = true := microEnabled_of ha hrun
  have hvalid := headerFault_none.mpr ⟨hidx, hres⟩
  have hload := hdrCheck_valid (s := { s with moves := rest, turn := w }) hread hvalid
  rw [advance_setChan] at hload
  rw [step_micro hm, microStep_hchk hon hp]
  exact hload

/-- Settles O34: the test that fails is the block function's fault of the header, and raises the error. -/
theorem headerCheckRaisesMalformed : Obligations.HeaderCheckRaisesMalformed := by
  unfold Obligations.HeaderCheckRaisesMalformed
  intro s w ch rest sub byte hm ha hrun hp hread hbad
  have hon : microEnabled { s with moves := rest } w = true := microEnabled_of ha hrun
  have hfault : headerFault s.mem s.regs (s.worker w).blk.toNat ch = some (sub, byte) := by
    unfold headerFault
    obtain ⟨hidx, rfl, rfl⟩ | ⟨hidx, rfl, rfl, hres⟩ := hbad
    · exact if_pos hidx
    · exact (if_neg hidx.not_gt).trans (if_pos hres)
  have hraise := hdrCheck_invalid (s := { s with moves := rest, turn := w }) hread hfault
  rw [step_micro hm, microStep_hchk hon hp]
  exact ⟨_, hraise, raiseError_mem _ _ _, raiseError_moves _ _ _, worker_raiseError_some _ _ _,
    raiseError_effect (some w) (malformedRec sub byte ch (s.worker w).blk) { s with moves := rest, turn := w }⟩

/-! #### HDR_WRITE -/

/-- Settles O35, by the two answers to the write. -/
theorem headerWriteStoresThePredictor : Obligations.HeaderWriteStoresThePredictor := by
  unfold Obligations.HeaderWriteStoresThePredictor
  intro s w ch rest hm ha hrun hp hin
  have hon : microEnabled { s with moves := rest } w = true := microEnabled_of ha hrun
  rw [step_micro hm, microStep_hwr hon hp, hdrWrite]
  constructor
  · intro hok
    have hwrite := writeSample_ok (w := w) (s := { s with moves := rest, turn := w })
      (normWord ((s.worker w).chan ch).pred) hin hok
    rw [advance, advanceWorker_eq_after] at hwrite
    exact hwrite
  · intro hok
    exact ⟨_, writeSample_busError _ hin hok, raiseError_mem _ _ _, worker_raiseError_some _ _ _,
      raiseError_effect (some w) (busErrorRec 2 ch (s.worker w).blk) { s with moves := rest, turn := w }⟩

end Sys2Proof.Machine

/-! ### PROOFS. The partition of the blocks and of the slots (42_partitioner.md R170, R174, R175, R177) -/

namespace Sys2Proof.Machine

/-! #### Worker ranges -/

theorem rangeSize_eq_ceilDiv (blocks w : Nat) : rangeSize blocks w = blocks ⌈/⌉ w :=
  (Nat.ceilDiv_eq_add_pred_div _ _).symm

/-- The ranges of `w` workers are long enough for all blocks (R175). -/
theorem le_mul_rangeSize {w : Nat} (blocks : Nat) (hw : 1 ≤ w) : blocks ≤ w * rangeSize blocks w :=
  rangeSize_eq_ceilDiv blocks w ▸ (ceilDiv_le_iff_le_mul hw).mp le_rfl

theorem rangeSize_pos {blocks w : Nat} (hw : 1 ≤ w) (hb : 0 < blocks) : 0 < rangeSize blocks w :=
  Nat.pos_of_mul_pos_left (hb.trans_le (le_mul_rangeSize blocks hw))

/-- A block is in the range of the worker whose number is the quotient of its index by the size of a range (R175). -/
theorem inRange_iff {blocks w i k : Nat} (hw : 1 ≤ w) (hk : k < blocks) :
    rangeStart blocks w i ≤ k ∧ k < rangeEnd blocks w i ↔ k / rangeSize blocks w = i := by
  have hq : 0 < rangeSize blocks w := rangeSize_pos hw (Nat.zero_lt_of_lt hk)
  rw [rangeStart, rangeEnd, lt_min_iff, and_iff_left hk, Nat.div_eq_iff hq, Nat.add_one_mul]
  omega

/-- The worker a block falls to is one of the `w` started (R175). -/
theorem div_rangeSize_lt {blocks w k : Nat} (hw : 1 ≤ w) (hk : k < blocks) : k / rangeSize blocks w < w :=
  Nat.div_lt_of_lt_mul (Nat.mul_comm _ _ ▸ hk.trans_le (le_mul_rangeSize blocks hw))

/-- Settles O44: the one worker of block `k` is number `k / q`. -/
theorem rangesPartitionTheBlocks : Obligations.RangesPartitionTheBlocks := by
  unfold Obligations.RangesPartitionTheBlocks
  intro blocks w k hw
  constructor
  · intro hk
    refine ⟨k / rangeSize blocks w, ⟨div_rangeSize_lt hw hk, (inRange_iff hw hk).mpr rfl⟩, ?_⟩
    exact fun i hlo hhi => ((inRange_iff hw hk).mp ⟨hlo, hhi⟩).symm
  · exact fun i _ hhi => hhi.trans_le (rangeEnd_le blocks w i)

/-! #### Slots -/

/-- The length of the channel buffers of a block-aligned stream (R174). -/
theorem totalSamples_aligned {p : Params} {r : Regs} (h : shapeOK p r = true) (halign : r.len % r.bs = 0) :
    totalSamples r = blockCount r * 8 * (1 + chunkCount r) := by
  obtain ⟨hc, -, hb, hm⟩ := shapeOK_iff.mp h
  have hlen : r.len = blockCount r * r.bs := (Nat.div_mul_cancel (Nat.dvd_of_mod_eq_zero halign)).symm
  refine Nat.div_eq_of_eq_mul_left hc ?_
  calc 2 * r.len = 2 * (blockCount r * (4 * r.c * (chunkCount r + 1))) := by rw [hlen, ← bs_eq hc hb hm]
    _ = blockCount r * 8 * (1 + chunkCount r) * r.c := by ring

/-- The slot determines the block that owns it: the quotient by SPB (R176, R177). -/
theorem slot_div_spb {r : Regs} {k i : Nat} (hi : i < spb r) : (k * spb r + i) / spb r = k := by
  rw [Nat.mul_comm, Nat.mul_add_div (Nat.zero_lt_of_lt hi), Nat.div_eq_of_lt hi, Nat.add_zero]

/-- Settles O45, by the shape of a block and the quotient of a slot by SPB. -/
theorem blocksFitTheBuffer : Obligations.BlocksFitTheBuffer := by
  unfold Obligations.BlocksFitTheBuffer
  intro p r h
  obtain ⟨hc, -, hb, hm⟩ := shapeOK_iff.mp h
  refine ⟨blocks_mul_spb_le_totalSamples hc hb hm, fun halign => ?_, fun k k' i i' hne hi hi' heq => hne ?_⟩
  · have htotal := totalSamples_aligned h halign
    refine ⟨htotal, ?_⟩
    rw [htotal, spb]
    ring
  · calc k = (k * spb r + i) / spb r := (slot_div_spb hi).symm
      _ = (k' * spb r + i') / spb r := by rw [heq]
      _ = k' := slot_div_spb hi'

end Sys2Proof.Machine

/-! ### PROOFS. What a step of a running command leaves in the output slots (43_orchestrator.md R200) -/

namespace Sys2Proof.Machine

theorem State.KeepsOutput.of_eq {s : State} {m : Memory} (h : m = s.mem) : s.KeepsOutput m :=
  h ▸ ⟨fun _ _ => rfl, fun _ _ _ _ => .inl rfl⟩

/-! #### The words the micro-operations write -/

section progress
variable {m : Memory} {r : Regs} {wk : Worker} (h : wk.progress m r) {ch : Nat} (hch : ch < r.c)
include h hch

/-- HDR_WRITE of a worker that is right writes the block function's first word (R132, R141). -/
theorem Worker.progress.header_word (hp : wk.phase = .hwr ch) :
    normWord (wk.chan ch).pred = blockWord m r wk.blk.toNat ch 0 := by
  have hload := (h ch hch).1
  simp only [hp, CursorPhase.nibblesDone, CursorPhase.samplesDone, lt_irrefl, if_false] at hload
  obtain ⟨-, hchan⟩ := hload trivial
  rw [hchan]
  rfl

/-- BODY_SAMPLE of a worker that is right writes the block function's next word (R138, R141). -/
theorem Worker.progress.body_word {g b half : Nat} (hp : wk.phase = .body g ch b half) (hb : b < 4) (hh : half < 2) :
    normWord (nibbleStep (nibbleOf (inByte m r wk.blk.toNat (bodyByte r g ch b)) half) (wk.chan ch)).pred =
      blockWord m r wk.blk.toNat ch (8 * g + 2 * b + half + 1) := by
  have hload := (h ch hch).1
  have hdone : 1 + 8 * g + 2 * b + half - 1 = 8 * g + 2 * b + half := by omega
  simp only [hp, CursorPhase.nibblesDone, CursorPhase.samplesDone, lt_irrefl, if_false, if_true, hdone] at hload
  obtain ⟨-, hchan⟩ := hload trivial
  rw [hchan, ← nibbleAt_body m r _ g ch hb hh]
  rfl

end progress

/-! #### The agents -/

section agents
variable {s : State} (hi : Inv s) (ho : OutputInv s)
include hi

/-- A sample write of the block function's word, in the slot its worker's block has for it, leaves memory right. -/
theorem writeSample_keepsOutput {w : WorkerId} (ha : (s.worker w).active = true) {u t : State} {ch i : Nat} {word : Word}
    (hmem : u.mem = s.mem) (hregs : u.regs = s.regs) (hch : ch < s.regs.c) (hi' : i < spb s.regs)
    (hword : word = blockWord s.mem s.regs (s.worker w).blk.toNat ch i)
    (h : writeSample w ch ((s.worker w).obase.toNat + i) word u = .next t) : s.KeepsOutput t.mem := by
  have hrun := hi.running_of_active ha
  have hcheck := hi.accepted hrun
  obtain ⟨-, -, hrange⟩ := hi.activeOk w ha
  have hslot := (Nat.add_lt_add_left hi' (s.worker w).obase.toNat).trans_le (Worker.block_fits hcheck hrange)
  obtain heq | heq := writeSample_mem h
  · exact .of_eq (heq.trans hmem)
  · rw [heq, hmem, hregs]
    exact .write hi hrun hch hslot (hword ▸ successWord_worker hcheck hrange ch hi')

include ho

/-- A micro-operation writes nothing, or the right word of its slot (R131, R132, R138). -/
theorem microStep_keepsOutput {w : WorkerId} {t : State} (h : microStep w s = .next t) : s.KeepsOutput t.mem := by
  by_cases hon : microEnabled s w = true
  case neg =>
    rw [microStep_disabled hon] at h
    cases h
    exact .of_eq rfl
  have ha := active_of_microEnabled hon
  have hprog := ho.progress w ha
  obtain ⟨-, hphase, -⟩ := hi.activeOk w ha
  cases hp : (s.worker w).phase with
  | hchk ch =>
    rw [microStep_hchk hon hp] at h
    exact .of_eq (hdrCheck_mem (s := { s with turn := w }) h)
  | hwr ch =>
    rw [hp] at hphase
    rw [microStep_hwr hon hp] at h
    exact writeSample_keepsOutput hi ha (u := { s with turn := w }) (i := 0) rfl rfl hphase (by unfold spb; omega)
      (hprog.header_word hphase hp) h
  | body g ch b half =>
    rw [hp] at hphase
    obtain ⟨hg, hch, hb, hh⟩ := hphase
    obtain hbody | rfl := microStep_body_next hon hp h
    · have hslot : bodySlot (s.worker w).obase.toNat g b half =
          (s.worker w).obase.toNat + (8 * g + 2 * b + half + 1) := by unfold bodySlot; omega
      rw [bodySample_at (s := { s with turn := w }) ha hp] at hbody
      exact writeSample_keepsOutput hi ha (by rfl) (by rfl) hch (by unfold spb; omega)
        (hprog.body_word hch hp hb hh) (hslot ▸ hbody)
    · exact .of_eq (raiseError_mem (some w) _ _)

omit ho in
/-- A fill write is of the +0.0 its tail slot is to get (R178, R191). -/
theorem fillWrite_keepsOutput {t : State} (hphase : s.orch.phase = .fill) (hpending : fillPending s = true)
    (h : fillWrite s = .next t) : s.KeepsOutput t.mem := by
  have hrun : s.orch.phase ≠ .idle := by simp [hphase]
  obtain ⟨hkind, hlo, -⟩ := hi.fillOk hphase
  obtain ⟨hch, hhi⟩ : s.orch.fillCh < s.regs.c ∧ s.orch.fillI < totalSamples s.regs := of_decide_eq_true hpending
  obtain ⟨-, -, -, -, -, hlen, -⟩ := checkConfig_none.mp (hi.accepted hrun)
  obtain ⟨-, rfl⟩ | rfl := fillWrite_next h
  · exact .write hi hrun hch (hlen hkind ▸ hhi) (successWord_tail hkind s.orch.fillCh hlo hhi)
  · exact .of_eq (raiseError_mem none _ s)

omit ho in
theorem orchStep_keepsOutput {t : State} (h : orchStep s = .next t) : s.KeepsOutput t.mem := by
  obtain rfl | ⟨hphase, hpending, hf⟩ | ⟨-, -, rfl⟩ | ⟨-, -, -, rfl⟩ | ⟨-, -, rfl⟩ := orchStep_next h
  case inr.inl => exact fillWrite_keepsOutput hi hphase hpending hf
  all_goals exact .of_eq rfl

theorem agentStep_keepsOutput {a : AgentMove} {t : State} (h : agentStep a s = .next t) : s.KeepsOutput t.mem := by
  cases a with
  | orch => exact orchStep_keepsOutput hi h
  | micro w => exact microStep_keepsOutput hi ho h
  | halt w =>
    cases h
    unfold haltStep
    split <;> exact .of_eq rfl

end agents

/-! #### The host -/

/-- A host store while a command runs is outside its regions, so it leaves its memory right (R82). -/
theorem hostStore_keepsOutput {s t : State} (hi : Inv s) (hrun : s.orch.phase ≠ .idle) {a : BitVec 32} {b : Byte}
    (h : hostStore a b s = .next t) : s.KeepsOutput t.mem := by
  obtain ⟨hin, hout⟩ := hostStore_outside_regions hrun h
  obtain ⟨-, rfl⟩ | ⟨hidle, -⟩ := hostStore_next h
  · exact .writeByte hi b hin hout
  · exact absurd hidle hrun

/-- No word written to CMD writes memory (R220 to R229). -/
theorem CommandCase.mem {cw : Word} {s t : State} (h : CommandCase cw s t) : t.mem = s.mem := by
  cases h
  case aborted => exact raiseError_mem none abortedRec s
  all_goals rfl

theorem writeReg_mem (s : State) (r : Reg) (v : Word) : (writeReg s r v).mem = s.mem := by
  unfold writeReg
  split <;> rfl

/-- Every step of a running command keeps the input, and in every slot the old word or the right one. -/
theorem step_keepsOutput {s t : State} (hi : Inv s) (ho : OutputInv s) (hrun : s.orch.phase ≠ .idle)
    (h : step s = .next t) : s.KeepsOutput t.mem := by
  cases step_case h with
  | powerOn rest _ ht => exact .of_eq (ht ▸ rfl)
  | store rest a b _ ht =>
    exact hostStore_keepsOutput (s := { s with moves := rest }) (hi.sameBlock (.ofFields s rest _ _)) hrun ht
  | command rest cw _ ht => exact .of_eq ht.mem
  | register rest r v _ _ ht => exact .of_eq (ht ▸ writeReg_mem _ r v)
  | quiet ht =>
    obtain ⟨dl, mv, k, d, -, rfl⟩ := ht
    exact .of_eq rfl
  | agent u a hu ht =>
    have hkeeps := agentStep_keepsOutput (hi.sameBlock hu) (ho.sameBlock hu) ht
    obtain ⟨dl, mv, k, d, -, rfl⟩ := hu
    exact hkeeps

/-- Settles O58: every step of a running command keeps its output right, slot by slot. -/
theorem slotsHoldOldOrSuccessWords : Obligations.SlotsHoldOldOrSuccessWords := by
  unfold Obligations.SlotsHoldOldOrSuccessWords
  intro s t c i hi ho hrun h hc hslot
  exact (step_keepsOutput hi ho hrun h).2 c i hc hslot

end Sys2Proof.Machine

/-! ### PROOFS. No step of an agent faults (20_memory.md R70, R75, R76; 60_exceptions.md R256) -/

namespace Sys2Proof.Machine

/-- Every byte of a block of an accepted command is an address of memory (R76, R256). -/
theorem inAddr_inside {p : Params} {r : Regs} {kind : Kind} (h : checkConfig p r kind = none) {k j : Nat}
    (hk : r.blockIn k) (hj : j < r.bs) : inAddr r k j < Memory.size := by
  obtain ⟨-, -, -, -, -, -, -, ⟨hfit, -⟩, -⟩ := checkConfig_none.mp h
  exact (inAddr_lt hk.2 hj).trans_le hfit

theorem bodySample_runs {n : BitVec 4} {s : State} {g ch b h : Nat} (ha : (s.worker s.turn).active = true)
    (hp : (s.worker s.turn).phase = .body g ch b h)
    (hin : outAddr s.regs ch (bodySlot (s.worker s.turn).obase.toNat g b h) + 4 ≤ Memory.size) :
    ∃ t, bodySample n s = .next t := by
  rw [bodySample_at ha hp]
  exact writeSample_runs s.turn _ hin

section agents
variable {s : State} (hi : Inv s)
include hi

/-- A micro-operation of the invariant reads and writes inside memory. -/
theorem microStep_runs (w : WorkerId) : ∃ t, microStep w s = .next t := by
  by_cases hon : microEnabled s w = true
  case neg => exact ⟨s, microStep_disabled hon⟩
  have ha := active_of_microEnabled hon
  have hcheck := hi.accepted (hi.running_of_active ha)
  obtain ⟨-, hphase, hrange⟩ := hi.activeOk w ha
  have hblock := Worker.blockIn hcheck hrange
  have hfits := Worker.block_fits hcheck hrange
  cases hp : (s.worker w).phase with
  | hchk ch =>
    rw [hp] at hphase
    rw [microStep_hchk hon hp]
    exact hdrCheck_runs w fun j hj => inAddr_inside hcheck hblock (headerByte_lt hblock.1 hphase hj)
  | hwr ch =>
    rw [hp] at hphase
    rw [microStep_hwr hon hp]
    have hslot : (s.worker w).obase.toNat < s.regs.outLen.toNat := by unfold spb at hfits; omega
    exact writeSample_runs w _ (outAddr_inside hcheck hphase hslot)
  | body g ch b half =>
    rw [hp] at hphase
    obtain ⟨hg, hch, hb, hh⟩ := hphase
    cases hx : readBodyByte s w g ch b with
    | ok x =>
      rw [microStep_body hon hp hx, exec_decodeNibble]
      exact bodySample_runs (s := { s with turn := w }) ha hp
        (outAddr_inside hcheck hch ((bodySlot_lt _ hg hb hh).trans_le hfits))
    | busError =>
      simp only [microStep, if_pos hon, hp, hx]
      exact ⟨_, rfl⟩
    | outside =>
      exact absurd (memRead8_outside.mp hx) (inAddr_inside hcheck hblock (bodyByte_lt hblock.1 hg hch hb)).not_ge

theorem orchStep_runs : ∃ t, orchStep s = .next t := by
  unfold orchStep
  split
  · cases hphase : s.orch.phase with
    | fill =>
      have hrun : s.orch.phase ≠ .idle := by simp [hphase]
      by_cases hpending : fillPending s = true
      · obtain ⟨hch, hhi⟩ := of_decide_eq_true hpending
        obtain ⟨-, -, -, -, -, hlen, -⟩ := checkConfig_none.mp (hi.accepted hrun)
        simp only [if_pos hpending]
        exact fillWrite_runs (outAddr_inside (hi.accepted hrun) hch (hlen (hi.fillOk hphase).1 ▸ hhi))
      · simp only [if_neg hpending]
        exact ⟨_, rfl⟩
    | idle => exact ⟨_, rfl⟩
    | run => exact ⟨_, rfl⟩
    | drain => exact ⟨_, rfl⟩
  · exact ⟨_, rfl⟩

theorem agentStep_runs (a : AgentMove) : ∃ t, agentStep a s = .next t := by
  cases a with
  | orch => exact orchStep_runs hi
  | micro w => exact microStep_runs hi w
  | halt w => exact ⟨_, rfl⟩

/-- From a state of the invariant a step of the block on its own goes on. -/
theorem freeStep_runs : ∃ t, freeStep s = .next t := by
  unfold freeStep
  split
  · exact ⟨_, rfl⟩
  · exact agentStep_runs hi _
  · exact agentStep_runs (hi.sameBlock (.ofFields s s.moves (s.tick + 1) s.rdata)) _

end agents

end Sys2Proof.Machine

/-! ### PROOFS. Which steps of the agents are enabled (43_orchestrator.md R191, R193, R195, R197, R198) -/

namespace Sys2Proof.Machine

theorem WorkerId.mem_all (w : WorkerId) : w ∈ WorkerId.all := by cases w <;> decide

theorem orch_mem_enabledMoves {s : State} : AgentMove.orch ∈ enabledMoves s ↔ orchEnabled s = true := by
  simp [enabledMoves]

theorem micro_mem_enabledMoves {s : State} {w : WorkerId} :
    AgentMove.micro w ∈ enabledMoves s ↔ microEnabled s w = true := by
  simp [enabledMoves, WorkerId.mem_all]

theorem halt_mem_enabledMoves {s : State} {w : WorkerId} :
    AgentMove.halt w ∈ enabledMoves s ↔ haltEnabled s w = true := by
  simp [enabledMoves, WorkerId.mem_all]

theorem microEnabled_iff {s : State} {w : WorkerId} :
    microEnabled s w = true ↔ (s.worker w).active = true ∧ (s.orch.phase = .run ∨ s.orch.phase = .drain) := by
  simp [microEnabled]

theorem haltEnabled_iff {s : State} {w : WorkerId} :
    haltEnabled s w = true ↔ (s.worker w).active = true ∧ s.orch.phase = .drain := by
  simp [haltEnabled]

/-- The orchestrator steps in FILL, and in RUN and DRAIN once no worker is active: in RUN nothing is latched. -/
theorem orchEnabled_iff {s : State} (hi : Inv s) :
    orchEnabled s = true ↔
      s.orch.phase = .fill ∨ ((s.orch.phase = .run ∨ s.orch.phase = .drain) ∧ ∀ w, (s.worker w).active = false) := by
  rw [← noneActive_iff]
  cases hp : s.orch.phase with
  | run =>
    have hlatched := hi.not_latched (by simp [hp])
    simp [orchEnabled, hp, hlatched]
  | idle => simp [orchEnabled, hp]
  | fill => simp [orchEnabled, hp]
  | drain => simp [orchEnabled, hp]

theorem haltStep_enabled {s : State} {w : WorkerId} (h : haltEnabled s w = true) : haltStep w s = s.haltWorker w := by
  rw [haltStep, if_pos h]

/-- Settles O43, agent by agent. -/
theorem enabledStepsOfTheAgents : Obligations.EnabledStepsOfTheAgents := by
  unfold Obligations.EnabledStepsOfTheAgents
  intro s hi
  refine ⟨fun w => micro_mem_enabledMoves.trans microEnabled_iff, fun w => halt_mem_enabledMoves.trans haltEnabled_iff,
    orch_mem_enabledMoves.trans (orchEnabled_iff hi), fun w h => ?_⟩
  rw [agentStep, haltStep_enabled (halt_mem_enabledMoves.mp h)]
  rfl

/-- While a command runs some agent has a step: the orchestrator, or a worker still active (R193, R197). -/
theorem enabledMoves_ne_nil {s : State} (hi : Inv s) (hrun : s.orch.phase ≠ .idle) : enabledMoves s ≠ [] := by
  by_cases horch : orchEnabled s = true
  · exact List.ne_nil_of_mem (orch_mem_enabledMoves.mpr horch)
  rw [orchEnabled_iff hi, not_or, not_and, not_forall] at horch
  obtain ⟨hfill, hactive⟩ := horch
  have hphase : s.orch.phase = .run ∨ s.orch.phase = .drain := by
    cases hp : s.orch.phase with
    | idle => exact absurd hp hrun
    | fill => exact absurd hp hfill
    | run => exact .inl rfl
    | drain => exact .inr rfl
  obtain ⟨w, hw⟩ := hactive hphase
  exact List.ne_nil_of_mem (micro_mem_enabledMoves.mpr (microEnabled_of (Bool.eq_true_of_not_eq_false hw) hphase))

end Sys2Proof.Machine

/-! ### PROOFS. The orchestrator's steps, ABORT, and the error of a nibble code (43_orchestrator.md R191 to R199) -/

namespace Sys2Proof.Machine

/-! #### The equations of the orchestrator's step -/

theorem step_orch {s : State} {rest : List Move} (h : s.moves = .agent .orch :: rest) :
    step s = orchStep { s with moves := rest } := by
  rw [step, h]
  rfl

theorem orchStep_fill {s : State} (h : s.orch.phase = .fill) :
    orchStep s = if fillPending s then fillWrite s else .next (dispatch s) := by
  simp only [orchStep, orchEnabled, h, if_true]

/-- In RUN, with nothing latched and no worker active, the orchestrator joins (R195). -/
theorem orchStep_join {s : State} (h : s.orch.phase = .run) (hl : s.orch.latched = false)
    (hnone : ∀ w, (s.worker w).active = false) : orchStep s = .next (completeOk s) := by
  simp [orchStep, orchEnabled, h, hl, noneActive_iff.mpr hnone]

/-- In DRAIN, with no worker active, the orchestrator ends the failed command (R198). -/
theorem orchStep_drained {s : State} (h : s.orch.phase = .drain) (hnone : ∀ w, (s.worker w).active = false) :
    orchStep s = .next (completeFailed s) := by
  simp only [orchStep, orchEnabled, h, noneActive_iff.mpr hnone, if_true]

/-- A fill write that is answered OK (R191). -/
theorem fillWrite_ok {s : State} (hin : outAddr s.regs s.orch.fillCh s.orch.fillI + 4 ≤ Memory.size)
    (hok : busOk s.params (outAddr s.regs s.orch.fillCh s.orch.fillI) .write = true) :
    fillWrite s = .next { s with
      mem := s.mem.write32 (outAddr s.regs s.orch.fillCh s.orch.fillI) 0, orch := advanceFill s.regs s.orch } := by
  rw [fillWrite, memWrite32_ok.mpr ⟨hin, hok, rfl⟩]

/-- A fill write that gets an error response (R191, R271). -/
theorem fillWrite_busError {s : State} (hin : outAddr s.regs s.orch.fillCh s.orch.fillI + 4 ≤ Memory.size)
    (hok : busOk s.params (outAddr s.regs s.orch.fillCh s.orch.fillI) .write = false) :
    fillWrite s = .next (raiseError none (busErrorRec 2 s.orch.fillCh 0xFFFFFFFF) s) := by
  have herr : memWrite32 s (outAddr s.regs s.orch.fillCh s.orch.fillI) 0 = .busError := by
    rw [memWrite32, if_neg hin.not_gt, hok, if_neg Bool.false_ne_true]
  rw [fillWrite, herr]

/-- Settles O39, by the two answers to the fill write. -/
theorem fillWritesTheNextTailSlot : Obligations.FillWritesTheNextTailSlot := by
  unfold Obligations.FillWritesTheNextTailSlot
  intro s rest hm hphase hch hi hin
  have hpending : fillPending { s with moves := rest } = true := decide_eq_true ⟨hch, hi⟩
  rw [step_orch hm, orchStep_fill (s := { s with moves := rest }) hphase, if_pos hpending]
  constructor
  · exact fun hok => fillWrite_ok (s := { s with moves := rest }) hin hok
  · intro hok hl
    rw [fillWrite_busError (s := { s with moves := rest }) hin hok,
      raiseError_first (s := { s with moves := rest }) hl]
    rfl

/-- DISPATCH looks at each worker by itself (R192). -/
theorem worker_dispatch (s : State) (w : WorkerId) :
    (dispatch s).worker w = dispatchWorker s.regs s.orch.w.toNat w.num (s.worker w) :=
  Workers.get_map _ _ _

/-- Settles O40: with no tail slot left the step is DISPATCH, worker by worker. -/
theorem dispatchStartsTheRanges : Obligations.DispatchStartsTheRanges := by
  unfold Obligations.DispatchStartsTheRanges
  intro s rest hm hphase hfilled
  have hdone : ¬fillPending { s with moves := rest } = true := fun h => hfilled (of_decide_eq_true h)
  rw [step_orch hm, orchStep_fill (s := { s with moves := rest }) hphase, if_neg hdone]
  exact ⟨_, rfl, rfl, rfl, rfl, rfl, rfl, rfl, worker_dispatch { s with moves := rest }⟩

/-- Settles O41: the step is the successful completion. -/
theorem joinCompletesTheCommand : Obligations.JoinCompletesTheCommand := by
  unfold Obligations.JoinCompletesTheCommand
  intro s rest hm hphase hl hnone
  rw [step_orch hm, orchStep_join (s := { s with moves := rest }) hphase hl hnone]
  rfl

/-- Settles O42: the step is the completion after an error. -/
theorem drainCompletesTheFailedCommand : Obligations.DrainCompletesTheFailedCommand := by
  unfold Obligations.DrainCompletesTheFailedCommand
  intro s rest hm hphase hnone
  rw [step_orch hm, orchStep_drained (s := { s with moves := rest }) hphase hnone]
  rfl

/-! #### ABORT -/

theorem execAbort_idle {s : State} (h : s.orch.phase = .idle) : execAbort s = .next s := by
  rw [execAbort, if_pos h]

theorem execAbort_running {s : State} (h : s.orch.phase ≠ .idle) :
    execAbort s = .next (raiseError none abortedRec s) := by
  rw [execAbort, if_neg h]

/-- Settles O16: while BUSY an ABORT is a raised error with no halting worker. -/
theorem abortLatchesAborted : Obligations.AbortLatchesAborted := by
  unfold Obligations.AbortLatchesAborted
  refine ⟨by decide, fun s => ⟨execAbort_idle, fun hrun hl => ?_, fun hrun hl => ?_⟩⟩
  · exact (execAbort_running hrun).trans (congrArg Host.Outcome.next (raiseError_latched hl))
  · exact (execAbort_running hrun).trans (congrArg Host.Outcome.next (raiseError_first hl))

/-! #### A nibble code whose write errs -/

/-- Settles O32: the code is a sample write after the channel's update, and the error response makes it a raised error. -/
theorem nibbleCodeRaisesBusError : Obligations.NibbleCodeRaisesBusError := by
  unfold Obligations.NibbleCodeRaisesBusError
  intro s n i g ch b h hmem ha hp hin hok
  have herr := writeSample_busError (w := s.turn) (s := stepChan s.turn ch n s)
    (normWord (nibbleStep n ((s.worker s.turn).chan ch)).pred) hin hok
  have hblk : ((stepChan s.turn ch n s).worker s.turn).blk = (s.worker s.turn).blk := by
    rw [worker_stepChan, if_pos rfl, Worker.setChan_blk]
  rw [exec_of_mem_nibbleCodes hmem, bodySample_at ha hp, herr, hblk]
  refine ⟨_, rfl, raiseError_mem _ _ _, ?_, fun v hv => ?_,
    raiseError_effect (some s.turn) (busErrorRec 2 ch (s.worker s.turn).blk) (stepChan s.turn ch n s)⟩
  · rw [worker_raiseError_some, if_pos rfl]
  · rw [worker_raiseError_some, if_neg hv, worker_stepChan, if_neg hv]

end Sys2Proof.Machine

/-! ### PROOFS. What the workers share, and what a later error records (43_orchestrator.md R196, R203; 60_exceptions.md
R261) -/

namespace Sys2Proof.Machine

/-! #### Other workers (R203) -/

theorem MicroCase.worker_ne {w v : WorkerId} {s t : State} (h : MicroCase w s t) (hv : v ≠ w) :
    t.worker v = s.worker v := by
  cases h with
  | disabled => rfl
  | failed u e _ hu => rw [worker_raiseError_some, if_neg hv, hu.worker_ne hv]
  | loaded u _ hu => rw [worker_advance, if_neg hv, hu.worker_ne hv]
  | wrote u a word _ hu _ => rw [worker_advance, if_neg hv]; exact hu.worker_ne hv

/-- Settles O53, by the ways a micro-operation can end. -/
theorem workersDoNotTouchEachOther : Obligations.WorkersDoNotTouchEachOther := by
  unfold Obligations.WorkersDoNotTouchEachOther
  intro s t w v h hv
  exact (microStep_case h).worker_ne hv

/-! #### The error registers once an error is latched (R196 (c), R261) -/

/-- ERR_INFO and ERR_BLOCK are the same. -/
def Regs.SameError (r r' : Regs) : Prop := r'.errInfo = r.errInfo ∧ r'.errBlock = r.errBlock

theorem Regs.SameError.of_eq {r r' : Regs} (h : r' = r) : r.SameError r' := h ▸ ⟨rfl, rfl⟩

theorem raiseError_latched_regs {s : State} (hl : s.orch.latched = true) (who : Option WorkerId) (e : ErrRec) :
    (raiseError who e s).regs = s.regs :=
  ((raiseError_effect who e s).2 hl).1

section latched
variable {s : State} (hl : s.orch.latched = true)
include hl

theorem MicroCase.latched_regs {w : WorkerId} {t : State} (h : MicroCase w s t) : t.regs = s.regs := by
  cases h with
  | disabled => rfl
  | failed u e _ hu => rw [raiseError_latched_regs (hu.orch ▸ hl), hu.regs]
  | loaded u _ hu => exact hu.regs
  | wrote u a word _ hu _ => exact hu.regs

theorem orchStep_latched_error {t : State} (h : orchStep s = .next t) : s.regs.SameError t.regs := by
  obtain rfl | ⟨-, -, hf⟩ | ⟨-, -, rfl⟩ | ⟨-, -, -, rfl⟩ | ⟨-, -, rfl⟩ := orchStep_next h
  case inr.inl =>
    obtain ⟨-, rfl⟩ | rfl := fillWrite_next hf
    · exact .of_eq rfl
    · exact .of_eq (raiseError_latched_regs hl none _)
  all_goals exact ⟨rfl, rfl⟩

theorem agentStep_latched_error {a : AgentMove} {t : State} (h : agentStep a s = .next t) :
    s.regs.SameError t.regs := by
  cases a with
  | orch => exact orchStep_latched_error hl h
  | micro w => exact .of_eq ((microStep_case h).latched_regs hl)
  | halt w =>
    cases h
    unfold haltStep
    split <;> exact .of_eq rfl

/-- While BUSY with an error latched no word written to CMD changes the recorded error, but SOFT_RESET. -/
theorem CommandCase.latched_error (hrun : s.orch.phase ≠ .idle) {cw : Word} {t : State} (h : CommandCase cw s t) :
    s.regs.SameError t.regs ∨ (decodeCmd cw = .instr .softReset ∧ t = resetBlock s) := by
  cases h with
  | nothing => exact .inl (.of_eq rfl)
  | dropped _ => exact .inl ⟨rfl, rfl⟩
  | aborted _ => exact .inl (.of_eq (raiseError_latched_regs hl none _))
  | softReset hcw => exact .inr ⟨hcw, rfl⟩
  | rejected hidle _ => exact absurd hidle hrun
  | acceptedDecode hidle _ _ _ _ => exact absurd hidle hrun
  | acceptedDecodeBlock hidle _ _ => exact absurd hidle hrun
  | cleared hidle => exact absurd hidle hrun

end latched

theorem writeReg_error (s : State) (r : Reg) (v : Word) : s.regs.SameError (writeReg s r v).regs := by
  unfold writeReg
  split
  · exact .of_eq rfl
  · exact ⟨Regs.write_errInfo s.regs v r, Regs.write_errBlock s.regs v r⟩

theorem hostStore_running_regs {s t : State} (hrun : s.orch.phase ≠ .idle) {a : BitVec 32} {b : Byte}
    (h : hostStore a b s = .next t) : t.regs = s.regs := by
  obtain ⟨-, rfl⟩ | ⟨hidle, -⟩ := hostStore_next h
  · rfl
  · exact absurd hidle hrun

/-- Settles O52: in DRAIN an error is latched, so nothing but a reset writes the error registers. -/
theorem onlyTheFirstErrorIsRecorded : Obligations.OnlyTheFirstErrorIsRecorded := by
  unfold Obligations.OnlyTheFirstErrorIsRecorded
  intro s t hi hdrain h
  have hl := hi.latchedIff.mpr hdrain
  have hrun : s.orch.phase ≠ .idle := by simp [hdrain]
  cases step_case h with
  | powerOn rest hm ht => exact .inr ⟨⟨rest, .inl hm⟩, ht ▸ rfl⟩
  | store rest a b _ ht => exact .inl (Regs.SameError.of_eq (hostStore_running_regs (s := { s with moves := rest }) hrun ht))
  | command rest cw hm ht =>
    obtain hsame | ⟨hcw, rfl⟩ := CommandCase.latched_error (s := { s with moves := rest }) hl hrun ht
    · exact .inl hsame
    · exact .inr ⟨⟨rest, .inr ⟨cw, hm, hcw⟩⟩, rfl⟩
  | register rest r v _ _ ht => exact .inl (ht ▸ writeReg_error { s with moves := rest } r v)
  | quiet ht =>
    obtain ⟨dl, mv, k, d, -, rfl⟩ := ht
    exact .inl ⟨rfl, rfl⟩
  | agent u a hu ht =>
    obtain ⟨dl, mv, k, d, -, rfl⟩ := hu
    exact .inl (agentStep_latched_error (s := { s with duties := dl, moves := mv, tick := k, rdata := d }) hl ht)

end Sys2Proof.Machine

/-! ### PROOFS. How the phases go (43_orchestrator.md R190) -/

namespace Sys2Proof.Machine

/-- How the phase of a running command changes but by a reset (R190 to R192, R195, R196, R198, R199). -/
inductive PhaseChange (s t : State) : Prop
  | dispatched (hs : s.orch.phase = .fill) (ht : t.orch.phase = .run)
  | failed (hs : s.orch.phase = .fill ∨ s.orch.phase = .run) (ht : t.orch.phase = .drain)
  | joined (hs : s.orch.phase = .run) (hnone : ∀ w, (s.worker w).active = false) (ht : t.orch.phase = .idle)
      (hdone : t.regs.status.done = true) (herr : t.regs.status.err = false)
  | drained (hs : s.orch.phase = .drain) (hnone : ∀ w, (s.worker w).active = false) (ht : t.orch.phase = .idle)
      (hdone : t.regs.status.done = true) (herr : t.regs.status.err = true)

/-- A raised error leaves the phase, or starts DRAIN from FILL or RUN (R196, R199). -/
theorem raiseError_phase {s u : State} (hi : Inv s) (hrun : s.orch.phase ≠ .idle) (hu : u.orch = s.orch)
    (who : Option WorkerId) (e : ErrRec) :
    (raiseError who e u).orch.phase = s.orch.phase ∨ PhaseChange s (raiseError who e u) := by
  obtain ⟨hfirst, hlater⟩ := raiseError_effect who e u
  cases hl : u.orch.latched with
  | true => exact .inl (by rw [(hlater hl).2, hu])
  | false =>
    refine .inr (.failed ?_ (by rw [(hfirst hl).2]))
    have hdrain : s.orch.phase ≠ .drain := fun h => by simp [hu, hi.latchedIff.mpr h] at hl
    cases hp : s.orch.phase with
    | idle => exact absurd hp hrun
    | fill => exact .inl rfl
    | run => exact .inr rfl
    | drain => exact absurd hp hdrain

theorem Inv.not_err {s : State} (hi : Inv s) (hrun : s.orch.phase ≠ .idle) : s.regs.status.err = false :=
  Bool.eq_false_iff.mpr fun he => absurd (hi.errDone he) (by simp [hi.runningNotDone hrun])

section agents
variable {s : State} (hi : Inv s)
include hi

theorem MicroCase.phase {w : WorkerId} {t : State} (h : MicroCase w s t) :
    t.orch.phase = s.orch.phase ∨ PhaseChange s t := by
  cases h with
  | disabled => exact .inl rfl
  | failed u e hon hu =>
    exact raiseError_phase hi (hi.running_of_active (active_of_microEnabled hon)) hu.orch (some w) e
  | loaded u _ hu => exact .inl (congrArg Orch.phase hu.orch)
  | wrote u a word _ hu _ => exact .inl (congrArg Orch.phase hu.orch)

theorem orchStep_phase {t : State} (h : orchStep s = .next t) : t.orch.phase = s.orch.phase ∨ PhaseChange s t := by
  obtain rfl | ⟨hp, -, hf⟩ | ⟨hp, -, rfl⟩ | ⟨hp, hnone, -, rfl⟩ | ⟨hp, hnone, rfl⟩ := orchStep_next h
  · exact .inl rfl
  · obtain ⟨-, rfl⟩ | rfl := fillWrite_next hf
    · exact .inl (advanceFill_phase _ _)
    · exact raiseError_phase hi (by simp [hp]) rfl none _
  · exact .inr (.dispatched hp rfl)
  · exact .inr (.joined hp (noneActive_iff.mp hnone) rfl rfl (hi.not_err (by simp [hp])))
  · exact .inr (.drained hp (noneActive_iff.mp hnone) rfl rfl rfl)

theorem agentStep_phase {a : AgentMove} {t : State} (h : agentStep a s = .next t) :
    t.orch.phase = s.orch.phase ∨ PhaseChange s t := by
  cases a with
  | orch => exact orchStep_phase hi h
  | micro w => exact (microStep_case h).phase hi
  | halt w =>
    cases h
    unfold haltStep
    split <;> exact .inl rfl

/-- What a word written to CMD does to the phase: acceptance, ABORT and SOFT_RESET change it (R190). -/
theorem CommandCase.phase {cw : Word} {t : State} (h : CommandCase cw s t) :
    t.orch.phase = s.orch.phase ∨ PhaseChange s t ∨
    (s.orch.phase = .idle ∧
      ((t.orch.phase = .fill ∧ ∃ w, decodeCmd cw = .instr (.decode w)) ∨
        (t.orch.phase = .run ∧ decodeCmd cw = .instr .decodeBlock))) ∨
    (decodeCmd cw = .instr .softReset ∧ t = resetBlock s) := by
  cases h with
  | acceptedDecode hidle w hcw _ _ => exact .inr (.inr (.inl ⟨hidle, .inl ⟨rfl, w, hcw⟩⟩))
  | acceptedDecodeBlock hidle hcw _ => exact .inr (.inr (.inl ⟨hidle, .inr ⟨rfl, hcw⟩⟩))
  | aborted hrun => exact (raiseError_phase hi hrun rfl none _).imp_right .inl
  | softReset hcw => exact .inr (.inr (.inr ⟨hcw, rfl⟩))
  | nothing => exact .inl rfl
  | dropped _ => exact .inl rfl
  | rejected _ _ => exact .inl rfl
  | cleared _ => exact .inl rfl

end agents

theorem writeReg_orch (s : State) (r : Reg) (v : Word) : (writeReg s r v).orch = s.orch := by
  unfold writeReg
  split <;> rfl

theorem hostStore_orch {a : BitVec 32} {b : Byte} {s t : State} (h : hostStore a b s = .next t) : t.orch = s.orch := by
  obtain ⟨-, rfl⟩ | ⟨-, -, as, r, -, -, rfl⟩ := hostStore_next h <;> rfl

/-- A change between states that differ in the model's own fields and in duties only. -/
theorem PhaseChange.of_sameBlock {s u t : State} (hu : s.SameBlock u) (h : PhaseChange u t) : PhaseChange s t := by
  obtain ⟨dl, mv, k, d, -, rfl⟩ := hu
  cases h with
  | dispatched hs ht => exact .dispatched hs ht
  | failed hs ht => exact .failed hs ht
  | joined hs hnone ht hdone herr => exact .joined hs hnone ht hdone herr
  | drained hs hnone ht hdone herr => exact .drained hs hnone ht hdone herr

/-- A step changes the phase by an acceptance, by a change of the running command, or by a reset (R190). -/
theorem step_phase {s t : State} (hi : Inv s) (h : step s = .next t) (hne : t.orch.phase ≠ s.orch.phase) :
    PhaseChange s t ∨
    (s.orch.phase = .idle ∧ ∃ cw rest, s.moves = .busWrite (s.params.regBase + 0x08) .word cw :: rest ∧
      ((t.orch.phase = .fill ∧ ∃ w, decodeCmd cw = .instr (.decode w)) ∨
        (t.orch.phase = .run ∧ decodeCmd cw = .instr .decodeBlock))) ∨
    (t.orch.phase = .idle ∧ resetsNext s ∧ t.regs = Regs.reset) := by
  have hrest (rest : List Move) : s.SameBlock { s with moves := rest } := .ofFields s rest _ _
  cases step_case h with
  | powerOn rest hm ht => exact .inr (.inr (ht ▸ ⟨rfl, ⟨rest, .inl hm⟩, rfl⟩))
  | store rest a b _ ht => exact absurd (congrArg Orch.phase (hostStore_orch ht)) hne
  | command rest cw hm ht =>
    obtain heq | hchange | ⟨hidle, hacc⟩ | ⟨hcw, rfl⟩ := ht.phase (hi.sameBlock (hrest rest))
    · exact absurd heq hne
    · exact .inl (hchange.of_sameBlock (hrest rest))
    · exact .inr (.inl ⟨hidle, cw, rest, hm, hacc⟩)
    · exact .inr (.inr ⟨rfl, ⟨rest, .inr ⟨cw, hm, hcw⟩⟩, rfl⟩)
  | register rest r v _ _ ht => exact absurd (congrArg Orch.phase (ht ▸ writeReg_orch _ r v)) hne
  | quiet ht =>
    obtain ⟨dl, mv, k, d, -, rfl⟩ := ht
    exact absurd rfl hne
  | agent u a hu ht =>
    obtain heq | hchange := agentStep_phase (hi.sameBlock hu) ht
    · obtain ⟨dl, mv, k, d, -, rfl⟩ := hu
      exact absurd heq hne
    · exact .inl (hchange.of_sameBlock hu)

/-- Settles O51, by the ways a step can change the phase. -/
theorem phasesGoAsTheRuleSays : Obligations.PhasesGoAsTheRuleSays := by
  unfold Obligations.PhasesGoAsTheRuleSays
  intro s t hi h hne
  obtain hchange | ⟨hidle, hacc⟩ | ⟨hidle, hreset⟩ := step_phase hi h hne
  · cases hchange with
    | dispatched hs ht => simp [hs, ht]
    | failed hs ht => obtain hs | hs := hs <;> simp [hs, ht]
    | joined hs hnone ht hdone herr => simp [hs, hnone, ht, hdone, herr]
    | drained hs hnone ht hdone herr => simp [hs, hnone, ht, hdone, herr]
  · exact ⟨fun _ => hacc, by simp [hidle], by simp [hidle], by simp [hidle]⟩
  · exact ⟨fun hs => absurd (hidle.trans hs.symm) hne, fun _ => .inr (.inr ⟨hidle, hreset⟩),
      fun _ => .inr ⟨hidle, .inr hreset⟩, fun _ => ⟨hidle, .inr hreset⟩⟩

end Sys2Proof.Machine

/-! ### PROOFS. What a DECODE has written at its join (42_partitioner.md R178; 43_orchestrator.md R195, R202) -/

namespace Sys2Proof.Machine

theorem WorkerId.exists_num {i : Nat} (h : i < Config.wMax) : ∃ w : WorkerId, w.num = i := by
  unfold Config.wMax at h
  interval_cases i
  · exact ⟨.w0, rfl⟩
  · exact ⟨.w1, rfl⟩
  · exact ⟨.w2, rfl⟩
  · exact ⟨.w3, rfl⟩

theorem spb_pos (r : Regs) : 0 < spb r := by unfold spb; omega

/-- A slot before the tail belongs to a block of the stream (R176, R177). -/
theorem slot_block_lt {r : Regs} {i : Nat} (h : i < blockCount r * spb r) : i / spb r < blockCount r :=
  Nat.div_lt_of_lt_mul (Nat.mul_comm _ _ ▸ h)

section joined
variable {s : State} (hi : Inv s) (ho : OutputInv s) (hphase : s.orch.phase = .run) (hkind : s.orch.kind = .stream)
include hi ho hphase hkind

/-- At the join every block of the stream is written: the worker it fell to has passed it (R175, R194). -/
theorem joined_blockWritten (hnone : ∀ w, (s.worker w).active = false) {k : Nat} (hk : k < blockCount s.regs) :
    blockWritten s.mem s.regs k (k * spb s.regs) := by
  obtain ⟨hlo, hhi, -⟩ := hi.workersUsed (by simp [hphase])
  have hlt := div_rangeSize_lt hlo hk
  obtain ⟨w, hw⟩ := WorkerId.exists_num (hlt.trans_le hhi)
  obtain ⟨hstart, hend⟩ := (inRange_iff hlo hk).mpr hw.symm
  exact ho.blocks hkind hphase w k hstart (hw ▸ hlt) (by rw [hnone w]; exact hend)

/-- At the join every slot of the channel buffers holds its word of the stream (R178, R202). -/
theorem joined_slotWord (hnone : ∀ w, (s.worker w).active = false) {c i : Nat} (hc : c < s.regs.c)
    (hslot : i < totalSamples s.regs) : slotWord s.mem s.regs c i = streamWord s.mem s.regs c i := by
  unfold streamWord
  split
  · rename_i hblock
    have hword := (joined_blockWritten hi ho hphase hkind hnone (slot_block_lt hblock) c hc).2 (i % spb s.regs)
      (Nat.mod_lt _ (spb_pos s.regs))
    rwa [Nat.div_add_mod'] at hword
  · rename_i htail
    exact ho.tail hkind (.inr hphase) c i hc (not_lt.mp htail) hslot fun h => absurd (hphase.symm.trans h) (by decide)

end joined

/-- The channel buffers of a running DECODE have TotalSamples slots (R174, R256). -/
theorem Inv.outLen_stream {s : State} (hi : Inv s) (hrun : s.orch.phase ≠ .idle) (hkind : s.orch.kind = .stream) :
    s.regs.outLen.toNat = totalSamples s.regs := by
  obtain ⟨-, -, -, -, -, hlen, -⟩ := checkConfig_none.mp (hi.accepted hrun)
  exact hlen hkind

/-- Settles O56: at the join every block is written, and so is the tail. -/
theorem joinedDecodeHasWrittenTheStream : Obligations.JoinedDecodeHasWrittenTheStream := by
  unfold Obligations.JoinedDecodeHasWrittenTheStream
  intro s hi ho hphase hkind hnone
  have hlen := hi.outLen_stream (by simp [hphase]) hkind
  exact ⟨fun k hk => blockFault_none fun c hc => (joined_blockWritten hi ho hphase hkind hnone hk c hc).1,
    fun c i hc hslot => joined_slotWord hi ho hphase hkind hnone hc (hlen ▸ hslot)⟩

/-- The words of a stream rest on its input bytes alone (R145). -/
theorem streamWord_congr {m m' : Memory} {r : Regs} {p : Params} {kind : Kind} (hcheck : checkConfig p r kind = none)
    (hin : r.SameInput m m') {c : Nat} (hc : c < r.c) (i : Nat) : streamWord m' r c i = streamWord m r c i := by
  unfold streamWord
  split
  · rename_i hblock
    exact blockWord_congr hin (Regs.blockIn_of_lt hcheck (slot_block_lt hblock)) hc (Nat.mod_lt _ (spb_pos r))
  · rfl

/-- The words of a stream rest on the configuration registers alone. -/
theorem streamWord_config {r r' : Regs} (h : r'.config = r.config) (m : Memory) (c i : Nat) :
    streamWord m r' c i = streamWord m r c i := by
  simp only [streamWord, blockWord, blockCount_config h, spb_config h, chanAfter_config h]

/-- Settles O59: both DECODEs leave the words of their streams, which are the same. -/
theorem joinedDecodesAgree : Obligations.JoinedDecodesAgree := by
  unfold Obligations.JoinedDecodesAgree
  intro s t his hos hit hot hps hks hns hpt hkt hnt hconfig hin c i hc hslot
  have hcheck := his.accepted (by simp [hps])
  have hlen := his.outLen_stream (by simp [hps]) hks
  have hct : c < t.regs.c := (Regs.c_config hconfig).symm ▸ hc
  have hit' : i < totalSamples t.regs := by rw [totalSamples_config hconfig, ← hlen]; exact hslot
  calc slotWord t.mem t.regs c i
      = streamWord t.mem t.regs c i := joined_slotWord hit hot hpt hkt hnt hct hit'
    _ = streamWord t.mem s.regs c i := streamWord_config hconfig t.mem c i
    _ = streamWord s.mem s.regs c i := streamWord_congr hcheck hin hc i
    _ = slotWord s.mem s.regs c i := (joined_slotWord his hos hps hks hns hc (hlen ▸ hslot)).symm

end Sys2Proof.Machine

/-! ### PROOFS. The work of a running command runs down (43_orchestrator.md R205) -/

namespace Sys2Proof.Machine

/-! #### What one worker has left to do -/

theorem Worker.remaining_inactive {wk : Worker} (h : wk.active = false) (r : Regs) : wk.remaining r = 0 := by
  simp [Worker.remaining, h]

/-- An active worker has the rest of its block to do, and the rest of its range. -/
theorem Worker.remaining_active {wk : Worker} (h : wk.active = true) (r : Regs) :
    wk.remaining r = (blockOps r - wk.phase.rank r.c) + (wk.stop.toNat - wk.blk.toNat - 1) * blockOps r := by
  simp [Worker.remaining, h]

theorem Worker.remaining_pos {r : Regs} {wk : Worker} (ha : wk.active = true) (hok : wk.phase.ok r.c (chunkCount r)) :
    0 < wk.remaining r := by
  have hrank : wk.phase.rank r.c < blockOps r := CursorPhase.rank_lt hok
  rw [Worker.remaining_active ha]
  omega

theorem Worker.remaining_config {r r' : Regs} (h : r'.config = r.config) (wk : Worker) :
    wk.remaining r' = wk.remaining r := by
  obtain ⟨hc, hbs, -⟩ := Regs.fields_config h
  simp only [Worker.remaining, blockOps, chunkCount, hc, hbs]

/-- A worker that starts its next block has that block before it, and one block less after it (R194). -/
theorem Worker.remaining_startBlock {r : Regs} {wk : Worker} (obase : Nat) (ha : wk.active = true)
    (hblk : (BitVec.ofNat 32 (wk.blk.toNat + 1)).toNat = wk.blk.toNat + 1) (hlt : wk.blk.toNat + 1 < wk.stop.toNat) :
    (wk.startBlock (wk.blk.toNat + 1) obase).remaining r = (wk.stop.toNat - wk.blk.toNat - 1) * blockOps r := by
  rw [Worker.remaining_active (wk := wk.startBlock _ _) ha, Worker.startBlock_phase, Worker.startBlock_stop,
    Worker.startBlock_blk, hblk, CursorPhase.rank, Nat.sub_zero]
  obtain ⟨n, hn⟩ := Nat.exists_eq_add_of_lt hlt
  have hnow : wk.stop.toNat - wk.blk.toNat - 1 = n + 1 := by omega
  have hnext : wk.stop.toNat - (wk.blk.toNat + 1) - 1 = n := by omega
  rw [hnow, hnext]
  ring

/-- A cursor that moves on leaves its worker less to do (R130, R194). -/
theorem advanceWorker_remaining_lt {r : Regs} {o : Orch} {w : WorkerId} {wk : Worker} (ha : wk.active = true)
    (hok : wk.activeOk r o w) : (advanceWorker r wk).remaining r < wk.remaining r := by
  obtain ⟨hkind, hphase, hrange⟩ := hok
  have hrank : wk.phase.rank r.c < blockOps r := CursorPhase.rank_lt hphase
  obtain ⟨ph, hph, heq⟩ | ⟨-, hstream, hlt, heq⟩ | ⟨-, -, heq⟩ := advanceWorker_cases r wk <;> rw [heq]
  · have hnext := nextPhase_rank hphase hph
    rw [Worker.remaining_active ha, Worker.remaining_active (wk := { wk with phase := ph }) ha]
    simp only [hnext]
    omega
  · obtain ⟨-, -, -, hstop, -⟩ := (Worker.rangeOk_stream (hkind.symm.trans hstream)).mp hrange
    have hblk : (BitVec.ofNat 32 (wk.blk.toNat + 1)).toNat = wk.blk.toNat + 1 :=
      Nat.mod_eq_of_lt ((hlt.trans_le (hstop.le.trans (rangeEnd_le _ _ _))).trans (blockCount_lt _))
    rw [Worker.remaining_startBlock _ ha hblk hlt, Worker.remaining_active ha]
    omega
  · rw [Worker.remaining_inactive rfl]
    exact Worker.remaining_pos ha hphase

/-! #### What all workers have left to do -/

/-- One worker with less to do, the others as they were: less to do. -/
theorem microRemaining_lt {s t : State} {w : WorkerId} (hconfig : t.regs.config = s.regs.config)
    (hw : (t.worker w).remaining s.regs < (s.worker w).remaining s.regs)
    (hother : ∀ v, v ≠ w → t.worker v = s.worker v) : microRemaining t < microRemaining s := by
  have hle (v : WorkerId) : (t.worker v).remaining s.regs ≤ (s.worker v).remaining s.regs := by
    by_cases hv : v = w
    · exact hv ▸ hw.le
    · rw [hother v hv]
  have h0 := hle .w0
  have h1 := hle .w1
  have h2 := hle .w2
  have h3 := hle .w3
  simp only [microRemaining, Worker.remaining_config hconfig]
  cases w <;> omega

theorem microRemaining_none {s : State} (h : ∀ w, (s.worker w).active = false) : microRemaining s = 0 := by
  simp only [microRemaining, Worker.remaining_inactive (h _)]

/-- How an enabled micro-operation of worker `w` ends: an error halts the worker, or its cursor moves on (R130, R196). -/
inductive MicroEnd (w : WorkerId) (s : State) : State → Prop
  | failed (u : State) (e : ErrRec) (hu : ChanUpdate w s u) : MicroEnd w s (raiseError (some w) e u)
  | moved (u : State) (m : Memory) (hu : ChanUpdate w s u) : MicroEnd w s (advance w { u with mem := m })

theorem writeSample_end {w : WorkerId} {ch i : Nat} {word : Word} {s u t : State} (hu : ChanUpdate w s u)
    (h : writeSample w ch i word u = .next t) : MicroEnd w s t := by
  obtain ⟨-, -, rfl⟩ | ⟨-, rfl⟩ := writeSample_next h
  · exact .moved u _ hu
  · exact .failed u _ hu

theorem hdrCheck_end {w : WorkerId} {ch : Nat} {s t : State} (h : hdrCheck w ch { s with turn := w } = .next t) :
    MicroEnd w s t := by
  obtain ⟨h0, h1, h2, h3, -, -, -, -, rfl⟩ | rfl := hdrCheck_next h
  · obtain ⟨-, heq⟩ | ⟨-, -, heq⟩ | ⟨hidx, -, heq⟩ := checkHeader_cases w ch h0 h1 h2 h3 { s with turn := w } <;> rw [heq]
    · exact .failed _ _ .none
    · exact .failed _ _ .none
    · exact .moved _ s.mem (.chan ch _ (by rw [BitVec.toNat_setWidth]; omega))
  · exact .failed _ _ .none

theorem microStep_end {w : WorkerId} {s t : State} (hon : microEnabled s w = true) (h : microStep w s = .next t) :
    MicroEnd w s t := by
  cases hp : (s.worker w).phase with
  | hchk ch => exact hdrCheck_end (microStep_hchk hon hp ▸ h)
  | hwr ch =>
    rw [microStep_hwr hon hp] at h
    exact writeSample_end .none h
  | body g ch b half =>
    obtain hbody | rfl := microStep_body_next hon hp h
    · rw [bodySample_at (s := { s with turn := w }) (active_of_microEnabled hon) hp] at hbody
      exact writeSample_end (.chan ch _ (nibbleStep_idx_le _ _)) hbody
    · exact .failed _ _ .none

section workers
variable {s : State} (hi : Inv s) {w : WorkerId}
include hi

theorem Inv.remaining_pos (ha : (s.worker w).active = true) : 0 < (s.worker w).remaining s.regs := by
  obtain ⟨-, hphase, -⟩ := hi.activeOk w ha
  exact Worker.remaining_pos ha hphase

/-- A micro-operation leaves its worker less to do: it fails, or its cursor moves on. -/
theorem microStep_remaining_lt {t : State} (hon : microEnabled s w = true) (h : microStep w s = .next t) :
    (t.worker w).remaining s.regs < (s.worker w).remaining s.regs := by
  have ha := active_of_microEnabled hon
  cases microStep_end hon h with
  | failed u e _ =>
    rw [worker_raiseError_some, if_pos rfl, Worker.remaining_inactive rfl]
    exact hi.remaining_pos ha
  | moved u m hu =>
    have hsame := hu.worker_same
    have hact : (u.worker w).active = true := by rw [hsame]; exact ha
    have hlt := advanceWorker_remaining_lt hact ((inv_chanUpdate hi hu).activeOk w hact)
    have hbefore : (u.worker w).remaining s.regs = (s.worker w).remaining s.regs := by rw [hsame]; rfl
    rw [hu.regs, hbefore] at hlt
    rw [worker_advance, if_pos rfl]
    exact hu.regs ▸ hlt

theorem microRemaining_microStep {t : State} (hon : microEnabled s w = true) (h : microStep w s = .next t) :
    microRemaining t < microRemaining s :=
  have hcase := microStep_case h
  microRemaining_lt hcase.sameConfig.2 (microStep_remaining_lt hi hon h) fun _ => hcase.worker_ne

theorem microRemaining_haltWorker (ha : (s.worker w).active = true) :
    microRemaining (s.haltWorker w) < microRemaining s := by
  refine microRemaining_lt (w := w) rfl ?_ fun v hv => ?_
  · rw [State.worker_haltWorker, if_pos rfl, Worker.remaining_inactive rfl]
    exact hi.remaining_pos ha
  · rw [State.worker_haltWorker, if_neg hv]

end workers

/-! #### The fill and DISPATCH -/

/-- A fill write leaves one fill write less (R191). -/
theorem fillRemaining_advanceFill {s t : State} (hpending : fillPending s = true) (hregs : t.regs = s.regs)
    (horch : t.orch = advanceFill s.regs s.orch) : fillRemaining t < fillRemaining s := by
  obtain ⟨hch, hlt⟩ : s.orch.fillCh < s.regs.c ∧ s.orch.fillI < totalSamples s.regs := of_decide_eq_true hpending
  simp only [fillRemaining, hregs, horch, if_pos (And.intro hch hlt), advanceFill]
  split_ifs with hnext hin hin
  · simp only
    omega
  · omega
  · obtain ⟨hc, hi⟩ := hin
    simp only at hc hi ⊢
    obtain ⟨n, hn⟩ := Nat.exists_eq_add_of_lt hc
    have hnow : s.regs.c - s.orch.fillCh - 1 = n + 1 := by omega
    have hafter : s.regs.c - (s.orch.fillCh + 1) - 1 = n := by omega
    rw [hnow, hafter, Nat.add_one_mul]
    omega
  · omega

/-- A worker that DISPATCH starts has its range to do (R175, R192). -/
theorem dispatchWorker_remaining_le {r : Regs} {w i : Nat} {wk : Worker} (hstopped : wk.active = false) :
    (dispatchWorker r w i wk).remaining r ≤
      (rangeEnd (blockCount r) w i - rangeStart (blockCount r) w i) * blockOps r := by
  unfold dispatchWorker
  split
  · rename_i hstart
    obtain ⟨-, hlt⟩ := hstart
    have hend := rangeEnd_le (blockCount r) w i
    have hcount := blockCount_lt r
    have hblk : (BitVec.ofNat 32 (rangeStart (blockCount r) w i)).toNat = rangeStart (blockCount r) w i :=
      Nat.mod_eq_of_lt (by omega)
    have hstop : (BitVec.ofNat 33 (rangeEnd (blockCount r) w i)).toNat = rangeEnd (blockCount r) w i :=
      Nat.mod_eq_of_lt (by omega)
    rw [Worker.remaining_active rfl, Worker.startBlock_phase, Worker.startBlock_stop, Worker.startBlock_blk, hblk, hstop,
      CursorPhase.rank, Nat.sub_zero]
    obtain ⟨n, hn⟩ := Nat.exists_eq_add_of_lt hlt
    have hlen : rangeEnd (blockCount r) w i - rangeStart (blockCount r) w i = n + 1 := by omega
    rw [hlen, Nat.add_sub_cancel, Nat.add_one_mul, Nat.add_comm]
  · rw [Worker.remaining_inactive hstopped]
    exact Nat.zero_le _

/-- The ranges of the four workers hold no more blocks than there are (R175). -/
theorem ranges_le (blocks w : Nat) :
    (rangeEnd blocks w 0 - rangeStart blocks w 0) + (rangeEnd blocks w 1 - rangeStart blocks w 1) +
      (rangeEnd blocks w 2 - rangeStart blocks w 2) + (rangeEnd blocks w 3 - rangeStart blocks w 3) ≤ blocks := by
  unfold rangeEnd rangeStart
  omega

/-- After DISPATCH the workers have at most the blocks of the stream to do (R175, R192, R205). -/
theorem microRemaining_dispatch_le {s : State} (hstopped : ∀ w, (s.worker w).active = false) :
    microRemaining (dispatch s) ≤ blockCount s.regs * blockOps s.regs := by
  have hle (w : WorkerId) := dispatchWorker_remaining_le (r := s.regs) (w := s.orch.w.toNat) (i := w.num) (hstopped w)
  calc microRemaining (dispatch s)
      = (dispatchWorker s.regs s.orch.w.toNat 0 (s.worker .w0)).remaining s.regs +
        (dispatchWorker s.regs s.orch.w.toNat 1 (s.worker .w1)).remaining s.regs +
        (dispatchWorker s.regs s.orch.w.toNat 2 (s.worker .w2)).remaining s.regs +
        (dispatchWorker s.regs s.orch.w.toNat 3 (s.worker .w3)).remaining s.regs := rfl
    _ ≤ _ := Nat.add_le_add (Nat.add_le_add (Nat.add_le_add (hle .w0) (hle .w1)) (hle .w2)) (hle .w3)
    _ ≤ blockCount s.regs * blockOps s.regs := by
      rw [← Nat.add_mul, ← Nat.add_mul, ← Nat.add_mul]
      exact Nat.mul_le_mul_right _ (ranges_le _ _)

/-! #### The bound on the steps of the block -/

theorem stepsLeft_idle {s : State} (h : s.orch.phase = .idle) : stepsLeft s = 0 := by
  rw [stepsLeft, h]

theorem stepsLeft_fill {s : State} (h : s.orch.phase = .fill) :
    stepsLeft s = fillRemaining s + 1 + blockCount s.regs * blockOps s.regs + 1 := by
  rw [stepsLeft, h]

theorem stepsLeft_working {s : State} (h : s.orch.phase = .run ∨ s.orch.phase = .drain) :
    stepsLeft s = microRemaining s + 1 := by
  obtain h | h := h <;> rw [stepsLeft, h]

theorem PhaseChange.working_or_idle {s t : State} (h : PhaseChange s t) :
    t.orch.phase = .idle ∨ t.orch.phase = .run ∨ t.orch.phase = .drain := by
  cases h with
  | dispatched _ ht => exact .inr (.inl ht)
  | failed _ ht => exact .inr (.inr ht)
  | joined _ _ ht _ _ => exact .inl ht
  | drained _ _ ht _ _ => exact .inl ht

section agents
variable {s : State} (hi : Inv s)
include hi

/-- In RUN and DRAIN an agent that leaves the workers less to do leaves less to do. -/
theorem stepsLeft_lt_of_microRemaining {a : AgentMove} {t : State} (h : agentStep a s = .next t)
    (hs : s.orch.phase = .run ∨ s.orch.phase = .drain) (hlt : microRemaining t < microRemaining s) :
    stepsLeft t < stepsLeft s := by
  rw [stepsLeft_working hs]
  have ht : t.orch.phase = .idle ∨ t.orch.phase = .run ∨ t.orch.phase = .drain := by
    obtain heq | hchange := agentStep_phase hi h
    · exact .inr (heq.symm ▸ hs)
    · exact hchange.working_or_idle
  obtain ht | ht := ht
  · rw [stepsLeft_idle ht]
    exact Nat.succ_pos _
  · rw [stepsLeft_working ht]
    exact Nat.succ_lt_succ hlt

/-- A fill step leaves less to do: one tail slot less, or the drain of a command with no worker active (R191, R196). -/
theorem stepsLeft_fillWrite {t : State} (hphase : s.orch.phase = .fill) (hpending : fillPending s = true)
    (h : fillWrite s = .next t) : stepsLeft t < stepsLeft s := by
  rw [stepsLeft_fill hphase]
  obtain ⟨-, rfl⟩ | rfl := fillWrite_next h
  · have hnext : (advanceFill s.regs s.orch).phase = .fill := (advanceFill_phase _ _).trans hphase
    have hlt := fillRemaining_advanceFill (s := s) (t := { s with
      mem := s.mem.write32 (outAddr s.regs s.orch.fillCh s.orch.fillI) 0, orch := advanceFill s.regs s.orch })
      hpending rfl rfl
    rw [stepsLeft_fill hnext]
    dsimp only at hlt ⊢
    omega
  · have hl := hi.not_latched (by simp [hphase])
    have hdrain : (raiseError none (busErrorRec 2 s.orch.fillCh 0xFFFFFFFF) s).orch.phase = .drain := by
      rw [raiseError_first hl]
    have hnone (w : WorkerId) : ((raiseError none (busErrorRec 2 s.orch.fillCh 0xFFFFFFFF) s).worker w).active = false := by
      rw [worker_raiseError, if_neg (by simp)]
      exact hi.quiet (.inr hphase) w
    rw [stepsLeft_working (.inr hdrain), microRemaining_none hnone]
    omega

theorem stepsLeft_orchStep {t : State} (hon : orchEnabled s = true) (h : orchStep s = .next t) :
    stepsLeft t < stepsLeft s := by
  cases hp : s.orch.phase with
  | idle => simp [orchEnabled, hp] at hon
  | fill =>
    rw [orchStep_fill hp] at h
    split at h
    · exact stepsLeft_fillWrite hi hp ‹_› h
    · cases h
      have hle := microRemaining_dispatch_le (hi.quiet (.inr hp))
      rw [stepsLeft_fill hp, stepsLeft_working (s := dispatch s) (.inl rfl)]
      omega
  | run =>
    have hnone := (((orchEnabled_iff hi).mp hon).resolve_left (by simp [hp])).2
    rw [orchStep_join hp (hi.not_latched (by simp [hp])) hnone] at h
    cases h
    rw [stepsLeft_working (.inl hp), stepsLeft_idle rfl]
    exact Nat.succ_pos _
  | drain =>
    have hnone := (((orchEnabled_iff hi).mp hon).resolve_left (by simp [hp])).2
    rw [orchStep_drained hp hnone] at h
    cases h
    rw [stepsLeft_working (.inr hp), stepsLeft_idle rfl]
    exact Nat.succ_pos _

/-- Every enabled step of an agent leaves less to do, whichever agent takes it (R205). -/
theorem stepsLeft_agentStep {a : AgentMove} {t : State} (hon : a ∈ enabledMoves s) (h : agentStep a s = .next t) :
    stepsLeft t < stepsLeft s := by
  cases a with
  | orch => exact stepsLeft_orchStep hi (orch_mem_enabledMoves.mp hon) h
  | micro w =>
    have hon := micro_mem_enabledMoves.mp hon
    exact stepsLeft_lt_of_microRemaining hi h (microEnabled_iff.mp hon).2 (microRemaining_microStep hi hon h)
  | halt w =>
    have hon := halt_mem_enabledMoves.mp hon
    obtain ⟨ha, hdrain⟩ := haltEnabled_iff.mp hon
    refine stepsLeft_lt_of_microRemaining hi h (.inr hdrain) ?_
    cases h
    rw [haltStep_enabled hon]
    exact microRemaining_haltWorker hi ha

end agents

/-! #### No agent touches the moves to come -/

theorem ChanUpdate.moves {w : WorkerId} {s u : State} (h : ChanUpdate w s u) : u.moves = s.moves := by
  cases h <;> rfl

theorem MicroCase.moves {w : WorkerId} {s t : State} (h : MicroCase w s t) : t.moves = s.moves := by
  cases h with
  | disabled => rfl
  | failed u e _ hu => rw [raiseError_moves, hu.moves]
  | loaded u _ hu => exact hu.moves
  | wrote u a word _ hu _ => exact hu.moves

theorem orchStep_moves {s t : State} (h : orchStep s = .next t) : t.moves = s.moves := by
  obtain rfl | ⟨-, -, hf⟩ | ⟨-, -, rfl⟩ | ⟨-, -, -, rfl⟩ | ⟨-, -, rfl⟩ := orchStep_next h
  case inr.inl =>
    obtain ⟨-, rfl⟩ | rfl := fillWrite_next hf
    · rfl
    · exact raiseError_moves none _ s
  all_goals rfl

theorem agentStep_moves {a : AgentMove} {s t : State} (h : agentStep a s = .next t) : t.moves = s.moves := by
  cases a with
  | orch => exact orchStep_moves h
  | micro w => exact (microStep_case h).moves
  | halt w =>
    cases h
    unfold haltStep
    split <;> rfl

/-! #### The block on its own -/

/-- With no move pending, a running command takes one step of an enabled agent: the choice among them is free. -/
theorem step_enabled {s : State} (hi : Inv s) (hm : s.moves = []) (hrun : s.orch.phase ≠ .idle) :
    ∃ t a k, step s = .next t ∧ a ∈ enabledMoves s ∧ agentStep a { s with tick := k } = .next t := by
  have hstep : step s = freeStep s := by rw [step, hm]
  obtain ⟨t, ht⟩ := freeStep_runs hi
  obtain ⟨hnil, -⟩ | ⟨a, k, ha, h⟩ := freeStep_next ht
  · exact absurd hnil (enabledMoves_ne_nil hi hrun)
  · exact ⟨t, a, k, hstep.trans ht, ha, h⟩

/-- One step of the block on its own leaves less to do, and one that ends the command completes it (R205). -/
theorem step_runsDown {s : State} (hi : Inv s) (hm : s.moves = []) (hrun : s.orch.phase ≠ .idle) :
    ∃ t, step s = .next t ∧ t.moves = [] ∧ stepsLeft t < stepsLeft s ∧
      (t.orch.phase = .idle → t.regs.status.done = true) := by
  obtain ⟨t, a, k, hstep, ha, h⟩ := step_enabled hi hm hrun
  have hik : Inv { s with tick := k } := hi.sameBlock (.ofFields s s.moves k s.rdata)
  refine ⟨t, hstep, (agentStep_moves h).trans hm, stepsLeft_agentStep hik ha h, fun hidle => ?_⟩
  obtain heq | hchange := agentStep_phase hik h
  · exact absurd (heq.symm.trans hidle) hrun
  · cases hchange with
    | dispatched _ ht => exact absurd (ht.symm.trans hidle) (by decide)
    | failed _ ht => exact absurd (ht.symm.trans hidle) (by decide)
    | joined _ _ _ hdone _ => exact hdone
    | drained _ _ _ hdone _ => exact hdone

theorem run_succ {s t : State} (h : step s = .next t) (n : Nat) :
    Host.Core.run Sys2Proof.core (n + 1) s = Host.Core.run Sys2Proof.core n t := by
  have hcore : Sys2Proof.core.step s = .next t := h
  simp only [Host.Core.run, hcore]

/-- Within `stepsLeft` steps of the block a running command completes (R205): induction on that number. -/
theorem completes_within {s : State} (hi : Inv s) (hm : s.moves = []) (hrun : s.orch.phase ≠ .idle) :
    ∃ (n : Nat) (t : State), n ≤ stepsLeft s ∧ Host.Core.run Sys2Proof.core n s = .next t ∧
      t.orch.phase = .idle ∧ t.regs.status.busy = false ∧ t.regs.status.done = true := by
  induction hk : stepsLeft s using Nat.strong_induction_on generalizing s with
  | _ k ih =>
    obtain ⟨u, hstep, hmoves, hlt, hdone⟩ := step_runsDown hi hm hrun
    have hiu := everyStepKeepsTheInvariant s u hi hstep
    by_cases hidle : u.orch.phase = .idle
    · exact ⟨1, u, by omega, run_succ hstep 0, hidle, hiu.not_busy hidle, hdone hidle⟩
    · obtain ⟨n, t, hn, hrun, hend⟩ := ih _ (hk ▸ hlt) hiu hmoves hidle rfl
      exact ⟨n + 1, t, by omega, (run_succ hstep n).trans hrun, hend⟩

/-- Settles O60: the bound goes down at every step, and a run as long as it ends the command. -/
theorem workRunsDown : Obligations.WorkRunsDown := by
  unfold Obligations.WorkRunsDown
  intro s hi hm hrun
  obtain ⟨t, hstep, hmoves, hlt, -⟩ := step_runsDown hi hm hrun
  exact ⟨⟨t, hstep, hmoves, hlt⟩, completes_within hi hm hrun⟩

end Sys2Proof.Machine

/-! ### PROOFS. Command intake, and the acceptance of a command (44_commands.md R220 to R227; 60_exceptions.md R256) -/

namespace Sys2Proof.Machine

/-! #### The acceptance check as the list of its tests (R256) -/

/-- What a failing test reports. -/
def ConfigTest.failure (x : ConfigTest) : Option ErrCause := if x.passes = true then none else some ⟨x.code, x.sub⟩

/-- What the first failing test of a list reports. -/
def firstFailure (tests : List ConfigTest) : Option ErrCause := tests.findSome? ConfigTest.failure

theorem ConfigTest.failure_passing {x : ConfigTest} (h : x.passes = true) : x.failure = none := if_pos h

theorem firstFailure_nil : firstFailure [] = none := rfl

/-- A test ahead of a list is one more guard, as CheckConfig writes it. -/
theorem firstFailure_cons (P : Prop) [Decidable P] (code : ErrCode) (sub : BitVec 4) (tests : List ConfigTest) :
    firstFailure (⟨decide P, code, sub⟩ :: tests) = if ¬P then some ⟨code, sub⟩ else firstFailure tests := by
  by_cases h : P <;> simp [firstFailure, ConfigTest.failure, h]

theorem firstFailure_none {tests : List ConfigTest} (h : ∀ x ∈ tests, x.passes = true) : firstFailure tests = none :=
  List.findSome?_eq_none_iff.mpr fun x hx => ConfigTest.failure_passing (h x hx)

/-- CheckConfig reports the first failing test of the list for its command: the same guards in the same order. -/
theorem checkConfig_eq_firstFailure (p : Params) (r : Regs) (kind : Kind) :
    checkConfig p r kind = firstFailure (configTests p r kind) := by
  cases kind <;>
    simp only [checkConfig, configTests, configTestsShape, configTestsRegions, List.cons_append, List.nil_append,
      firstFailure_cons, firstFailure_nil, reduceCtorEq, false_and, true_and, if_false] <;>
    rfl

theorem checkConfig_of_passes {p : Params} {r : Regs} {kind : Kind}
    (h : ∀ x ∈ configTests p r kind, x.passes = true) : checkConfig p r kind = none :=
  (checkConfig_eq_firstFailure p r kind).trans (firstFailure_none h)

/-! #### Acceptance (R222, R223) -/

/-- WORKERS as the number it stands for still fits the three bits of W: 0 is W_MAX, which is 4 (R102). -/
theorem ofNat_workerCount (workers : BitVec 3) :
    BitVec.ofNat 3 (workerCount workers) = if workers = 0 then 4 else workers := by
  unfold workerCount
  split
  · rfl
  · rw [BitVec.ofNat_toNat, BitVec.setWidth_eq]

theorem execDecode_accepted {s : State} {workers : BitVec 3} (hidle : s.orch.phase = .idle)
    (hw : workers.toNat ≤ Config.wMax) (hcheck : checkConfig s.params s.regs .stream = none) :
    execDecode workers s = .next (acceptDecode (workerCount workers) (startClear s)) := by
  rw [execDecode, if_neg (not_not.mpr hidle), if_neg (Nat.not_lt.mpr hw), hcheck]

/-- Settles O19: the tests passed are the check passed, and WORKERS gives W. -/
theorem decodeIsAccepted : Obligations.DecodeIsAccepted := by
  unfold Obligations.DecodeIsAccepted
  intro s workers hidle hw hpass
  refine (execDecode_accepted hidle hw (checkConfig_of_passes hpass)).trans ?_
  rw [acceptDecode, ofNat_workerCount]
  rfl

theorem execDecodeBlock_accepted {s : State} (hidle : s.orch.phase = .idle)
    (hcheck : checkConfig s.params s.regs .single = none) :
    execDecodeBlock s = .next (acceptDecodeBlock (startClear s)) := by
  rw [execDecodeBlock, if_neg (not_not.mpr hidle), hcheck]

/-- StartBlock at a block index and an output base that are register values (R130). -/
theorem Worker.startBlock_toNat (wk : Worker) (blk obase : Word) :
    wk.startBlock blk.toNat obase.toNat = { wk with blk := blk, obase := obase, phase := .hchk 0 } := by
  simp only [Worker.startBlock, BitVec.ofNat_toNat, BitVec.setWidth_eq]

/-- Settles O21: the tests passed are the check passed, and worker 0 starts at register values. -/
theorem decodeBlockIsAccepted : Obligations.DecodeBlockIsAccepted := by
  unfold Obligations.DecodeBlockIsAccepted
  intro s hidle hpass
  refine (execDecodeBlock_accepted hidle (checkConfig_of_passes hpass)).trans ?_
  rw [acceptDecodeBlock, Worker.startBlock_toNat]
  rfl

/-! #### Command intake (R220, R227) -/

theorem busWrite_command (s : State) (cw : Word) : busWrite (s.params.regBase + 0x08) .word cw s = takeCommand cw s := by
  unfold busWrite
  rw [windowOffset_window _ (by decide)]
  rfl

theorem step_command {s : State} {cw : Word} {rest : List Move}
    (hm : s.moves = .busWrite (s.params.regBase + 0x08) .word cw :: rest) :
    step s = takeCommand cw { s with moves := rest } := by
  simp only [step, hm, runMove]
  exact busWrite_command { s with moves := rest } cw

theorem takeCommand_legal {cw : Word} {i : Instr} (h : decodeCmd cw = .instr i) (s : State) :
    takeCommand cw s = exec i s := by
  rw [takeCommand, h]

theorem takeCommand_illegal {cw : Word} {e : IllegalWord} (h : decodeCmd cw = .illegal e) (s : State) :
    takeCommand cw s = .next (illegalCommand e.sub s) := by
  rw [takeCommand, h]

/-- Settles O4: the write is the intake of its word, and intake of a legal word is its execution. -/
theorem stepRunsTheDecodedCommand : Obligations.StepRunsTheDecodedCommand := by
  unfold Obligations.StepRunsTheDecodedCommand
  intro s cw i rest hm hcw
  exact (step_command hm).trans (takeCommand_legal hcw _)

/-- The record of an acceptance error has byte and channel 0: ERR_INFO is subcode and code alone (R229, R253). -/
theorem ErrCause.info_toRec (c : ErrCause) : c.toRec.info = 0#24 ++ c.sub ++ c.code.bits := by
  have hzero : (0#16 ++ 0#8 : BitVec 24) = 0#24 := by decide
  rw [← hzero]
  rfl

/-- A refused command: cleared for the start, then completed with its error (R220, R229). -/
theorem completeErr_startClear (c : ErrCause) (s : State) :
    completeErr c (startClear s) = { s with
      earlier := []
      regs := { s.regs with
        status := { s.regs.status with done := true, err := true, trail := false }
        errInfo := 0#24 ++ c.sub ++ c.code.bits
        errBlock := 0 } } := by
  rw [← ErrCause.info_toRec]
  rfl

theorem illegalCommand_idle {s : State} (h : s.orch.phase = .idle) (sub : BitVec 4) :
    illegalCommand sub s = completeErr ⟨.illegalCommand, sub⟩ (startClear s) := if_pos h

theorem illegalCommand_running {s : State} (h : s.orch.phase ≠ .idle) (sub : BitVec 4) :
    illegalCommand sub s = dropWord s := if_neg h

/-- Settles O6: intake of an illegal word is its completion while idle, and a drop while BUSY. -/
theorem illegalWordCompletesOrIsDropped : Obligations.IllegalWordCompletesOrIsDropped := by
  unfold Obligations.IllegalWordCompletesOrIsDropped
  intro s cw e rest hm hcw
  rw [step_command hm, takeCommand_illegal hcw]
  constructor
  · intro hidle
    rw [illegalCommand_idle (s := { s with moves := rest }) hidle, completeErr_startClear]
    rfl
  · intro hrun
    rw [illegalCommand_running (s := { s with moves := rest }) hrun]
    rfl

/-! #### NOP, CLEAR, and commands while BUSY (R220, R221, R225) -/

/-- Settles O15: a word other than 0 with OPCODE 0 has a WORKERS bit or a reserved bit set, and O2 says what that means. -/
theorem nopHasNoEffect : Obligations.NopHasNoEffect := by
  unfold Obligations.NopHasNoEffect
  refine ⟨by decide, fun cw hop hne => ?_, fun s => rfl⟩
  have hcw : cw.toNat ≠ 0 := fun h => hne (BitVec.eq_of_toNat_eq h)
  obtain ⟨-, hbits, -⟩ := commandWordsFollowTheOpcodeMap cw
  exact hbits (by omega) (by omega)

theorem execDecode_running {s : State} (h : s.orch.phase ≠ .idle) (workers : BitVec 3) :
    execDecode workers s = .next (dropWord s) := if_pos h

theorem execDecodeBlock_running {s : State} (h : s.orch.phase ≠ .idle) : execDecodeBlock s = .next (dropWord s) :=
  if_pos h

theorem execClear_running {s : State} (h : s.orch.phase ≠ .idle) : execClear s = .next (dropWord s) := if_pos h

theorem execClear_idle {s : State} (h : s.orch.phase = .idle) : execClear s = .next { s with regs := s.regs.clearAll } :=
  if_neg (not_not.mpr h)

/-- With DONE and ERR clear the interrupt line is low (R54). -/
theorem irq_clearAll (s : State) : State.irq { s with regs := s.regs.clearAll } = false := by
  simp [State.irq, Regs.clearAll]

/-- Settles O17: CLEAR writes its six fields while idle, and is dropped while BUSY. -/
theorem clearZeroesTheStatus : Obligations.ClearZeroesTheStatus := by
  unfold Obligations.ClearZeroesTheStatus
  exact ⟨by decide, fun s =>
    ⟨fun hidle => ⟨_, execClear_idle hidle, irq_clearAll s, rfl⟩, fun hrun => execClear_running hrun⟩⟩

/-- Settles O18: each of the three is dropped. -/
theorem commandsWhileBusyAreDropped : Obligations.CommandsWhileBusyAreDropped := by
  unfold Obligations.CommandsWhileBusyAreDropped
  rintro s i hrun (⟨workers, rfl⟩ | rfl | rfl)
  · exact execDecode_running hrun workers
  · exact execDecodeBlock_running hrun
  · exact execClear_running hrun

end Sys2Proof.Machine

/-! ### PROOFS. Every step goes on, but a forbidden host store (60_exceptions.md R256; 20_memory.md R82; 43_orchestrator.md
R204) -/

namespace Sys2Proof.Machine

/-! #### The host's moves -/

theorem execDecode_runs (workers : BitVec 3) (s : State) : ∃ t, execDecode workers s = .next t := by
  unfold execDecode
  split
  · exact ⟨_, rfl⟩
  · split
    · exact ⟨_, rfl⟩
    · split <;> exact ⟨_, rfl⟩

theorem execDecodeBlock_runs (s : State) : ∃ t, execDecodeBlock s = .next t := by
  unfold execDecodeBlock
  split
  · exact ⟨_, rfl⟩
  · split <;> exact ⟨_, rfl⟩

theorem execAbort_runs (s : State) : ∃ t, execAbort s = .next t := by
  unfold execAbort
  split <;> exact ⟨_, rfl⟩

theorem execClear_runs (s : State) : ∃ t, execClear s = .next t := by
  unfold execClear
  split <;> exact ⟨_, rfl⟩

/-- A word written to CMD never stops the machine: refusing a command is a next state (R220, R229). -/
theorem takeCommand_runs (cw : Word) (s : State) : ∃ t, takeCommand cw s = .next t := by
  cases hcw : decodeCmd cw with
  | illegal e => exact ⟨_, takeCommand_illegal hcw s⟩
  | instr i =>
    have hcmd := decodeCmd_isCommand hcw
    rw [takeCommand_legal hcw]
    cases i
    case nop => exact ⟨_, rfl⟩
    case decode workers => exact execDecode_runs workers s
    case decodeBlock => exact execDecodeBlock_runs s
    case abort => exact execAbort_runs s
    case clear => exact execClear_runs s
    case softReset => exact ⟨_, rfl⟩
    all_goals cases hcmd

theorem busWrite_runs (addr : Nat) (size : AccSize) (data : Word) (s : State) :
    ∃ t, busWrite addr size data s = .next t := by
  unfold busWrite
  split
  · split
    · exact takeCommand_runs data s
    · exact ⟨_, rfl⟩
    · exact ⟨_, rfl⟩
  · exact ⟨_, rfl⟩

theorem waitStep_runs {s : State} (hi : Inv s) (addr bit : Nat) : ∃ t, waitStep addr bit s = .next t := by
  unfold waitStep
  split
  · exact ⟨_, rfl⟩
  · exact freeStep_runs (hi.sameBlock ((State.SameBlock.acknowledge addr .word s).trans (.ofFields _ _ _ _)))

theorem storeForbidden_iff {s : State} {a : Nat} :
    storeForbidden s a = true ↔
      s.orch.phase ≠ .idle ∧ (inInRgn s.regs a = true ∨ inOutRgn s.regs a = true ∨ ∃ d ∈ s.duties, d.covers a = true) := by
  simp only [storeForbidden, Bool.and_eq_true, decide_eq_true_eq, Bool.or_eq_true, List.any_eq_true, or_assoc]

theorem hostStore_forbidden {s : State} {a : BitVec 32} (h : storeForbidden s a.toNat = true) (b : Byte) :
    hostStore a b s = .refused .hostWritesRegionWhileBusy := if_pos h

theorem hostStore_allowed {s : State} {a : BitVec 32} (h : ¬storeForbidden s a.toNat = true) (b : Byte) :
    hostStore a b s = .next ((s.storeByte a.toNat b).breakDuties a.toNat) := if_neg h

/-! #### The step -/

theorem step_move {s : State} {m : Move} {rest : List Move} (h : s.moves = m :: rest) :
    step s = runMove m { s with moves := rest } := by
  rw [step, h]

/-- From a state of the invariant every move but a host store goes on. -/
theorem runMove_runs {s : State} (hi : Inv s) {m : Move} (hm : ∀ a b, m ≠ .store a b) : ∃ t, runMove m s = .next t := by
  cases m with
  | agent a => exact agentStep_runs hi a
  | busWrite addr size data => exact busWrite_runs addr size data s
  | busRead addr size => exact ⟨_, rfl⟩
  | store a b => exact absurd rfl (hm a b)
  | load a => exact ⟨_, rfl⟩
  | loadWord n => exact ⟨_, rfl⟩
  | wait addr bit => exact waitStep_runs hi addr bit
  | powerOn => exact ⟨_, rfl⟩

/-- From a state of the invariant a step goes on, or is a host store that is forbidden. -/
theorem step_runs_or_storeForbidden {s : State} (hi : Inv s) :
    (∃ t, step s = .next t) ∨ ∃ a b rest, s.moves = .store a b :: rest ∧ storeForbidden s a.toNat = true := by
  cases hm : s.moves with
  | nil =>
    rw [step, hm]
    exact .inl (freeStep_runs hi)
  | cons m rest =>
    rw [step_move hm]
    have hrest : Inv { s with moves := rest } := hi.sameBlock (.ofFields s rest _ _)
    by_cases hstore : ∃ a b, m = .store a b
    · obtain ⟨a, b, rfl⟩ := hstore
      by_cases hf : storeForbidden s a.toNat = true
      · exact .inr ⟨a, b, rest, rfl, hf⟩
      · exact .inl ⟨_, hostStore_allowed (s := { s with moves := rest }) hf b⟩
    · exact .inl (runMove_runs hrest fun a b h => hstore ⟨a, b, h⟩)

/-! #### What a store changes -/

theorem hostStore_status {s t : State} {a : BitVec 32} {b : Byte} (h : hostStore a b s = .next t) :
    t.regs.status = s.regs.status := by
  obtain ⟨-, rfl⟩ | ⟨-, -, as, r, -, rfl | ⟨-, rfl⟩, rfl⟩ := hostStore_next h <;> rfl

/-- A store that breaks no duty writes its byte and nothing else (R82). -/
theorem hostStore_free {s t : State} {a : BitVec 32} {b : Byte} (h : hostStore a b s = .next t)
    (hfree : ∀ d ∈ s.duties, d.covers a.toNat = false) : t = s.storeByte a.toNat b := by
  obtain ⟨-, rfl⟩ | ⟨-, ⟨d, hd, hcovers⟩, -⟩ := hostStore_next h
  · rfl
  · cases (hfree d hd).symm.trans hcovers

/-- A store that breaks a duty goes on while IDLE only (R82, R204; log 13). -/
theorem hostStore_breaking_idle {s t : State} {a : BitVec 32} {b : Byte} (h : hostStore a b s = .next t)
    (hbreaks : ∃ d ∈ s.duties, d.covers a.toNat = true) : s.orch.phase = .idle := by
  obtain ⟨hfree, -⟩ | ⟨hidle, -⟩ := hostStore_next h
  · obtain ⟨d, hd, hcovers⟩ := hbreaks
    cases (hfree d hd).symm.trans hcovers
  · exact hidle

/-- Outside the output words of the commands whose duty it breaks, a store changes its own byte only (R82; log 37). -/
theorem hostStore_read {s t : State} (hi : Inv s) {a : BitVec 32} {b : Byte} (h : hostStore a b s = .next t) {c : Nat}
    (hc : ∀ d ∈ s.duties, d.covers a.toNat = true → ∀ x ∈ d.outputs, c < x ∨ x + 4 ≤ c) :
    t.mem.read c = if c = a.toNat then b else s.mem.read c := by
  obtain ⟨-, rfl⟩ | ⟨-, -, as, r, has, -, rfl⟩ := hostStore_next h
  · exact Memory.read_write a.toNat c b hi.memWf
  · have hinside : ∀ x ∈ as, x + 4 ≤ Memory.size := fun x hx => by
      obtain ⟨d, hd, -, hx⟩ := (has x).mp hx
      exact Duty.outputs_inside (hi.dutiesOk d hd) x hx
    have houtside : ∀ x ∈ as, c < x ∨ x + 4 ≤ c := fun x hx => by
      obtain ⟨d, hd, hcovers, hx⟩ := (has x).mp hx
      exact hc d hd hcovers x hx
    exact (Memory.read_freeWords_outside hinside (Memory.wf_write b a.isLt hi.memWf) houtside).trans
      (Memory.read_write a.toNat c b hi.memWf)

/-- Settles O49: only a forbidden store does not go on, and a store that does is one of the two of `hostStore_next`. -/
theorem everyStepGoesOn : Obligations.EveryStepGoesOn := by
  unfold Obligations.EveryStepGoesOn
  constructor
  · intro s hi
    refine (step_runs_or_storeForbidden hi).imp_right ?_
    rintro ⟨a, b, rest, hm, hf⟩
    obtain ⟨hrun, hregion⟩ := storeForbidden_iff.mp hf
    exact ⟨(step_move hm).trans (hostStore_forbidden (s := { s with moves := rest }) hf b), hrun, a, b, rest, hm, hregion⟩
  · intro s t a b rest hi hm h
    have hs : hostStore a b { s with moves := rest } = .next t := (step_move hm).symm.trans h
    have hrest : Inv { s with moves := rest } := hi.sameBlock (.ofFields s rest _ _)
    have hstatus := hostStore_status hs
    have hbreaking := hostStore_breaking_idle hs
    exact ⟨hstatus, hostStore_free hs, hbreaking, fun c => hostStore_read hrest hs⟩

end Sys2Proof.Machine

/-! ### PROOFS. The interrupt line (60_exceptions.md R262; 10_state.md R54) -/

namespace Sys2Proof.Machine

/-! #### The line over the registers as they read -/

theorem State.irq_eq_true {s : State} :
    s.irq = true ↔
      (s.regs.status.done = true ∧ s.regs.irqEn.getLsbD 0 = true) ∨
      (s.regs.status.err = true ∧ s.regs.irqEn.getLsbD 1 = true) := by
  simp only [State.irq, Regs.doneIe, Regs.errIe, Bool.or_eq_true, Bool.and_eq_true]

theorem readReg_irqEn_getLsbD (s : State) {i : Nat} (h : i < 32) :
    (readReg s .irqEn).getLsbD i = s.regs.irqEn.getLsbD i := by
  simp [readReg, h]

theorem irq_iff_readReg (s : State) :
    s.irq = true ↔
      ((readReg s .status).getLsbD 1 = true ∧ (readReg s .irqEn).getLsbD 0 = true) ∨
      ((readReg s .status).getLsbD 2 = true ∧ (readReg s .irqEn).getLsbD 1 = true) := by
  obtain ⟨-, hdone, herr, -⟩ := s.regs.status.toWord_getLsbD
  rw [readReg_irqEn_getLsbD s (by decide), readReg_irqEn_getLsbD s (by decide), State.irq_eq_true, readReg, hdone, herr]

theorem irqInput_iff (s : State) (n : Nat) : s.irqInput n = true ↔ n = s.params.irqRoute ∧ s.irq = true := by
  simp only [State.irqInput, Bool.and_eq_true, decide_eq_true_eq]

/-! #### The completions -/

/-- A join sets DONE over ERR = 0, so it raises the line when DONE is enabled (R195, R262). -/
theorem irq_completeOk {s : State} (h : s.regs.status.err = false) :
    (completeOk s).irq = true ↔ s.regs.irqEn.getLsbD 0 = true := by
  simp [State.irq_eq_true, completeOk, h]

/-- The end of the drain sets DONE and ERR, so it raises the line when either is enabled (R198, R262). -/
theorem irq_completeFailed (s : State) :
    (completeFailed s).irq = true ↔ s.regs.irqEn.getLsbD 0 = true ∨ s.regs.irqEn.getLsbD 1 = true := by
  simp [State.irq_eq_true, completeFailed]

theorem completion_raises_irq {s : State} (hi : Inv s) {rest : List Move} (hm : s.moves = .agent .orch :: rest)
    (hphase : s.orch.phase = .run ∨ s.orch.phase = .drain) (hnone : ∀ w, (s.worker w).active = false) :
    ∃ t, step s = .next t ∧
      (t.irq = true ↔ s.regs.irqEn.getLsbD 0 = true ∨ (s.orch.phase = .drain ∧ s.regs.irqEn.getLsbD 1 = true)) := by
  rw [step_orch hm]
  obtain hrun | hdrain := hphase
  · refine ⟨_, orchStep_join (s := { s with moves := rest }) hrun (hi.not_latched (by simp [hrun])) hnone, ?_⟩
    rw [irq_completeOk (s := { s with moves := rest }) (hi.not_err (by simp [hrun]))]
    simp [hrun]
  · refine ⟨_, orchStep_drained (s := { s with moves := rest }) hdrain hnone, ?_⟩
    rw [irq_completeFailed]
    simp [hdrain]

/-! #### What keeps DONE and ERR -/

/-- DONE and ERR are not cleared. -/
def Regs.KeepsDoneErr (r r' : Regs) : Prop :=
  (r.status.done = true → r'.status.done = true) ∧ (r.status.err = true → r'.status.err = true)

theorem Regs.KeepsDoneErr.of_status {r r' : Regs} (h : r'.status = r.status) : r.KeepsDoneErr r' := by
  rw [Regs.KeepsDoneErr, h]
  exact ⟨id, id⟩

/-- With DONE and ERR not cleared and the enables unchanged the line stays high. -/
theorem Regs.KeepsDoneErr.irq {s t : State} (h : s.regs.KeepsDoneErr t.regs) (hen : t.regs.irqEn = s.regs.irqEn)
    (hs : s.irq = true) : t.irq = true := by
  rw [State.irq_eq_true] at hs ⊢
  rw [hen]
  exact hs.imp (And.imp_left h.1) (And.imp_left h.2)

theorem raiseError_keepsDoneErr (who : Option WorkerId) (e : ErrRec) (s : State) :
    s.regs.KeepsDoneErr (raiseError who e s).regs := by
  cases hl : s.orch.latched with
  | false =>
    rw [raiseError_first hl]
    exact ⟨id, id⟩
  | true => exact .of_status (congrArg Regs.status (raiseError_latched_regs hl who e))

theorem MicroCase.keepsDoneErr {w : WorkerId} {s t : State} (h : MicroCase w s t) : s.regs.KeepsDoneErr t.regs := by
  cases h with
  | disabled => exact .of_status rfl
  | failed u e _ hu => exact hu.regs ▸ raiseError_keepsDoneErr (some w) e u
  | loaded u _ hu => exact .of_status (congrArg Regs.status hu.regs)
  | wrote u a word _ hu _ => exact .of_status (congrArg Regs.status hu.regs)

theorem orchStep_keepsDoneErr {s t : State} (h : orchStep s = .next t) : s.regs.KeepsDoneErr t.regs := by
  obtain rfl | ⟨-, -, hf⟩ | ⟨-, -, rfl⟩ | ⟨-, -, -, rfl⟩ | ⟨-, -, rfl⟩ := orchStep_next h
  · exact .of_status rfl
  · obtain ⟨-, rfl⟩ | rfl := fillWrite_next hf
    · exact .of_status rfl
    · exact raiseError_keepsDoneErr none _ s
  · exact .of_status rfl
  · exact ⟨fun _ => rfl, id⟩
  · exact ⟨fun _ => rfl, fun _ => rfl⟩

/-- No step of an agent of the block clears DONE or ERR. -/
theorem agentStep_keepsDoneErr {a : AgentMove} {s t : State} (h : agentStep a s = .next t) :
    s.regs.KeepsDoneErr t.regs := by
  cases a with
  | orch => exact orchStep_keepsDoneErr h
  | micro w => exact (microStep_case h).keepsDoneErr
  | halt w =>
    cases h
    unfold haltStep
    split <;> exact .of_status rfl

theorem execAbort_keepsDoneErr {s t : State} (h : execAbort s = .next t) : s.regs.KeepsDoneErr t.regs := by
  unfold execAbort at h
  split at h <;> cases h
  · exact .of_status rfl
  · exact raiseError_keepsDoneErr none _ s

/-- Command words that may clear DONE or ERR: every word but NOP and ABORT (R220 to R227, R262). -/
def mayClearStatus (cw : Word) : Prop :=
  decodeCmd cw = .instr .clear ∨ decodeCmd cw = .instr .softReset ∨ decodeCmd cw = .instr .decodeBlock ∨
    (∃ w, decodeCmd cw = .instr (.decode w)) ∨ ∃ e, decodeCmd cw = .illegal e

theorem takeCommand_keepsDoneErr {cw : Word} {s t : State} (hcw : ¬mayClearStatus cw) (h : takeCommand cw s = .next t) :
    s.regs.KeepsDoneErr t.regs := by
  unfold mayClearStatus at hcw
  cases hd : decodeCmd cw with
  | illegal e => simp [hd] at hcw
  | instr i =>
    have hcmd := decodeCmd_isCommand hd
    rw [takeCommand_legal hd] at h
    cases i
    case nop => cases h; exact .of_status rfl
    case abort => exact execAbort_keepsDoneErr h
    case decode workers => simp [hd] at hcw
    case decodeBlock => simp [hd] at hcw
    case clear => simp [hd] at hcw
    case softReset => simp [hd] at hcw
    all_goals cases hcmd

theorem writeReg_status (s : State) (r : Reg) (v : Word) : (writeReg s r v).regs.status = s.regs.status := by
  unfold writeReg
  split
  · rfl
  · exact Regs.write_status s.regs v r

/-- What clears DONE or ERR (R262): the reset input, or a host write to CMD. -/
theorem step_keepsDoneErr_or {s t : State} (h : step s = .next t) :
    s.regs.KeepsDoneErr t.regs ∨ ∃ rest : List Move, s.moves = .powerOn :: rest ∨
      ∃ cw : Word, s.moves = .busWrite (s.params.regBase + 0x08) .word cw :: rest ∧ mayClearStatus cw := by
  cases step_case h with
  | powerOn rest hm _ => exact .inr ⟨rest, .inl hm⟩
  | store rest a b _ ht => exact .inl (.of_status (hostStore_status (s := { s with moves := rest }) ht))
  | command rest cw hm _ =>
    by_cases hcw : mayClearStatus cw
    · exact .inr ⟨rest, .inr ⟨cw, hm, hcw⟩⟩
    · have hs : takeCommand cw { s with moves := rest } = .next t := (step_command hm).symm.trans h
      exact .inl (takeCommand_keepsDoneErr (s := { s with moves := rest }) hcw hs)
  | register rest r v _ _ ht => exact .inl (.of_status (ht ▸ writeReg_status { s with moves := rest } r v))
  | quiet ht =>
    obtain ⟨dl, mv, k, d, -, rfl⟩ := ht
    exact .inl (.of_status rfl)
  | agent u a hu ht =>
    obtain ⟨dl, mv, k, d, -, rfl⟩ := hu
    exact .inl (agentStep_keepsDoneErr (s := { s with duties := dl, moves := mv, tick := k, rdata := d }) ht)

/-- Settles O11: the line by its registers, the completions one by one, and a fall by what can clear DONE or ERR. -/
theorem interruptFallsOnlyByTheHost : Obligations.InterruptFallsOnlyByTheHost := by
  unfold Obligations.InterruptFallsOnlyByTheHost
  refine ⟨fun s => ⟨irq_iff_readReg s, irqInput_iff s⟩,
    fun s rest hi hm hphase hnone => completion_raises_irq hi hm hphase hnone, fun s t h hs ht hen => ?_⟩
  refine (step_keepsDoneErr_or h).resolve_left fun hkeeps => ?_
  cases ht.symm.trans (hkeeps.irq hen hs)

end Sys2Proof.Machine

/-! ### PROOFS. Commands refused by the acceptance check (44_commands.md R229; 60_exceptions.md R256) -/

namespace Sys2Proof.Machine

theorem ConfigTest.failure_failing {x : ConfigTest} (h : x.passes = false) : x.failure = some ⟨x.code, x.sub⟩ :=
  if_neg (by simp [h])

/-- The first failing test of a list is the one that all tests before it pass. -/
theorem firstFailure_append {pre post : List ConfigTest} {e : ConfigTest} (hpre : ∀ x ∈ pre, x.passes = true)
    (he : e.passes = false) : firstFailure (pre ++ e :: post) = some ⟨e.code, e.sub⟩ := by
  have hnone : pre.findSome? ConfigTest.failure = none := firstFailure_none hpre
  rw [firstFailure, List.findSome?_append, hnone, Option.none_or, List.findSome?_cons, ConfigTest.failure_failing he]

theorem checkConfig_of_first_failing {p : Params} {r : Regs} {kind : Kind} {pre post : List ConfigTest} {e : ConfigTest}
    (htests : configTests p r kind = pre ++ e :: post) (hpre : ∀ x ∈ pre, x.passes = true) (he : e.passes = false) :
    checkConfig p r kind = some ⟨e.code, e.sub⟩ := by
  rw [checkConfig_eq_firstFailure, htests, firstFailure_append hpre he]

theorem execDecode_tooManyWorkers {s : State} {workers : BitVec 3} (hidle : s.orch.phase = .idle)
    (hw : Config.wMax < workers.toNat) :
    execDecode workers s = .next (completeErr ⟨.illegalCommand, 3⟩ (startClear s)) := by
  rw [execDecode, if_neg (not_not.mpr hidle), if_pos hw, illegalCommand_idle hidle]

theorem execDecode_rejected {s : State} {workers : BitVec 3} {e : ErrCause} (hidle : s.orch.phase = .idle)
    (hw : workers.toNat ≤ Config.wMax) (hcheck : checkConfig s.params s.regs .stream = some e) :
    execDecode workers s = .next (completeErr e (startClear s)) := by
  rw [execDecode, if_neg (not_not.mpr hidle), if_neg (Nat.not_lt.mpr hw), hcheck]

theorem execDecodeBlock_rejected {s : State} {e : ErrCause} (hidle : s.orch.phase = .idle)
    (hcheck : checkConfig s.params s.regs .single = some e) :
    execDecodeBlock s = .next (completeErr e (startClear s)) := by
  rw [execDecodeBlock, if_neg (not_not.mpr hidle), hcheck]

/-- Settles O20: the first failing test is what the check reports, and the refused command completes with it. -/
theorem decodeIsRefusedByTheFirstFailingTest : Obligations.DecodeIsRefusedByTheFirstFailingTest := by
  unfold Obligations.DecodeIsRefusedByTheFirstFailingTest
  intro s workers hidle
  constructor
  · intro hw
    exact (execDecode_tooManyWorkers hidle hw).trans (congrArg _ (completeErr_startClear _ s))
  · intro hw pre post e htests hpre he
    exact (execDecode_rejected hidle hw (checkConfig_of_first_failing htests hpre he)).trans
      (congrArg _ (completeErr_startClear _ s))

/-- Settles O22: the first failing test is what the check reports, and the refused command completes with it. -/
theorem decodeBlockIsRefusedByTheFirstFailingTest : Obligations.DecodeBlockIsRefusedByTheFirstFailingTest := by
  unfold Obligations.DecodeBlockIsRefusedByTheFirstFailingTest
  intro s pre post e hidle htests hpre he
  exact (execDecodeBlock_rejected hidle (checkConfig_of_first_failing htests hpre he)).trans
    (congrArg _ (completeErr_startClear _ s))

end Sys2Proof.Machine

/-! ### PROOFS. Input reads that get an error response (60_exceptions.md R271; 43_orchestrator.md R196) -/

namespace Sys2Proof.Machine

/-- MemRead8 gets an error response at an address that exists and that the platform does not answer OK (R271). -/
theorem memRead8_busError {s : State} {a : Nat} (hin : a < Memory.size) (hok : busOk s.params a .read = false) :
    memRead8 s a = .busError := by
  rw [memRead8, if_neg hin.not_ge, hok, if_neg Bool.false_ne_true]

/-- HDR_CHECK inside memory with an error response to one of its four reads (R271; log 16). -/
theorem hdrCheck_busError {w : WorkerId} {ch j : Nat} {s : State}
    (hin : ∀ i, i < 4 → inAddr s.regs (s.worker w).blk.toNat (headerByte ch i) < Memory.size) (hj : j < 4)
    (hok : busOk s.params (inAddr s.regs (s.worker w).blk.toNat (headerByte ch j)) .read = false) :
    hdrCheck w ch s = .next (raiseError (some w) (busErrorRec 1 ch (s.worker w).blk) s) := by
  have herr : readHeaderByte s w ch j = .busError := memRead8_busError (hin j hj) hok
  obtain ⟨t, ht⟩ := hdrCheck_runs w hin
  obtain ⟨h0, h1, h2, h3, hr0, hr1, hr2, hr3, -⟩ | rfl := hdrCheck_next ht
  · have hread : ∃ x, readHeaderByte s w ch j = .ok x := by
      interval_cases j
      · exact ⟨_, hr0⟩
      · exact ⟨_, hr1⟩
      · exact ⟨_, hr2⟩
      · exact ⟨_, hr3⟩
    obtain ⟨x, hx⟩ := hread
    cases herr.symm.trans hx
  · exact ht

/-- A micro-operation at a BODY cursor whose byte gets an error response (R138, R271). -/
theorem microStep_body_busError {s : State} {w : WorkerId} {g ch b h : Nat} (hon : microEnabled s w = true)
    (hp : (s.worker w).phase = .body g ch b h)
    (hin : inAddr s.regs (s.worker w).blk.toNat (bodyByte s.regs g ch b) < Memory.size)
    (hok : busOk s.params (inAddr s.regs (s.worker w).blk.toNat (bodyByte s.regs g ch b)) .read = false) :
    microStep w s = .next (raiseError (some w) (busErrorRec 1 ch (s.worker w).blk) { s with turn := w }) := by
  have herr : readBodyByte s w g ch b = .busError := memRead8_busError hin hok
  simp only [microStep, if_pos hon, hp, herr]

/-- Settles O36: at either cursor the error response raises BUS_ERROR subcode 1. -/
theorem readsRaiseBusError : Obligations.ReadsRaiseBusError := by
  unfold Obligations.ReadsRaiseBusError
  intro s w ch a rest hm ha hrun hread hok
  have hon : microEnabled { s with moves := rest } w = true := microEnabled_of ha hrun
  have hraise : step s = .next (raiseError (some w) (busErrorRec 1 ch (s.worker w).blk)
      { s with moves := rest, turn := w }) := by
    rw [step_micro hm]
    obtain ⟨hp, hin, j, hj, rfl⟩ | ⟨g, b, h, hp, rfl, hin⟩ := hread
    · rw [microStep_hchk hon hp]
      exact hdrCheck_busError (s := { s with moves := rest, turn := w }) hin hj hok
    · exact microStep_body_busError hon hp hin hok
  exact ⟨_, hraise, raiseError_mem _ _ _, worker_raiseError_some _ _ _,
    raiseError_effect (some w) (busErrorRec 1 ch (s.worker w).blk) { s with moves := rest, turn := w }⟩

end Sys2Proof.Machine

/-! ### PROOFS. Reset (70_reset_and_hazards.md R280, R281; 44_commands.md R226) -/

namespace Sys2Proof.Machine

/-! #### The state after the power-on reset (R281) -/

@[simp] theorem State.resetWith_orch (p : Params) : (State.resetWith p).orch = Orch.reset := rfl

@[simp] theorem State.worker_resetWith (p : Params) (w : WorkerId) : (State.resetWith p).worker w = Worker.reset p := by
  cases w <;> rfl

theorem resetWith_stopped (p : Params) (w : WorkerId) : ((State.resetWith p).worker w).active = false :=
  congrArg Worker.active (State.worker_resetWith p w)

/-- CH_COUNT is 0 at reset, which is no legal shape (R105). -/
theorem not_shapeOK_reset (p : Params) : ¬shapeOK p Regs.reset = true := fun h =>
  absurd (shapeOK_iff.mp h).1 (by decide)

/-- The high part of an appended word counts in units of the low part's range. -/
theorem toNat_append_eq_add {k n : Nat} (x : BitVec k) (y : BitVec n) : (x ++ y).toNat = x.toNat * 2 ^ n + y.toNat := by
  rw [BitVec.toNat_append, ← Nat.shiftLeft_add_eq_or_of_lt y.isLt, Nat.shiftLeft_eq]

/-- The fields of PARAM as one number, MAX_CHANNELS over OUT_FMT = 1 and W_MAX = 4 (R31). -/
theorem paramWord_toNat {p : Params} (h : p.maxChannels ≤ 65535) :
    (paramWord p).toNat = p.maxChannels * 65536 + 0x14 := by
  simp only [paramWord, toNat_append_eq_add, BitVec.toNat_ofNat, Config.wMax]
  omega

/-- With every flag clear STATUS reads 0 (R33). -/
theorem Status.toWord_reset : Status.reset.toWord = 0 := by decide

/-- Every register but ID and PARAM reads 0: it holds 0, or it is computed from a configuration with no legal shape. -/
theorem readReg_resetWith (p : Params) {r : Reg} (hid : r ≠ .id) (hparam : r ≠ .param) :
    readReg (State.resetWith p) r = 0 := by
  obtain ⟨hblocks, htotal, hspb⟩ := readReg_computed_of_not_shapeOK (s := State.resetWith p) (not_shapeOK_reset p)
  cases r
  case id => exact absurd rfl hid
  case param => exact absurd rfl hparam
  case status => exact Status.toWord_reset
  case blockCount => exact hblocks
  case totalSamples => exact htotal
  case spb => exact hspb
  all_goals rfl

/-- Settles O12, register by register. -/
theorem resetReadsTheResetValues : Obligations.ResetReadsTheResetValues := by
  unfold Obligations.ResetReadsTheResetValues
  rintro p ⟨-, hmax, -⟩
  exact ⟨rfl, paramWord_toNat hmax, fun _ => readReg_resetWith p, rfl, rfl, rfl, resetWith_stopped p⟩

/-! #### The invariants at reset -/

/-- The ChannelStates the model has at reset are in their ranges (R24; log 3). -/
theorem Worker.csOk_reset (p : Params) : (Worker.reset p).csOk p :=
  ⟨List.length_replicate, fun _ hc => List.eq_of_mem_replicate hc ▸ Nat.zero_le 88⟩

/-- An idle machine with every flag clear and nothing pending meets the invariant. -/
theorem inv_resetWith {p : Params} (hp : p.wf) : Inv (State.resetWith p) where
  memWf := Memory.wf_reset p
  earlierWf := fun _ hm => absurd hm List.not_mem_nil
  doneSettled := fun _ => rfl
  dutiesOk := fun _ hd => absurd hd List.not_mem_nil
  paramsWf := hp
  csOk := fun w => State.worker_resetWith p w ▸ Worker.csOk_reset p
  busyIff := iff_of_false Bool.false_ne_true (not_not.mpr rfl)
  drainIff := iff_of_false Bool.false_ne_true (by simp [Orch.reset])
  latchedIff := iff_of_false Bool.false_ne_true (by simp [Orch.reset])
  errDone := fun h => absurd h Bool.false_ne_true
  runningNotDone := fun _ => rfl
  noError := fun _ _ => ⟨rfl, rfl⟩
  accepted := fun h => absurd rfl h
  workersUsed := fun h => absurd rfl h
  trailIff := fun h => absurd rfl h
  fillOk := fun h => absurd h (by simp [Orch.reset])
  quiet := fun _ => resetWith_stopped p
  activeOk := fun w h => absurd h (Bool.eq_false_iff.mp (resetWith_stopped p w))

/-- Settles O13: the reset state is an idle one, and an idle machine owes no output. -/
theorem resetMeetsTheInvariant : Obligations.ResetMeetsTheInvariant := by
  unfold Obligations.ResetMeetsTheInvariant
  exact ⟨fun p hp => ⟨inv_resetWith hp, outputInv_of_idle (inv_resetWith hp) rfl⟩, fun _ => outputInv_of_idle⟩

/-! #### The two resets of a running machine (R226, R280) -/

theorem exec_softReset (s : State) : exec .softReset s = .next (resetBlock s) := rfl

theorem step_powerOn {s : State} {rest : List Move} (h : s.moves = .powerOn :: rest) :
    step s = .next (resetBlock { s with moves := rest }) := step_move h

theorem resetBlock_stopped (s : State) (w : WorkerId) : ((resetBlock s).worker w).active = false :=
  congrArg Worker.active (Workers.get_map _ _ w)

/-- Settles O14: either reset leaves what resetBlock does. -/
theorem bothResetsStopEverything : Obligations.BothResetsStopEverything := by
  unfold Obligations.BothResetsStopEverything
  refine ⟨by decide, fun s => ⟨resetBlock s, exec_softReset s, ?_, rfl, rfl, rfl, rfl, rfl, resetBlock_stopped s⟩⟩
  rintro u rest hm rfl
  exact step_powerOn hm

end Sys2Proof.Machine
